-- ==== Sys2Proof/Word.lean ====
section
/-! DEFINITION. The word types of the block (spec/00_scope.md R8; spec/10_state.md R13, R14, R16, R19, R25, R26).
Bit 0 of every word is its least significant bit. The conditioner's registers are exact rationals (`Rat`), R7. -/

namespace Sys2Proof

/-- One byte of the `TXPAT` and `RX` spaces (R40: bytes are 8 bits). -/
abbrev Byte := BitVec 8

/-- A value of the millisecond counter `NOW` and of `START`: `TIMER_BITS` = 32 bits (R5, R19). -/
abbrev Timer := BitVec 32

/-- A captured 24-bit pattern, the contents of `ACC` (R13). -/
abbrev Sample24 := BitVec 24

/-- The transport result word `RAW`: `NR` above 24 data bits (R14, R61). -/
abbrev RawWord := BitVec 25

/-- A host command word, `OP`, `A`, `B` (R63). -/
abbrev CommandWord := BitVec 72

/-- A clock pattern of the `SHIFTREG` transfer as one 56-bit word, slot 0 in bit 55 (R42, R57). -/
abbrev PatternWord := BitVec 56

/-- The status word (R26, R67). -/
abbrev StatusWord := BitVec 8

end Sys2Proof
end

