-- ==== Sys2Proof/Config.lean ====
section
/-! DEFINITION. What is fixed when the block is built: the transport variant (R4), the valued parameters (R5), the
number domain of the conditioner (R7), and the reset constants of R5. -/

namespace Sys2Proof

/-- The build-time parameter `TRANSPORT` (R4): one instance contains exactly one of the two variants. -/
inductive Transport where
  /-- The Pulse-Generator Transport: a dedicated sequencer (agent SEQ). -/
  | pulsegen
  /-- The Shift-Register Transport: a synchronous transfer peripheral (agent XFER). -/
  | shiftreg
deriving DecidableEq, Repr

/-- The three legal values of `GAINSEL`, each named by the pulse offset it holds (R12, R56).
The value 0 encodes nothing and no rule writes it, so the type leaves it out (spec/93 I18). -/
inductive GainSel where
  /-- Pulse offset 1: gain 128, 25 pulses. -/
  | offset1
  /-- Pulse offset 2: gain 32, 26 pulses. -/
  | offset2
  /-- Pulse offset 3: gain 64, 27 pulses. -/
  | offset3
deriving DecidableEq, Repr

/-- The parameters a model may keep as arguments (R4, R5): fixed for the life of an instance, so no step changes them. -/
structure Params where
  /-- `TRANSPORT` (R4). -/
  transport : Transport
  /-- `READY_LEVEL`: the level of `DOUT` that means ready (R5, R103). -/
  readyLevel : Bool
  /-- `DEADLINE_MS`: the Monitor's deadline of a `PULSEGEN` session, in milliseconds (R5, R91). -/
  deadlineMs : Nat
  /-- `POLL_BUDGET`: the greatest number of ready polls of a `SHIFTREG` session (R5, R94). -/
  pollBudget : Nat
deriving DecidableEq, Repr

/-- The values of R5 for a given transport variant. -/
def Params.standard (t : Transport) : Params :=
  { transport := t, readyLevel := false, deadlineMs := 500, pollBudget := 500 }

/-- The operations of the conditioner on its value domain (R7): total functions a finite-precision
implementation may replace. -/
structure Numerics where
  add : Rat → Rat → Rat
  sub : Rat → Rat → Rat
  mul : Rat → Rat → Rat
  div : Rat → Rat → Rat
  ofInt : Int → Rat

/-- The exact operations of the rationals, the default of R7. -/
def Numerics.exact : Numerics :=
  { add := fun a b => a + b
    sub := fun a b => a - b
    mul := fun a b => a * b
    div := fun a b => a / b
    ofInt := fun i => (i : Rat) }

/-- The numerics of this instance: the exact ones, "the default and the only one this spec gives vectors for" (R7). -/
def Config.numerics : Numerics := Numerics.exact

/-- `GAIN_RESET` = 128, held as its pulse offset (R5, R12). -/
def Config.gainReset : GainSel := .offset1

/-- `TC_RESET` = 1/4 (R5, R23). -/
def Config.tcReset : Rat := mkRat 1 4

/-- `SCALE_RESET` = 1 (R5, R22). -/
def Config.scaleReset : Rat := 1

/-- `OFFSET_RESET` = 0 (R5, R21). -/
def Config.offsetReset : Rat := 0

/-- `FILTERED_RESET` = 0 (R5, R20). -/
def Config.filteredReset : Rat := 0

/-- `TARE_DEFAULT_N` = 15, the operand the assembler supplies (R5, R71). -/
def Config.tareDefaultN : Nat := 15

end Sys2Proof
end

