-- ==== Sys2Proof/Syntax.lean ====
section
/-! DEFINITION. The instructions: one constructor per row of spec/opcode_table.json, the 13 host commands of
spec/30_encoding.md R65 with their assembled operands (R64) and the three clock patterns of R57. -/

namespace Sys2Proof

/-- One instruction. A format `U` operand is the unsigned integer `zext(A)`; a format `Q` operand is kept as the
numerator `sext(A)` and the denominator `zext(B)` as written, since `B` = 0 is a legal word that fails only when it
is executed (R64, R153). -/
inductive Instr where
  /-- `READ`, opcode `0x01`, format `N` (R121). -/
  | read
  /-- `READ_AVERAGE n`, opcode `0x02`, format `U` (R122). -/
  | readAverage (n : Nat)
  /-- `READ_LOWPASS`, opcode `0x03`, format `N` (R123). -/
  | readLowpass
  /-- `GET_VALUE`, opcode `0x04`, format `N` (R124). -/
  | getValue
  /-- `GET_UNITS`, opcode `0x05`, format `N` (R125). -/
  | getUnits
  /-- `TARE n`, opcode `0x06`, format `U` (R126). -/
  | tare (n : Nat)
  /-- `SET_GAIN g`, opcode `0x07`, format `U` (R113). -/
  | setGain (g : Nat)
  /-- `SET_SCALE num/den`, opcode `0x08`, format `Q` (R135). -/
  | setScale (num : Int) (den : Nat)
  /-- `SET_OFFSET num/den`, opcode `0x09`, format `Q` (R136). -/
  | setOffset (num : Int) (den : Nat)
  /-- `SET_TIME_CONSTANT num/den`, opcode `0x0A`, format `Q` (R137). -/
  | setTimeConstant (num : Int) (den : Nat)
  /-- `GET_TIME_CONSTANT`, opcode `0x0B`, format `N` (R138). -/
  | getTimeConstant
  /-- `POWER_DOWN`, opcode `0x0C`, format `N` (R139). -/
  | powerDown
  /-- `POWER_UP`, opcode `0x0D`, format `N` (R140). -/
  | powerUp
  /-- The clock pattern of `GAINSEL` = 1, 25 pulses; a transfer of XFER, not a host command (R57, R96). -/
  | txpat1
  /-- The clock pattern of `GAINSEL` = 2, 26 pulses; a transfer of XFER, not a host command (R57, R96). -/
  | txpat2
  /-- The clock pattern of `GAINSEL` = 3, 27 pulses; a transfer of XFER, not a host command (R57, R96). -/
  | txpat3
deriving DecidableEq, Repr

end Sys2Proof
end

