-- ==== Sys2Proof/WellFormed.lean ====
section
/-! DEFINITION. Which instruction terms a command word can hold (spec/30_encoding.md R64). -/

namespace Sys2Proof

/-- A format `U` operand is `zext(A)`: 0 to 2^32 - 1 (R64). -/
def wfUnsigned (n : Nat) : Bool := n < 2 ^ 32

/-- A format `Q` operand: numerator -2^31 to 2^31 - 1, denominator field 0 to 2^32 - 1 (R64). -/
def wfRational (num : Int) (den : Nat) : Bool :=
  -(2 ^ 31 : Int) ≤ num && num < (2 ^ 31 : Int) && den < 2 ^ 32

/-- The instruction's operands fit the fields of its word. -/
def Instr.wf : Instr → Bool
  | .read => true
  | .readAverage n => wfUnsigned n
  | .readLowpass => true
  | .getValue => true
  | .getUnits => true
  | .tare n => wfUnsigned n
  | .setGain g => wfUnsigned g
  | .setScale num den => wfRational num den
  | .setOffset num den => wfRational num den
  | .setTimeConstant num den => wfRational num den
  | .getTimeConstant => true
  | .powerDown => true
  | .powerUp => true
  | .txpat1 => true
  | .txpat2 => true
  | .txpat3 => true

end Sys2Proof
end

