-- ==== Sys2Proof/Decode.lean ====
section
/-! DEFINITION. The encodings: the fields of the command word (R63), operand assembly (R64), the opcode map (R65),
reserved opcodes (R66), the three clock patterns (R57), the decoder and the encoder. -/

namespace Sys2Proof

/-- An encoded instruction: a 72-bit command word of the host, or a 56-slot pattern of the transfer peripheral. -/
inductive Code where
  | command (w : CommandWord)
  | pattern (w : PatternWord)
deriving DecidableEq, Repr

/-- Why a code is no instruction. -/
inductive DecodeError where
  /-- `OP` is `0x00` or `0x0E` to `0xFF` (R66). -/
  | reservedOpcode (op : BitVec 8)
  /-- The 56-bit word is none of the three pre-baked patterns (R57). -/
  | notAPattern
deriving DecidableEq, Repr

/-! ### The command word -/

/-- `OP`, bits 71:64 (R63). -/
def opField (w : CommandWord) : BitVec 8 := w.extractLsb' 64 8

/-- `A`, bits 63:32 (R63). -/
def aField (w : CommandWord) : BitVec 32 := w.extractLsb' 32 32

/-- `B`, bits 31:0 (R63). -/
def bField (w : CommandWord) : BitVec 32 := w.extractLsb' 0 32

/-- The format `U` operand `zext(A)` (R64). -/
def unsignedOperand (w : CommandWord) : Nat := (aField w).toNat

/-- The numerator `sext(A)` of a format `Q` operand (R64). -/
def numeratorOperand (w : CommandWord) : Int := (aField w).toInt

/-- The denominator `zext(B)` of a format `Q` operand (R64). -/
def denominatorOperand (w : CommandWord) : Nat := (bField w).toNat

/-- The decoder of the command port (R65, R66). Fields a format does not use are ignored (R63). -/
def decodeCommand (w : CommandWord) : Except DecodeError Instr :=
  match (opField w).toNat with
  | 0x01 => .ok .read
  | 0x02 => .ok (.readAverage (unsignedOperand w))
  | 0x03 => .ok .readLowpass
  | 0x04 => .ok .getValue
  | 0x05 => .ok .getUnits
  | 0x06 => .ok (.tare (unsignedOperand w))
  | 0x07 => .ok (.setGain (unsignedOperand w))
  | 0x08 => .ok (.setScale (numeratorOperand w) (denominatorOperand w))
  | 0x09 => .ok (.setOffset (numeratorOperand w) (denominatorOperand w))
  | 0x0A => .ok (.setTimeConstant (numeratorOperand w) (denominatorOperand w))
  | 0x0B => .ok .getTimeConstant
  | 0x0C => .ok .powerDown
  | 0x0D => .ok .powerUp
  | _ => .error (.reservedOpcode (opField w))

/-! ### The clock patterns -/

/-- `TXPAT[1..3]`, byte 0 first (R57). -/
def txpat : GainSel → Vector Byte 7
  | .offset1 => #v[0xAA, 0xAA, 0xAA, 0xAA, 0xAA, 0xAA, 0x80]
  | .offset2 => #v[0xAA, 0xAA, 0xAA, 0xAA, 0xAA, 0xAA, 0xA0]
  | .offset3 => #v[0xAA, 0xAA, 0xAA, 0xAA, 0xAA, 0xAA, 0xA8]

/-- The seven bytes as one word, slot 0 (bit 7 of byte 0) most significant (R42). -/
def patternWord (tx : Vector Byte 7) : PatternWord :=
  tx[0] ++ tx[1] ++ tx[2] ++ tx[3] ++ tx[4] ++ tx[5] ++ tx[6]

/-- The seven bytes of a pattern word (R42). -/
def patternBytes (w : PatternWord) : Vector Byte 7 :=
  #v[w.extractLsb' 48 8, w.extractLsb' 40 8, w.extractLsb' 32 8, w.extractLsb' 24 8,
     w.extractLsb' 16 8, w.extractLsb' 8 8, w.extractLsb' 0 8]

/-- The pattern rows of the opcode table (R57). -/
def decodePattern (w : PatternWord) : Except DecodeError Instr :=
  if w = patternWord (txpat .offset1) then .ok .txpat1
  else if w = patternWord (txpat .offset2) then .ok .txpat2
  else if w = patternWord (txpat .offset3) then .ok .txpat3
  else .error .notAPattern

/-- The decoder: total, and every rejection has a name. -/
def decode : Code → Except DecodeError Instr
  | .command w => decodeCommand w
  | .pattern w => decodePattern w

/-! ### The encoder -/

/-- A command word from its three fields (R63). -/
def commandWord (op : BitVec 8) (a b : BitVec 32) : CommandWord := op ++ a ++ b

/-- A format `N` word: unused fields written as 0 (R70). -/
def encodeN (op : BitVec 8) : Code := .command (commandWord op 0 0)

/-- A format `U` word (R64). -/
def encodeU (op : BitVec 8) (n : Nat) : Code := .command (commandWord op (BitVec.ofNat 32 n) 0)

/-- A format `Q` word (R64). -/
def encodeQ (op : BitVec 8) (num : Int) (den : Nat) : Code :=
  .command (commandWord op (BitVec.ofInt 32 num) (BitVec.ofNat 32 den))

/-- The code of a well-formed instruction (R57, R63 to R65). -/
def encode : Instr → Code
  | .read => encodeN 0x01
  | .readAverage n => encodeU 0x02 n
  | .readLowpass => encodeN 0x03
  | .getValue => encodeN 0x04
  | .getUnits => encodeN 0x05
  | .tare n => encodeU 0x06 n
  | .setGain g => encodeU 0x07 g
  | .setScale num den => encodeQ 0x08 num den
  | .setOffset num den => encodeQ 0x09 num den
  | .setTimeConstant num den => encodeQ 0x0A num den
  | .getTimeConstant => encodeN 0x0B
  | .powerDown => encodeN 0x0C
  | .powerUp => encodeN 0x0D
  | .txpat1 => .pattern (patternWord (txpat .offset1))
  | .txpat2 => .pattern (patternWord (txpat .offset2))
  | .txpat3 => .pattern (patternWord (txpat .offset3))

/-! ### The opcode table's numbering -/

/-- The code the opcode table's row width and word number stand for: a 56-bit row is a clock pattern, every other row
a command word whose bits above `nbits` are 0. -/
def tableCode (nbits w : Nat) : Code :=
  if nbits = 56 then .pattern (BitVec.ofNat 56 w)
  else .command (BitVec.ofNat 72 (w % 2 ^ nbits))

/-- The instruction the decoder reads from a table row's word. -/
def decodeTableWord (nbits w : Nat) : Option Instr :=
  match decode (tableCode nbits w) with
  | .ok i => some i
  | .error _ => none

end Sys2Proof
end

