-- ==== Sys2Proof/Machine/State.lean ====
section
/-! DEFINITION. The state of the block as plain data (spec/10_state.md), the agents' positions, the inputs the
environment still has to give, the reasons a step can stop, and the state after reset (R175). -/

namespace Sys2Proof.Machine

/-! ### Enumerations the spec names -/

/-- `SEQ.PHASE` (R15). -/
inductive Phase where
  | off
  | waitReady
  | high
  | low
  | done
deriving DecidableEq, Repr

/-- `MON`, the state of the Timeout/Health Monitor (R18). -/
inductive Mon where
  | idle
  | armed
  | completed
  | timedOut
deriving DecidableEq, Repr

/-- `POWER` (R24). -/
inductive Power where
  | up
  | down
deriving DecidableEq, Repr

/-- The five failures (R150). -/
inductive Failure where
  | sensorTimeout
  | noResponse
  | invalidConfiguration
  | poweredDown
  | illegalCommand
deriving DecidableEq, Repr

/-! ### Positions of the agents -/

/-- What the running command does with the sample its current `ReadRaw` returns. -/
inductive Job where
  /-- `READ` (R121). -/
  | read
  /-- `READ_AVERAGE n` (R122). -/
  | average (n : Nat)
  /-- `READ_LOWPASS` (R123). -/
  | lowpass
  /-- `GET_VALUE` (R124). -/
  | value
  /-- `GET_UNITS` (R125). -/
  | units
  /-- `TARE n` (R126). -/
  | tare (n : Nat)
  /-- The first read of `SET_GAIN`, the discard read (R115). -/
  | discard
  /-- The second read of `SET_GAIN`, the seed read (R115). -/
  | seed
deriving DecidableEq, Repr

/-- Where the command engine stands: idle (it "holds no position between commands", R29), or inside a `ReadRaw`. -/
inductive Engine where
  | idle
  /-- `RunCycle` has been called and `Arm` is the next act (R81). -/
  | arm (j : Job)
  /-- In the Monitor loop of a `PULSEGEN` session (R91). -/
  | watch (j : Job)
  /-- In the ready-poll loop of a `SHIFTREG` session (R94). -/
  | poll (j : Job)
  /-- Waiting for the transfer it issued (R96). -/
  | transfer (j : Job)
deriving DecidableEq, Repr

/-- A transfer in progress: the seven bytes being sent and the slot index `s` of the next slot (R29, R96). -/
structure Xfer where
  tx : Vector Byte 7
  slot : Fin 56
deriving DecidableEq, Repr

/-! ### The environment -/

/-- One act at the block's boundary, or one step of one of its agents; the environment and the scheduler choose them
freely (R9, R48, R90, R163, R191). -/
inductive Event where
  /-- CONVERTER: `DOUT` takes this level. -/
  | dout (level : Bool)
  /-- TIMER: `NOW` advances by this many milliseconds, modulo 2^32. -/
  | time (ms : Nat)
  /-- HOST: a command word is presented on `CMD` with `CMD_VALID`. -/
  | present (w : CommandWord)
  /-- HOST: the level of `RST`. -/
  | rst (level : Bool)
  /-- ENGINE takes its next step. -/
  | engine
  /-- SEQ takes its enabled step. -/
  | seq
  /-- XFER runs the next slot. -/
  | xfer
deriving DecidableEq, Repr

/-- One access on the link (R40): `Drive(PD_SCK, b)`, or a `SampleDOUT()` that returned `b`. -/
inductive LinkAccess where
  | drive (level : Bool)
  | sample (level : Bool)
deriving DecidableEq, Repr

/-! ### The groups of state -/

/-- The ports (R10, R11, R19, R72, R175). -/
structure Pins where
  /-- `PD_SCK`, output (R10). -/
  pdSck : Bool
  /-- `DOUT`, input: its present level (R11). -/
  dout : Bool
  /-- `NOW`, input: its present value (R19). -/
  now : Timer
  /-- `RST`, input (R175). -/
  rst : Bool
  /-- `CMD`, input (R72). -/
  cmd : CommandWord
  /-- `CMD_VALID`, input (R72). -/
  cmdValid : Bool
deriving DecidableEq, Repr

/-- The sequencer registers `SEQ.*` (R15). -/
structure Seq where
  active : Bool
  nPulse : BitVec 5
  phase : Phase
  pIdx : BitVec 5
  done : Bool
deriving DecidableEq, Repr

/-- The transport registers (R12 to R16); `TXPAT` and `LUT` are constants. -/
structure TransportRegs where
  /-- `GAINSEL` (R12). -/
  gainSel : GainSel
  /-- `ACC` (R13). -/
  acc : Sample24
  /-- `RAW` (R14). -/
  raw : RawWord
  /-- `SEQ.*` (R15). -/
  seq : Seq
  /-- `RX[0..6]` (R16). -/
  rx : Vector Byte 7
  /-- `POLLS` (R16). -/
  polls : Nat
  /-- The transfer in progress, if any (R29, R96). -/
  xfer : Option Xfer
deriving DecidableEq, Repr

/-- The monitor and control registers (R17, R18, R19, R24). -/
structure ControlRegs where
  /-- `ARMED` (R17). -/
  armed : Bool
  /-- `MON` (R18). -/
  mon : Mon
  /-- `START` (R19). -/
  start : Timer
  /-- `POWER` (R24). -/
  power : Power
deriving DecidableEq, Repr

/-- The conditioner registers, exact rationals (R20 to R23). -/
structure ConditionerRegs where
  /-- `FILTERED` (R20). -/
  filtered : Rat
  /-- `OFFSET` (R21). -/
  offset : Rat
  /-- `SCALE` (R22). -/
  scale : Rat
  /-- `TC` (R23). -/
  tc : Rat
deriving DecidableEq, Repr

/-- The host interface and command working registers (R25 to R28). -/
structure HostRegs where
  /-- `BUSY` (R25). -/
  busy : Bool
  /-- `CMDREG` (R25). -/
  cmdReg : CommandWord
  /-- `STATUS` (R26). -/
  status : StatusWord
  /-- `RESULT`: a rational or none (R27). -/
  result : Option Rat
  /-- `SUM` (R28). -/
  sum : Int
  /-- `CNT` (R28). -/
  cnt : BitVec 32
deriving DecidableEq, Repr

/-- The state of one instance of the block (R32). -/
structure State where
  /-- The build parameters of this instance (R4, R5). -/
  params : Params
  pins : Pins
  xport : TransportRegs
  ctl : ControlRegs
  cond : ConditionerRegs
  port : HostRegs
  /-- Where the command engine stands (R29). -/
  eng : Engine
  /-- What the environment and the scheduler will do next, first event first: the model's own field. -/
  events : List Event
  /-- The link accesses made so far, newest first: the model's own record of what the converter saw (R192). -/
  link : List LinkAccess
deriving DecidableEq, Repr

/-! ### The reasons a step can stop -/

/-- There is none: "a failure status is an end of the command, not a fault of the machine" (R192). -/
inductive Fault where
deriving DecidableEq, Repr

/-- Why the machine has no meaning for an instruction. -/
inductive Refusal where
  /-- Raised by `exec` for an instruction without a meaning yet; safe. -/
  | notModelled (mnemonic : String)
  /-- Raised by the three pattern rows on a `PULSEGEN` instance, which contains no transfer peripheral (R4, R16);
  safe: no run of such an instance issues a transfer. -/
  | noTransferPeripheral
deriving DecidableEq, Repr

/-! ### Reset -/

/-- The transport's "no response" sentinel (R14, R61). -/
def sentinel : RawWord := 0x1FFFFFF

/-- The initial contents of the receive buffer: all bytes 0 (R16). -/
def emptyRx : Vector Byte 7 := #v[0, 0, 0, 0, 0, 0, 0]

/-- Every register at its reset value (R175) on an instance with the given parameters and input levels. -/
def State.resetWith (p : Params) (dout : Bool) (now : Timer) : State :=
  { params := p
    pins := { pdSck := false, dout := dout, now := now, rst := false, cmd := 0, cmdValid := false }
    xport :=
      { gainSel := Config.gainReset, acc := 0, raw := sentinel
        seq := { active := false, nPulse := 25, phase := .off, pIdx := 0, done := false }
        rx := emptyRx, polls := 0, xfer := none }
    ctl := { armed := false, mon := .idle, start := 0, power := .up }
    cond :=
      { filtered := Config.filteredReset, offset := Config.offsetReset
        scale := Config.scaleReset, tc := Config.tcReset }
    port := { busy := false, cmdReg := 0, status := 0x00, result := none, sum := 0, cnt := 0 }
    eng := .idle
    events := []
    link := [] }

/-- The machine right after reset. The variant is `SHIFTREG`; `DOUT` stands at the level that is not ready and `NOW`
at 0 (DESIGN CHOICE, notes/assumptions/1.md and 2.md: the spec leaves all three open). -/
def State.reset : State := State.resetWith (Params.standard .shiftreg) true 0

end Sys2Proof.Machine
end

