-- ==== Sys2Proof/Machine/Flags.lean ====
section
/-! DEFINITION. The status word, the result flag, and the tests the block makes (spec/30_encoding.md R67, R68;
spec/40_transport.md R91, R103). -/

namespace Sys2Proof.Machine

/-- `OK` (R67). -/
def statusOk : StatusWord := 0x00

/-- The `STATUS` code of a failure (R67, R150). -/
def Failure.code : Failure → StatusWord
  | .sensorTimeout => 0x11
  | .noResponse => 0x12
  | .invalidConfiguration => 0x23
  | .poweredDown => 0x24
  | .illegalCommand => 0x25

/-- `STATUS[7:4]`, the class (R67). -/
def statusClass (w : StatusWord) : BitVec 4 := w.extractLsb' 4 4

/-- `STATUS[3:0]`, the cause (R67). -/
def statusCause (w : StatusWord) : BitVec 4 := w.extractLsb' 0 4

/-- `RES_VALID`: 1 exactly when `RESULT` is not none (R27, R68). -/
def State.resValid (s : State) : Bool := s.port.result.isSome

/-- The code of `MON` (R18). -/
def Mon.code : Mon → BitVec 2
  | .idle => 0
  | .armed => 1
  | .completed => 2
  | .timedOut => 3

/-- The code of `POWER` (R24). -/
def Power.code : Power → BitVec 1
  | .up => 0
  | .down => 1

/-- The ready test on the present level of `DOUT` (R103). -/
def State.ready (s : State) : Bool := s.pins.dout == s.params.readyLevel

/-- `(Now() - START) mod 2^TIMER_BITS` (R19, R91). -/
def State.elapsed (s : State) : Nat := (s.pins.now - s.ctl.start).toNat

/-- The Monitor's deadline test, `>=` (R91). -/
def State.deadlineReached (s : State) : Bool := decide (s.params.deadlineMs ≤ s.elapsed)

end Sys2Proof.Machine
end

