-- ==== Sys2Proof/Machine/Operands.lean ====
section
/-! DEFINITION. The operand forms of the commands and the gain code (spec/30_encoding.md R56, R64;
spec/41_decode_gain.md R113). -/

namespace Sys2Proof.Machine

/-- The format `Q` operand `sext(A) / zext(B)`: no rational when `B` = 0, and not necessarily written in lowest
terms (R64). -/
def rationalOperand (num : Int) (den : Nat) : Option Rat :=
  if den = 0 then none else some (mkRat num den)

/-- The requested gain as the mapping it selects; any other value selects none (R113, R114). -/
def gainOperand (g : Nat) : Option GainSel :=
  if g = 128 then some .offset1
  else if g = 64 then some .offset3
  else if g = 32 then some .offset2
  else none

/-- The pulse offset `GAINSEL` holds, as its 2-bit code (R12, R56). -/
def gainCode : GainSel → BitVec 2
  | .offset1 => 1
  | .offset2 => 2
  | .offset3 => 3

/-- The gain a mapping stands for (R56). -/
def gainOf : GainSel → Nat
  | .offset1 => 128
  | .offset2 => 32
  | .offset3 => 64

/-- The number of gain-select pulses (R55, R56). -/
def extraPulses (g : GainSel) : Nat := (gainCode g).toNat

/-- The pulse count `24 + GAINSEL` of a frame, as `SEQ.NPULSE` holds it (R56, R82). -/
def pulseCount (g : GainSel) : BitVec 5 := 24 + (gainCode g).setWidth 5

end Sys2Proof.Machine
end

