-- ==== Sys2Proof/Machine/Ops.lean ====
section
/-! DEFINITION. The shared operations: link accesses (R9, R40), arming and ending a session (R81, R92, R93), the call of
`ReadRaw` (R120), acceptance and completion of a command (R72, R73), failure entry (R158) and the reset event (R175). -/

namespace Sys2Proof.Machine

/-! ### The link -/

/-- `Drive(PD_SCK, b)` (R9). -/
def drive (b : Bool) (s : State) : State :=
  { s with pins.pdSck := b, link := .drive b :: s.link }

/-- The record that a `SampleDOUT()` was made; the value it returns is `s.pins.dout`, and it changes nothing else
(R9, R47). -/
def sampled (s : State) : State :=
  { s with link := .sample s.pins.dout :: s.link }

/-! ### A session -/

/-- `Arm()`, one uninterrupted act: the flag before the deadline (R49, R81). In `SHIFTREG` it also initialises `RX`, which
carries nothing from one session to the next (R31; to what value: notes/assumptions/17.md). -/
def arm (s : State) : State :=
  let s1 := { s with
    xport.acc := 0, xport.raw := sentinel, ctl.armed := true, ctl.mon := .armed }
  match s.params.transport with
  | .pulsegen => { s1 with ctl.start := s.pins.now }
  | .shiftreg => { s1 with xport.rx := emptyRx, xport.polls := 0 }

/-- The start of the sequencer (R82). -/
def startSequencer (s : State) : State :=
  { s with
    xport.seq :=
      { nPulse := pulseCount s.xport.gainSel, pIdx := 0, done := false, phase := .waitReady, active := true } }

/-- The deactivation of the sequencer: no further step, and the line idle-low (R92). -/
def deactivate (s : State) : State :=
  drive false { s with xport.seq.active := false, xport.seq.phase := .off }

/-- The end of a session in either variant (R93). -/
def endSession (s : State) : State :=
  { s with ctl.armed := false, ctl.mon := .idle }

/-! ### A command -/

/-- Acceptance: the word is latched, `BUSY` rises, and the presentation is used up (R25, R72). -/
def accept (s : State) : State :=
  { s with pins.cmdValid := false, port.cmdReg := s.pins.cmd, port.busy := true }

/-- Completion with `STATUS = OK` and the given result (R73). -/
def complete (v : Option Rat) (s : State) : State :=
  { s with port.result := v, port.status := statusOk, port.busy := false, eng := .idle }

/-- Failure entry, the one operation behind every `raise c` (R158). Any session has ended before it. `SUM` and `CNT` are
dropped by never being read again: every command that uses them sets them first (R122, R126). The way back is the
acceptance of the next command: there is no return instruction (R160). -/
def raise (c : Failure) (s : State) : State :=
  { s with port.result := none, port.status := c.code, port.busy := false, eng := .idle }

/-- The call of `ReadRaw()`: refused while powered down, before any session (R120, R141); else `RunCycle` begins. -/
def readRaw (j : Job) (s : State) : State :=
  match s.ctl.power with
  | .down => raise .poweredDown s
  | .up => { s with eng := .arm j }

/-! ### Reset -/

/-- `RST` is asserted: every register takes its reset value and the clock line goes low; the inputs `DOUT`, `NOW` and
`CMD` are not affected, and a presentation not yet accepted is not taken (R175, R176). -/
def underReset (s : State) : State :=
  { State.resetWith s.params s.pins.dout s.pins.now with
    pins.rst := true
    pins.cmd := s.pins.cmd
    events := s.events
    link := if s.pins.pdSck then .drive false :: s.link else s.link }

end Sys2Proof.Machine
end

