-- ==== Sys2Proof/Machine/ConfigCommands.lean ====
section
/-! DEFINITION. The meanings of the configuration commands (spec/43_config_power.md R135 to R138, R142). -/

namespace Sys2Proof.Machine

/-- `SET_SCALE q`: no rational and zero are refused (R135). -/
def execSetScale (num : Int) (den : Nat) (s : State) : Host.Outcome State Fault Refusal :=
  .next (match rationalOperand num den with
    | none => raise .invalidConfiguration s
    | some q => if q = 0 then raise .invalidConfiguration s else complete none { s with cond.scale := q })

/-- `SET_OFFSET q`: every rational is legal (R136). -/
def execSetOffset (num : Int) (den : Nat) (s : State) : Host.Outcome State Fault Refusal :=
  .next (match rationalOperand num den with
    | none => raise .invalidConfiguration s
    | some q => complete none { s with cond.offset := q })

/-- `SET_TIME_CONSTANT q`: both ends of (0, 1) are excluded (R137). -/
def execSetTimeConstant (num : Int) (den : Nat) (s : State) : Host.Outcome State Fault Refusal :=
  .next (match rationalOperand num den with
    | none => raise .invalidConfiguration s
    | some q => if 0 < q ∧ q < 1 then complete none { s with cond.tc := q } else raise .invalidConfiguration s)

/-- `GET_TIME_CONSTANT` (R138). -/
def execGetTimeConstant (s : State) : Host.Outcome State Fault Refusal :=
  .next (complete (some s.cond.tc) s)

end Sys2Proof.Machine
end

