-- ==== Sys2Proof/Machine/Conditioner.lean ====
section
/-! DEFINITION. The Signal Conditioner: the arithmetic of the read commands (spec/42_read_ops.md), over the instance's
`Numerics` (R7), and what each command does with the sample a completed `ReadRaw` returns. -/

namespace Sys2Proof.Machine

/-- A RawSample as a rational, `ofInt(x)` (R7). -/
def widen (x : Int) : Rat := Config.numerics.ofInt x

/-- The filter step `F + TC * (v - F)` (R123, R128). -/
def filterStep (f tc v : Rat) : Rat :=
  Config.numerics.add f (Config.numerics.mul tc (Config.numerics.sub v f))

/-- The mean `ofInt(SUM) / ofInt(n)` (R122, R126). -/
def mean (sum : Int) (n : Nat) : Rat := Config.numerics.div (widen sum) (widen n)

/-- `FILTERED - OFFSET` (R124). -/
def tared (filtered offset : Rat) : Rat := Config.numerics.sub filtered offset

/-- `(FILTERED - OFFSET) / SCALE` (R125). -/
def scaled (filtered offset scale : Rat) : Rat := Config.numerics.div (tared filtered offset) scale

/-- The write of `FILTERED` by a filtered read of `x` (R123). -/
def filterSample (x : Int) (s : State) : State :=
  { s with cond.filtered := filterStep s.cond.filtered s.cond.tc (widen x) }

/-- `READ` after its read (R121). -/
def readDone (x : Int) (s : State) : State := complete (some (widen x)) s

/-- `READ_LOWPASS` after its read (R123). -/
def lowpassDone (x : Int) (s : State) : State :=
  let s1 := filterSample x s
  complete (some s1.cond.filtered) s1

/-- `GET_VALUE` after its read (R124). -/
def valueDone (x : Int) (s : State) : State :=
  let s1 := filterSample x s
  complete (some (tared s1.cond.filtered s1.cond.offset)) s1

/-- `GET_UNITS` after its read (R125). -/
def unitsDone (x : Int) (s : State) : State :=
  let s1 := filterSample x s
  complete (some (scaled s1.cond.filtered s1.cond.offset s1.cond.scale)) s1

/-- One more sample in the running sum (R122, R126). -/
def addSample (x : Int) (s : State) : State :=
  { s with port.sum := s.port.sum + x, port.cnt := s.port.cnt - 1 }

/-- The head of the loop of `READ_AVERAGE n`: another read while `CNT > 0`, else the mean (R122). -/
def averageLoop (n : Nat) (s : State) : State :=
  if s.port.cnt = 0 then complete (some (mean s.port.sum n)) s else readRaw (.average n) s

/-- The head of the loop of `TARE n`: another read while `CNT > 0`, else `OFFSET` takes the mean (R126). -/
def tareLoop (n : Nat) (s : State) : State :=
  if s.port.cnt = 0 then complete none { s with cond.offset := mean s.port.sum n } else readRaw (.tare n) s

/-- `SET_GAIN` after its discard read: the value is dropped and the seed read begins (R113, R115). -/
def discardDone (s : State) : State := readRaw .seed s

/-- `SET_GAIN` after its seed read (R113, R115). -/
def seedDone (x : Int) (s : State) : State := complete none { s with cond.filtered := widen x }

/-- What the running command does with the sample `x` of a successful `ReadRaw`. -/
def useSample (j : Job) (x : Int) (s : State) : State :=
  match j with
  | .read => readDone x s
  | .average n => averageLoop n (addSample x s)
  | .lowpass => lowpassDone x s
  | .value => valueDone x s
  | .units => unitsDone x s
  | .tare n => tareLoop n (addSample x s)
  | .discard => discardDone s
  | .seed => seedDone x s

end Sys2Proof.Machine
end

