-- ==== Sys2Proof/Machine/Decoder.lean ====
section
/-! DEFINITION. The Sample Decoder (spec/41_decode_gain.md R110 to R112) and the inverse of its data part
(spec/30_encoding.md R62). -/

namespace Sys2Proof.Machine

/-- `RAW[23:0]`, the field `DATA` (R61). -/
def rawData (raw : RawWord) : Sample24 := raw.extractLsb' 0 24

/-- `RAW[24]`, the control bit `NR` (R61). -/
def rawNr (raw : RawWord) : Bool := raw.getLsbD 24

/-- The word `{0, DATA}` of a completed transport (R88, R97). -/
def rawOf (acc : Sample24) : RawWord := acc.setWidth 25

/-- A 24-bit pattern as a RawSample: `u` below 2^23, `u - 2^24` from there on (R110). -/
def sampleOf (data : Sample24) : Int :=
  if data.toNat < 2 ^ 23 then data.toNat else (data.toNat : Int) - 2 ^ 24

/-- `Decode(RAW)` (R110, R111): the control bit alone decides `NoResponse`. -/
def decodeSample (raw : RawWord) : Except Failure Int :=
  if rawNr raw then .error .noResponse else .ok (sampleOf (rawData raw))

/-- `Encode(x) = x mod 2^24` (R62). -/
def encodeSample (x : Int) : Sample24 := BitVec.ofInt 24 x

end Sys2Proof.Machine
end

