-- ==== Sys2Proof/Machine/Transport.lean ====
section
/-! DEFINITION. The two transport agents: the steps of the sequencer SEQ (spec/40_transport.md R83 to R88), the slots of
the transfer peripheral XFER (R96), and the decoding of the receive buffer (R97; spec/30_encoding.md R58 to R60). -/

namespace Sys2Proof.Machine

/-! ### SEQ -/

/-- One bit shifted into an accumulator, most significant first (R85). The block uses it at width 24. -/
def shiftIn {w : Nat} (acc : BitVec w) (d : Bool) : BitVec w :=
  (acc <<< 1) ||| (BitVec.ofBool d).setWidth w

/-- `WaitReady`: the first rising transition when `DOUT` is ready, else no change (R83). -/
def seqWaitReady (s : State) : State :=
  if s.ready then
    drive true { sampled s with xport.seq.pIdx := 1, xport.seq.phase := .high }
  else sampled s

/-- `High`: the sample of a data pulse, then the falling transition (R84, R85, R87). -/
def seqHigh (s : State) : State :=
  let s1 :=
    if s.xport.seq.pIdx.toNat ≤ 24 then
      { sampled s with xport.acc := shiftIn s.xport.acc s.pins.dout }
    else s
  drive false { s1 with xport.seq.phase := .low }

/-- `Low`: the next rising transition while pulses are left (R86), else the end of the pulse train (R88). `SEQ.PIDX`
above `SEQ.NPULSE` enables neither rule. -/
def seqLow (s : State) : State :=
  if s.xport.seq.pIdx.toNat < s.xport.seq.nPulse.toNat then
    drive true { s with xport.seq.pIdx := s.xport.seq.pIdx + 1, xport.seq.phase := .high }
  else if s.xport.seq.pIdx = s.xport.seq.nPulse then
    { s with xport.raw := rawOf s.xport.acc, xport.seq.done := true, xport.seq.phase := .done }
  else s

/-- One step of SEQ: only while `SEQ.ACTIVE` = 1, and none in `Off` and `Done` (R82, R88). -/
def seqStep (s : State) : State :=
  if s.xport.seq.active then
    match s.xport.seq.phase with
    | .waitReady => seqWaitReady s
    | .high => seqHigh s
    | .low => seqLow s
    | .off => s
    | .done => s
  else s

/-! ### XFER -/

/-- The byte that holds slot `s`: `s div 8` (R42, R43). -/
def slotByte (k : Fin 56) : Fin 7 := ⟨k.val / 8, by omega⟩

/-- The bit that holds slot `s`: `7 - (s mod 8)` (R42, R43). -/
def slotBit (k : Fin 56) : Nat := 7 - k.val % 8

/-- The level a pattern drives in a slot (R42, R96). -/
def slotLevel (tx : Vector Byte 7) (k : Fin 56) : Bool := tx[slotByte k].getLsbD (slotBit k)

/-- A byte with one bit replaced. -/
def setBit (b : Byte) (k : Nat) (d : Bool) : Byte :=
  if d then b ||| (1#8 <<< k) else b &&& ~~~(1#8 <<< k)

/-- The receive buffer with the sample of one slot stored (R43, R96). -/
def storeSlot (rx : Vector Byte 7) (k : Fin 56) (d : Bool) : Vector Byte 7 :=
  rx.set (slotByte k) (setBit rx[slotByte k] (slotBit k) d)

/-- The slot after a slot; none after slot 55. -/
def nextSlot (k : Fin 56) : Option (Fin 56) :=
  if h : k.val + 1 < 56 then some ⟨k.val + 1, h⟩ else none

/-- One slot: drive, then sample once; after the last slot the line rests low and the transfer is over (R96). -/
def xferSlot (x : Xfer) (s : State) : State :=
  let s1 := sampled (drive (slotLevel x.tx x.slot) s)
  let s2 := { s1 with xport.rx := storeSlot s.xport.rx x.slot s.pins.dout }
  match nextSlot x.slot with
  | some k => { s2 with xport.xfer := some { tx := x.tx, slot := k } }
  | none => drive false { s2 with xport.xfer := none }

/-- One step of XFER: none unless a transfer has been issued (R96). -/
def xferStep (s : State) : State :=
  match s.xport.xfer with
  | some x => xferSlot x s
  | none => s

/-- The issue of a transfer of the given seven bytes, starting at byte 0 (R44, R96). -/
def issueTransfer (tx : Vector Byte 7) (s : State) : State :=
  { s with xport.xfer := some { tx := tx, slot := 0 } }

/-! ### The receive buffer -/

/-- The mask of the data bits (R58). -/
def rxMask : Byte := 0x55

/-- The four mask-extracted bits of a byte, the index of its `LUT` entry (R59). -/
def lutIndex (m : Byte) : BitVec 4 :=
  BitVec.ofBool (m.getLsbD 6) ++ BitVec.ofBool (m.getLsbD 4) ++ BitVec.ofBool (m.getLsbD 2) ++
    BitVec.ofBool (m.getLsbD 0)

/-- `LUT[0..15]` (R16, R59). -/
def lut : Vector (BitVec 4) 16 :=
  #v[0x0, 0x1, 0x2, 0x3, 0x4, 0x5, 0x6, 0x7, 0x8, 0x9, 0xA, 0xB, 0xC, 0xD, 0xE, 0xF]

/-- The masked byte that belongs to an entry of `LUT` (R59). -/
def spread (k : BitVec 4) : Byte :=
  0#1 ++ BitVec.ofBool (k.getLsbD 3) ++ 0#1 ++ BitVec.ofBool (k.getLsbD 2) ++ 0#1 ++ BitVec.ofBool (k.getLsbD 1) ++
    0#1 ++ BitVec.ofBool (k.getLsbD 0)

/-- `Pack(m)`, the nibble of a masked byte, read from `LUT` (R59). -/
def pack (m : Byte) : BitVec 4 := lut[(lutIndex m).toFin]

/-- The nibble of one received byte (R58, R59). -/
def rxNibble (b : Byte) : BitVec 4 := pack (b &&& rxMask)

/-- One nibble shifted into the accumulator (R97). -/
def shiftNibble (acc : Sample24) (n : BitVec 4) : Sample24 := (acc <<< 4) ||| n.setWidth 24

/-- `ACC` after the decoding of the receive buffer: bytes 0 to 5, `RX[6]` is not read (R60, R97). -/
def decodeRx (rx : Vector Byte 7) : Sample24 :=
  [rx[0], rx[1], rx[2], rx[3], rx[4], rx[5]].foldl (fun acc b => shiftNibble acc (rxNibble b)) 0

end Sys2Proof.Machine
end

