-- ==== Sys2Proof/Machine/Engine.lean ====
section
/-! DEFINITION. The command engine inside a command: arming, the Monitor loop, the ready poll, the wait for the transfer
(spec/40_transport.md R81, R82, R91 to R98), the effect of one event of the environment or of one agent's step, and the
running of a command along the events (R48). -/

namespace Sys2Proof.Machine

/-! ### ENGINE -/

/-- The end of `ReadRaw` after a `Completed` session: decode, then use the sample or fail (R120). -/
def sessionCompleted (j : Job) (s : State) : State :=
  match decodeSample s.xport.raw with
  | .ok x => useSample j x s
  | .error c => raise c s

/-- Arming, then the start of the sequencer or of the poll loop (R81, R82, R94). -/
def engineArm (j : Job) (s : State) : State :=
  match s.params.transport with
  | .pulsegen => { startSequencer (arm s) with eng := .watch j }
  | .shiftreg => { arm s with eng := .poll j }

/-- One poll of the Monitor: completion first, then the deadline; a poll that sees neither changes nothing (R91). Leaving
the loop, the engine deactivates the transport and ends the session (R92, R93). -/
def monitorPoll (j : Job) (s : State) : State :=
  if s.xport.seq.done then
    sessionCompleted j (endSession (deactivate { s with ctl.mon := .completed }))
  else if s.deadlineReached then
    raise .sensorTimeout (endSession (deactivate { s with ctl.mon := .timedOut }))
  else s

/-- One iteration of the ready-poll loop (R94): a poll while the budget lasts, the transfer as soon as one finds ready
(R96), `Timeout` without a transfer when the budget is used up (R95). -/
def readyPoll (j : Job) (s : State) : State :=
  if s.xport.polls < s.params.pollBudget then
    let s1 := { sampled s with xport.polls := s.xport.polls + 1 }
    if s.ready then { issueTransfer (txpat s.xport.gainSel) s1 with eng := .transfer j } else s1
  else raise .sensorTimeout (endSession { s with ctl.mon := .timedOut })

/-- After the transfer: the receive buffer is decoded, the session completes and ends (R93, R97, R98). Until XFER has run
every slot the engine waits. -/
def transferWait (j : Job) (s : State) : State :=
  match s.xport.xfer with
  | some _ => s
  | none =>
    let acc := decodeRx s.xport.rx
    sessionCompleted j
      (endSession { s with xport.acc := acc, xport.raw := rawOf acc, ctl.mon := .completed })

/-- One step of ENGINE. -/
def engineStep (s : State) : State :=
  match s.eng with
  | .idle => s
  | .arm j => engineArm j s
  | .watch j => monitorPoll j s
  | .poll j => readyPoll j s
  | .transfer j => transferWait j s

/-! ### One event -/

/-- A command word is presented. It is not taken while `BUSY` = 1 or while `RST` is asserted, and nothing is
latched then (R72, R175). -/
def present (w : CommandWord) (s : State) : State :=
  if s.port.busy || s.pins.rst then s else { s with pins.cmd := w, pins.cmdValid := true }

/-- The effect of one event. While `RST` is asserted no agent of the block steps (R175); SEQ exists in `PULSEGEN` only and
XFER in `SHIFTREG` only (R4, R15, R16). -/
def tick (e : Event) (s : State) : State :=
  match e with
  | .dout b => { s with pins.dout := b }
  | .time ms => { s with pins.now := s.pins.now + BitVec.ofNat 32 ms }
  | .present w => present w s
  | .rst true => underReset s
  | .rst false => { s with pins.rst := false }
  | .engine => if s.pins.rst then s else engineStep s
  | .seq =>
    match s.pins.rst, s.params.transport with
    | false, .pulsegen => seqStep s
    | _, _ => s
  | .xfer =>
    match s.pins.rst, s.params.transport with
    | false, .shiftreg => xferStep s
    | _, _ => s

/-- The first event of the state, if there is one. -/
def nextEvent (s : State) : State :=
  match s.events with
  | [] => s
  | e :: es => { tick e s with events := es }

/-! ### Runs along the events -/

/-- The events taken one after another for as long as `p` holds; the events not taken stay in the state. No event reads
or writes the field `events`, so it is brought up to date once, at the end. -/
def runWhile (p : State → Bool) : List Event → State → State
  | [], s => { s with events := [] }
  | e :: es, s => if p s then runWhile p es (tick e s) else { s with events := e :: es }

/-- A command is running. -/
def State.running (s : State) : Bool := s.eng != .idle

/-- A transfer is in progress. -/
def State.transferring (s : State) : Bool := s.xport.xfer.isSome

/-- The running command, along the state's events, to its completion or to the last event. -/
def runCommand (s : State) : State := runWhile State.running s.events s

/-- The issued transfer, along the state's events, to its last slot or to the last event. -/
def runTransfer (s : State) : State := runWhile State.transferring s.events s

end Sys2Proof.Machine
end

