-- ==== Sys2Proof/Machine/GainCommand.lean ====
section
/-! DEFINITION. The meaning of `SET_GAIN` (spec/41_decode_gain.md R113 to R116). -/

namespace Sys2Proof.Machine

/-- The mapping update of `SET_GAIN`: a value other than 128, 64, 32 leaves `GAINSEL` unchanged (R113, R114). -/
def selectGain (g : Nat) (s : State) : State :=
  match gainOperand g with
  | some m => { s with xport.gainSel := m }
  | none => s

/-- `SET_GAIN g`: the mapping, then the discard read and the seed read (R113, R115). -/
def execSetGain (g : Nat) (s : State) : Host.Outcome State Fault Refusal :=
  .next (runCommand (readRaw .discard (selectGain g s)))

end Sys2Proof.Machine
end

