-- ==== Sys2Proof/Machine/PatternRows.lean ====
section
/-! DEFINITION. The meanings of the three clock-pattern rows of the opcode table: the transfer of the pattern by the
transfer peripheral (spec/30_encoding.md R57; spec/40_transport.md R96). -/

namespace Sys2Proof.Machine

/-- `transfer(tx)`: 56 slots on an instance that contains the peripheral (R4, R16, R96). -/
def transferPattern (tx : Vector Byte 7) (s : State) : Host.Outcome State Fault Refusal :=
  match s.params.transport with
  | .shiftreg => .next (runTransfer (issueTransfer tx s))
  | .pulsegen => .refused .noTransferPeripheral

/-- `TXPAT1`, 25 pulses (R57). -/
def execTxpat1 (s : State) : Host.Outcome State Fault Refusal := transferPattern (txpat .offset1) s

/-- `TXPAT2`, 26 pulses (R57). -/
def execTxpat2 (s : State) : Host.Outcome State Fault Refusal := transferPattern (txpat .offset2) s

/-- `TXPAT3`, 27 pulses (R57). -/
def execTxpat3 (s : State) : Host.Outcome State Fault Refusal := transferPattern (txpat .offset3) s

end Sys2Proof.Machine
end

