-- ==== Sys2Proof/Machine/PowerCommands.lean ====
section
/-! DEFINITION. The meanings of the power commands (spec/43_config_power.md R139, R140). The wait of `T_PD_HOLD` lets time
pass and has no other effect (R9). -/

namespace Sys2Proof.Machine

/-- `POWER_DOWN` (R139). -/
def execPowerDown (s : State) : Host.Outcome State Fault Refusal :=
  .next (complete none { drive true s with ctl.power := .down })

/-- `POWER_UP` (R140). -/
def execPowerUp (s : State) : Host.Outcome State Fault Refusal :=
  .next (complete none { drive false s with ctl.power := .up })

end Sys2Proof.Machine
end

