-- ==== Sys2Proof/Machine/ReadCommands.lean ====
section
/-! DEFINITION. The meanings of the read commands (spec/42_read_ops.md R121 to R126). What each does after a read is in
Conditioner.lean. -/

namespace Sys2Proof.Machine

/-- `READ` (R121). -/
def execRead (s : State) : Host.Outcome State Fault Refusal :=
  .next (runCommand (readRaw .read s))

/-- `READ_AVERAGE n` (R122): `n` = 0 is refused before any session. -/
def execReadAverage (n : Nat) (s : State) : Host.Outcome State Fault Refusal :=
  .next (if n = 0 then raise .invalidConfiguration s
    else runCommand (averageLoop n { s with port.sum := 0, port.cnt := BitVec.ofNat 32 n }))

/-- `READ_LOWPASS` (R123). -/
def execReadLowpass (s : State) : Host.Outcome State Fault Refusal :=
  .next (runCommand (readRaw .lowpass s))

/-- `GET_VALUE` (R124). -/
def execGetValue (s : State) : Host.Outcome State Fault Refusal :=
  .next (runCommand (readRaw .value s))

/-- `GET_UNITS` (R125): the scale is tested before the session. -/
def execGetUnits (s : State) : Host.Outcome State Fault Refusal :=
  .next (if s.cond.scale = 0 then raise .invalidConfiguration s else runCommand (readRaw .units s))

/-- `TARE n` (R126). -/
def execTare (n : Nat) (s : State) : Host.Outcome State Fault Refusal :=
  .next (if n = 0 then raise .invalidConfiguration s
    else runCommand (tareLoop n { s with port.sum := 0, port.cnt := BitVec.ofNat 32 n }))

end Sys2Proof.Machine
end

