-- ==== Sys2Proof/Machine/Dispatch.lean ====
section
/-! DEFINITION. One arm per instruction. -/

namespace Sys2Proof.Machine

def exec (i : Instr) (s : State) : Host.Outcome State Fault Refusal :=
  match i with
  | .read => Sys2Proof.Machine.execRead s
  | .readAverage n => Sys2Proof.Machine.execReadAverage n s
  | .readLowpass => Sys2Proof.Machine.execReadLowpass s
  | .getValue => Sys2Proof.Machine.execGetValue s
  | .getUnits => Sys2Proof.Machine.execGetUnits s
  | .tare n => Sys2Proof.Machine.execTare n s
  | .setGain g => Sys2Proof.Machine.execSetGain g s
  | .setScale num den => Sys2Proof.Machine.execSetScale num den s
  | .setOffset num den => Sys2Proof.Machine.execSetOffset num den s
  | .setTimeConstant num den => Sys2Proof.Machine.execSetTimeConstant num den s
  | .getTimeConstant => Sys2Proof.Machine.execGetTimeConstant s
  | .powerDown => Sys2Proof.Machine.execPowerDown s
  | .powerUp => Sys2Proof.Machine.execPowerUp s
  | .txpat1 => Sys2Proof.Machine.execTxpat1 s
  | .txpat2 => Sys2Proof.Machine.execTxpat2 s
  | .txpat3 => Sys2Proof.Machine.execTxpat3 s

end Sys2Proof.Machine
end

