-- ==== Sys2Proof/Machine/Step.lean ====
section
/-! DEFINITION. One step of the machine. The block has no program counter (R29): its instructions come from the command
port (R72) and, inside a `SHIFTREG` session, from the transfer the engine has issued (R96). -/

namespace Sys2Proof.Machine

/-- What the machine takes up next: an issued transfer none of whose slots has run, or else, while `BUSY` = 0, a presented
command word (R72, R96). -/
def fetch (s : State) : Option Code :=
  match s.xport.xfer with
  | some x => if x.slot = 0 then some (.pattern (patternWord x.tx)) else none
  | none => if !s.port.busy && s.pins.cmdValid then some (.command s.pins.cmd) else none

/-- What taking up a code does before its instruction runs: a command word is accepted (R72). -/
def take (c : Code) (s : State) : State :=
  match c with
  | .command _ => accept s
  | .pattern _ => s

/-- A code that is no instruction: a reserved opcode completes with `IllegalCommand` (R66, R155); an issued transfer of
other bytes goes on slot by slot. -/
def reject (c : Code) (s : State) : State :=
  match c with
  | .command _ => raise .illegalCommand (accept s)
  | .pattern _ => nextEvent s

/-- One step: under `RST` the registers hold their reset values (R175); an instruction taken up runs along the events of
the environment; otherwise the next event happens, and with no event left nothing does. -/
def step (s : State) : Host.Outcome State Fault Refusal :=
  if s.pins.rst then .next (nextEvent (underReset s))
  else
    match fetch s with
    | some c =>
      match decode c with
      | .ok i => exec i (take c s)
      | .error _ => .next (reject c s)
    | none => .next (nextEvent s)

/-- The state with the opcode table's word placed where `step` takes its next instruction from: a clock pattern as the
issued transfer of a `SHIFTREG` instance, any other word as the command presented to an idle block. -/
def State.withFetchWord (s : State) (nbits w : Nat) : State :=
  match tableCode nbits w with
  | .pattern p =>
    { s with
      pins.rst := false
      params.transport := .shiftreg
      xport.xfer := some { tx := patternBytes p, slot := 0 } }
  | .command c =>
    { s with
      pins.rst := false, pins.cmd := c, pins.cmdValid := true
      port.busy := false
      xport.xfer := none }

end Sys2Proof.Machine
end

