-- ==== Sys2Proof/Machine/Assembler.lean ====
section
/-! DEFINITION. The assembler's side of the command set: the text of one line as a command (spec/30_encoding.md R70), the
pseudo-instructions (R71), and what the host does with an assembled line. No step of the machine reads this file. -/

namespace Sys2Proof.Machine

/-- What one line assembles to. -/
inductive AsmItem where
  /-- A command. -/
  | command (i : Instr)
  /-- `INIT g`: a reset of the block, then `SET_GAIN g` (R71). -/
  | init (g : Nat)
deriving DecidableEq, Repr

/-! ### Text -/

/-- The text before a comment (R70). -/
def stripComment (cs : List Char) : List Char := cs.takeWhile (· != ';')

/-- The words of a text separated by spaces and tabs, with a word begun already held reversed. -/
def wordsFrom : List Char → List Char → List (List Char)
  | cur, [] => if cur.isEmpty then [] else [cur.reverse]
  | cur, c :: cs =>
    if c == ' ' || c == '\t' then
      if cur.isEmpty then wordsFrom [] cs else cur.reverse :: wordsFrom [] cs
    else wordsFrom (c :: cur) cs

/-- The value of a digit in the given base. -/
def digitValue (base : Nat) (c : Char) : Option Nat :=
  let v :=
    if '0' ≤ c ∧ c ≤ '9' then some (c.toNat - '0'.toNat)
    else if 'a' ≤ c ∧ c ≤ 'f' then some (c.toNat - 'a'.toNat + 10)
    else if 'A' ≤ c ∧ c ≤ 'F' then some (c.toNat - 'A'.toNat + 10)
    else none
  v.filter (· < base)

/-- The value of a non-empty string of digits. -/
def digitsValue (base : Nat) : List Char → Option Nat
  | [] => none
  | cs => cs.foldl (fun acc c => acc.bind fun a => (digitValue base c).map (a * base + ·)) (some 0)

/-- A format `U` operand: decimal, or hexadecimal after `0x` (R70). -/
def unsignedText : List Char → Option Nat
  | '0' :: 'x' :: cs => digitsValue 16 cs
  | cs => digitsValue 10 cs

/-- A sign and the text after it. -/
def signOf : List Char → Int × List Char
  | '-' :: cs => (-1, cs)
  | cs => (1, cs)

/-- A format `Q` operand as numerator and denominator fields: `p/q` and `p` as they are written, a decimal fraction as
its exact rational in lowest terms (R70). That a decimal fraction may lack the digits on one side of its point, but not on
both, is a DESIGN CHOICE (notes/assumptions/15.md). -/
def rationalText (cs : List Char) : Option (Int × Nat) :=
  let (sign, body) := signOf cs
  match body.span (· != '/') with
  | (p, _ :: q) => do
    let n ← digitsValue 10 p
    let d ← digitsValue 10 q
    pure (sign * n, d)
  | (_, []) =>
    match body.span (· != '.') with
    | (p, _ :: frac) => do
      let n ← digitsValue 10 (p ++ frac)
      let r := mkRat (sign * n) (10 ^ frac.length)
      pure (r.num, r.den)
    | (p, []) => do
      let n ← digitsValue 10 p
      pure (sign * n, 1)

/-! ### Lines -/

/-- The source's function names, accepted beside the mnemonics (R70). -/
def mnemonicOf (w : List Char) : List Char :=
  if w ∈ ["read".toList, "read_average".toList, "read_lowpass".toList, "get_value".toList, "get_units".toList,
      "tare".toList, "set_gain".toList, "power_down".toList, "power_up".toList]
  then w.map Char.toUpper else w

/-- A command without operand text (R65), and the two mnemonics that may lack theirs (R71). -/
def assembleBare (m : List Char) : Option AsmItem :=
  if m = "READ".toList then some (.command .read)
  else if m = "READ_LOWPASS".toList then some (.command .readLowpass)
  else if m = "GET_VALUE".toList then some (.command .getValue)
  else if m = "GET_UNITS".toList then some (.command .getUnits)
  else if m = "GET_TIME_CONSTANT".toList then some (.command .getTimeConstant)
  else if m = "POWER_DOWN".toList then some (.command .powerDown)
  else if m = "POWER_UP".toList then some (.command .powerUp)
  else if m = "TARE".toList then some (.command (.tare Config.tareDefaultN))
  else if m = "SET_TIME_CONSTANT".toList then some (.command .getTimeConstant)
  else none

/-- A command with operand text (R65, R70, R71). -/
def assembleOperand (m x : List Char) : Option AsmItem :=
  if m = "READ_AVERAGE".toList then (unsignedText x).map fun n => .command (.readAverage n)
  else if m = "TARE".toList then (unsignedText x).map fun n => .command (.tare n)
  else if m = "SET_GAIN".toList then (unsignedText x).map fun g => .command (.setGain g)
  else if m = "INIT".toList then (unsignedText x).map .init
  else if m = "SET_SCALE".toList then (rationalText x).map fun q => .command (.setScale q.1 q.2)
  else if m = "SET_OFFSET".toList then (rationalText x).map fun q => .command (.setOffset q.1 q.2)
  else if m = "SET_TIME_CONSTANT".toList then
    (rationalText x).map fun q => .command (.setTimeConstant q.1 q.2)
  else none

/-- The instruction an item issues. -/
def AsmItem.instr : AsmItem → Instr
  | .command i => i
  | .init g => .setGain g

/-- One line: nothing, one item, or an error (the outer `none`). An operand its field cannot hold is an error. -/
def assembleLine (line : List Char) : Option (Option AsmItem) :=
  let item :=
    match wordsFrom [] (stripComment line) with
    | [] => some none
    | [m] => (assembleBare (mnemonicOf m)).map some
    | [m, x] => (assembleOperand (mnemonicOf m) x).map some
    | _ => none
  item.filter fun i => i.all fun a => a.instr.wf

/-- The command word of an item (R63 to R65). -/
def AsmItem.word (a : AsmItem) : Option CommandWord :=
  match encode a.instr with
  | .command w => some w
  | .pattern _ => none

/-- What the host does with an item: `INIT` begins with a pulse on `RST` (R71, R175). -/
def AsmItem.events (a : AsmItem) : List Event :=
  let present := (a.word.map Event.present).toList
  match a with
  | .command _ => present
  | .init _ => .rst true :: .rst false :: present

end Sys2Proof.Machine
end

