-- ==== Sys2Proof/Safety.lean ====
section
/-! DEFINITION. The terms the claims use: the invariant of a sound block, the observations a claim makes on the record of
link accesses, and the scripts of events that make up one session. -/

namespace Sys2Proof.Machine

/-! ### The invariant -/

/-- A session is in flight: armed and not yet ended (R81, R93). -/
def Engine.inSession : Engine → Bool
  | .idle => false
  | .arm _ => false
  | .watch _ => true
  | .poll _ => true
  | .transfer _ => true

/-- What the running command is reading for, if it is inside a `ReadRaw`. -/
def Engine.job : Engine → Option Job
  | .idle => none
  | .arm j => some j
  | .watch j => some j
  | .poll j => some j
  | .transfer j => some j

/-- The working registers of a multi-read command: reads are left to make, and the samples summed so far bound `SUM`
(R122, R130). -/
def SumSound (n : Nat) (s : State) : Prop :=
  s.port.cnt ≠ 0 ∧ s.port.cnt.toNat ≤ n ∧
    s.port.sum.natAbs ≤ (n - s.port.cnt.toNat) * 2 ^ 23

/-- What holds of the command state while its current read is under way. -/
def JobSound (j : Job) (s : State) : Prop :=
  match j with
  | .average n => SumSound n s
  | .tare n => SumSound n s
  | .read => True
  | .lowpass => True
  | .value => True
  | .units => True
  | .discard => True
  | .seed => True

/-- The sequencer of an armed `PULSEGEN` session stands where R83 to R88 can bring it: the clock is high exactly inside a
pulse, `RAW` holds the sentinel until the pulse train has finished and `{0, ACC}` from then on. -/
def SequencerSound (s : State) : Prop :=
  s.xport.seq.nPulse = pulseCount s.xport.gainSel ∧
  match s.xport.seq.phase with
  | .off => False
  | .waitReady =>
    s.xport.seq.pIdx = 0 ∧ s.xport.seq.done = false ∧ s.pins.pdSck = false ∧ s.xport.raw = sentinel
  | .high =>
    1 ≤ s.xport.seq.pIdx.toNat ∧ s.xport.seq.pIdx.toNat ≤ s.xport.seq.nPulse.toNat ∧
      s.xport.seq.done = false ∧ s.pins.pdSck = true ∧ s.xport.raw = sentinel
  | .low =>
    1 ≤ s.xport.seq.pIdx.toNat ∧ s.xport.seq.pIdx.toNat ≤ s.xport.seq.nPulse.toNat ∧
      s.xport.seq.done = false ∧ s.pins.pdSck = false ∧ s.xport.raw = sentinel
  | .done =>
    s.xport.seq.pIdx = s.xport.seq.nPulse ∧ s.xport.seq.done = true ∧ s.pins.pdSck = false ∧
      s.xport.raw = rawOf s.xport.acc

/-- The sequencer is off (R92). -/
def SequencerOff (s : State) : Prop := s.xport.seq.active = false ∧ s.xport.seq.phase = .off

/-- What the transport holds at each position of the engine (R80, R81, R92 to R96). -/
def TransportSound (s : State) : Prop :=
  match s.eng with
  | .idle =>
    SequencerOff s ∧ s.xport.xfer = none ∧ s.pins.pdSck = decide (s.ctl.power = .down)
  | .arm _ =>
    SequencerOff s ∧ s.xport.xfer = none ∧ s.pins.pdSck = false
  | .watch _ =>
    s.params.transport = .pulsegen ∧ s.xport.seq.active = true ∧ s.xport.xfer = none ∧ SequencerSound s
  | .poll _ =>
    s.params.transport = .shiftreg ∧ SequencerOff s ∧ s.xport.xfer = none ∧ s.pins.pdSck = false ∧
      s.xport.polls ≤ s.params.pollBudget ∧ s.xport.raw = sentinel
  | .transfer _ =>
    s.params.transport = .shiftreg ∧ SequencerOff s ∧ s.xport.raw = sentinel ∧
      match s.xport.xfer with
      | some x => x.tx = txpat s.xport.gainSel
      | none => s.pins.pdSck = false

/-- A sound block, whatever `BUSY` says. -/
structure Sound (s : State) : Prop where
  /-- `SCALE` is never 0 (R22). -/
  scale_ne_zero : s.cond.scale ≠ 0
  /-- `TC` lies in (0, 1) (R23). -/
  tc_range : 0 < s.cond.tc ∧ s.cond.tc < 1
  /-- `NR` = 1 occurs only in the sentinel (R61). -/
  raw_control : rawNr s.xport.raw = true → s.xport.raw = sentinel
  /-- Only the six codes are ever written (R67). -/
  status_legal : s.port.status = statusOk ∨ ∃ c : Failure, s.port.status = c.code
  /-- A failure is never a number (R159). -/
  failure_none : s.port.status ≠ statusOk → s.port.result = none
  /-- The armed flag is up exactly during a session (R17). -/
  armed_iff : s.ctl.armed = s.eng.inSession
  /-- The Monitor is `Armed` exactly during a session, else `Idle` (R18, R93). -/
  monitor : s.ctl.mon = if s.eng.inSession then .armed else .idle
  /-- No session without power (R120, R141). -/
  powered : s.eng ≠ .idle → s.ctl.power = .up
  /-- The transport stands where its rules bring it. -/
  transport : TransportSound s
  /-- The command's working registers. -/
  working : ∀ j, s.eng.job = some j → JobSound j s

/-- The invariant of the block: sound, and `BUSY` tells whether a command runs (R25). -/
structure Inv (s : State) : Prop where
  sound : Sound s
  busy_iff : s.port.busy = s.running

/-! ### Observations on the link record -/

/-- The bits sampled while the clock was high, oldest first, from accesses listed oldest first with the clock at the
given level before them (R84). -/
def highSamples : Bool → List LinkAccess → List Bool
  | _, [] => []
  | _, .drive b :: l => highSamples b l
  | true, .sample d :: l => d :: highSamples true l
  | false, .sample _ :: l => highSamples false l

/-- The bits sampled while the clock was low, as `highSamples` (R58). -/
def lowSamples : Bool → List LinkAccess → List Bool
  | _, [] => []
  | _, .drive b :: l => lowSamples b l
  | false, .sample d :: l => d :: lowSamples false l
  | true, .sample _ :: l => lowSamples true l

/-- The number of rising transitions of the clock, from accesses as for `highSamples` (R55). -/
def risings : Bool → List LinkAccess → Nat
  | _, [] => 0
  | c, .drive b :: l => (if !c && b then 1 else 0) + risings b l
  | c, .sample _ :: l => risings c l

/-- The number of `SampleDOUT()` calls. -/
def sampleCount : List LinkAccess → Nat
  | [] => 0
  | .drive _ :: l => sampleCount l
  | .sample _ :: l => sampleCount l + 1

/-- An access that is a sample. -/
def LinkAccess.isSample : LinkAccess → Bool
  | .drive _ => false
  | .sample _ => true

/-- The 24 data samples of a completed frame, from the accesses of the session listed oldest first: those taken while the
clock is high in `PULSEGEN` (R84), those of the first 24 low slots of the transfer in `SHIFTREG` (R58). -/
def dataSamples (t : Transport) (seg : List LinkAccess) : List Bool :=
  match t with
  | .pulsegen => highSamples false seg
  | .shiftreg => (lowSamples false (seg.dropWhile LinkAccess.isSample)).take 24

/-- The pattern the data samples make, most significant bit first (R41, R85). -/
def assembled (bits : List Bool) : Sample24 := bits.foldl shiftIn 0

/-- The level sampled in a slot, as `RX` holds it (R43). -/
def rxSlot (rx : Vector Byte 7) (k : Fin 56) : Bool := rx[slotByte k].getLsbD (slotBit k)

/-! ### Kinds of instruction -/

/-- The seven commands that would call `ReadRaw` (R141). -/
def readsConverter : Instr → Bool
  | .read => true
  | .readAverage _ => true
  | .readLowpass => true
  | .getValue => true
  | .getUnits => true
  | .tare _ => true
  | .setGain _ => true
  | .setScale _ _ => false
  | .setOffset _ _ => false
  | .setTimeConstant _ _ => false
  | .getTimeConstant => false
  | .powerDown => false
  | .powerUp => false
  | .txpat1 => false
  | .txpat2 => false
  | .txpat3 => false

/-- The four commands that run one session and use its sample (R121, R123 to R125). -/
def singleRead : Instr → Bool
  | .read => true
  | .readLowpass => true
  | .getValue => true
  | .getUnits => true
  | .readAverage _ => false
  | .tare _ => false
  | .setGain _ => false
  | .setScale _ _ => false
  | .setOffset _ _ => false
  | .setTimeConstant _ _ => false
  | .getTimeConstant => false
  | .powerDown => false
  | .powerUp => false
  | .txpat1 => false
  | .txpat2 => false
  | .txpat3 => false

/-- A host command, not a clock pattern (R57, R65). -/
def isCommand : Instr → Bool
  | .read => true
  | .readAverage _ => true
  | .readLowpass => true
  | .getValue => true
  | .getUnits => true
  | .tare _ => true
  | .setGain _ => true
  | .setScale _ _ => true
  | .setOffset _ _ => true
  | .setTimeConstant _ _ => true
  | .getTimeConstant => true
  | .powerDown => true
  | .powerUp => true
  | .txpat1 => false
  | .txpat2 => false
  | .txpat3 => false

/-- The checks a command makes before its first `ReadRaw` let it go on: `n` is not 0, `SCALE` is not 0 (R157). -/
def passesChecks (i : Instr) (s : State) : Prop :=
  match i with
  | .readAverage n => n ≠ 0
  | .tare n => n ≠ 0
  | .getUnits => s.cond.scale ≠ 0
  | .read => True
  | .readLowpass => True
  | .getValue => True
  | .setGain _ => True
  | .setScale _ _ => True
  | .setOffset _ _ => True
  | .setTimeConstant _ _ => True
  | .getTimeConstant => True
  | .powerDown => True
  | .powerUp => True
  | .txpat1 => True
  | .txpat2 => True
  | .txpat3 => True

/-- The instruction of a clock pattern (R57). -/
def patternInstr : GainSel → Instr
  | .offset1 => .txpat1
  | .offset2 => .txpat2
  | .offset3 => .txpat3

/-- `GAINSEL` after `SET_GAIN g` (R113, R114). -/
def gainAfter (g : Nat) (old : GainSel) : GainSel :=
  if g = 128 then .offset1 else if g = 64 then .offset3 else if g = 32 then .offset2 else old

/-- `GAINSEL` after the mapping update of an instruction, if it makes one (R113). -/
def gainAfterInstr (i : Instr) (old : GainSel) : GainSel :=
  match i with
  | .setGain g => gainAfter g old
  | .read => old
  | .readAverage _ => old
  | .readLowpass => old
  | .getValue => old
  | .getUnits => old
  | .tare _ => old
  | .setScale _ _ => old
  | .setOffset _ _ => old
  | .setTimeConstant _ _ => old
  | .getTimeConstant => old
  | .powerDown => old
  | .powerUp => old
  | .txpat1 => old
  | .txpat2 => old
  | .txpat3 => old

/-- The state whose first session a reading command begins: `SET_GAIN` has updated the mapping (R113). -/
def withGain (i : Instr) (s : State) : State :=
  { s with xport.gainSel := gainAfterInstr i s.xport.gainSel }

/-- The number of sessions a reading command makes when every one completes (R113, R121 to R126). -/
def readCount : Instr → Nat
  | .read => 1
  | .readAverage n => n
  | .readLowpass => 1
  | .getValue => 1
  | .getUnits => 1
  | .tare n => n
  | .setGain _ => 2
  | .setScale _ _ => 0
  | .setOffset _ _ => 0
  | .setTimeConstant _ _ => 0
  | .getTimeConstant => 0
  | .powerDown => 0
  | .powerUp => 0
  | .txpat1 => 0
  | .txpat2 => 0
  | .txpat3 => 0

/-! ### Scripts: the events of one session -/

/-- The bits of a word, most significant first (R41). -/
def bitsOf {w : Nat} (v : BitVec w) : List Bool := (List.range w).map fun i => v.getLsbD (w - 1 - i)

/-- What the converter answers in one session: how often it is found not ready, the data word, and what `DOUT` shows in
the discarded positions of a `SHIFTREG` transfer: the high slots and the last eight slots (R58). -/
structure Answer where
  wait : Nat
  data : Sample24
  highs : Sample24
  tail : Byte
deriving DecidableEq, Repr

/-- One data pulse of `PULSEGEN`: the bit appears, the sample and fall, the next rise (R84, R86). -/
def pulseEvents (d : Bool) : List Event := [.dout d, .seq, .seq]

/-- A `PULSEGEN` session: arming, the ready wait, 24 data pulses, the extra pulses, one Monitor poll. -/
def pulsegenSession (p : Params) (g : GainSel) (a : Answer) : List Event :=
  [.engine, .dout (!p.readyLevel)] ++ List.replicate a.wait .seq ++ [.dout p.readyLevel, .seq] ++
    (bitsOf a.data).flatMap pulseEvents ++ List.replicate (2 * extraPulses g) .seq ++ [.engine]

/-- What `DOUT` shows in the 56 slots of a transfer: for each data pulse the high slot, then the low slot with the data
bit (R58); then the last eight slots. -/
def Answer.slots (a : Answer) : List Bool :=
  ((bitsOf a.highs).zip (bitsOf a.data)).flatMap (fun hd => [hd.1, hd.2]) ++ bitsOf a.tail

/-- The 56 slots of a transfer (R96). -/
def transferEvents (a : Answer) : List Event := a.slots.flatMap fun d => [.dout d, .xfer]

/-- A `SHIFTREG` session: arming, the ready polls, the transfer, the engine's decoding. -/
def shiftregSession (p : Params) (a : Answer) : List Event :=
  [.engine, .dout (!p.readyLevel)] ++ List.replicate a.wait .engine ++ [.dout p.readyLevel, .engine] ++
    transferEvents a ++ [.engine]

/-- One session in which the converter answers, in the instance's variant. -/
def session (p : Params) (g : GainSel) (a : Answer) : List Event :=
  match p.transport with
  | .pulsegen => pulsegenSession p g a
  | .shiftreg => shiftregSession p a

/-- The converter is found ready before the poll budget is used up; `PULSEGEN` has no such bound (R94). -/
def Answer.inBudget (p : Params) (a : Answer) : Prop :=
  match p.transport with
  | .pulsegen => True
  | .shiftreg => a.wait < p.pollBudget

/-- One session in which the converter never becomes ready: in `PULSEGEN` the sequencer looks `wait` times and the given
time passes before the Monitor's poll (R91), in `SHIFTREG` the whole budget of polls is used (R95). -/
def silentSession (p : Params) (wait ms : Nat) : List Event :=
  match p.transport with
  | .pulsegen => [.engine, .dout (!p.readyLevel)] ++ List.replicate wait .seq ++ [.time ms, .engine]
  | .shiftreg => [.engine, .dout (!p.readyLevel)] ++ List.replicate (p.pollBudget + 1) .engine

/-- The sequencer steps of a frame after its first rise, each with the level `DOUT` shows at it: by turns a fall, with a
sample while the pulse is a data pulse, and the next rise (R84, R86). -/
def cutEvents (levels : List Bool) : List Event := levels.flatMap fun d => [.dout d, .seq]

/-- The levels at the first, third, fifth step and so on. -/
def everyOther : List Bool → List Bool
  | [] => []
  | [d] => [d]
  | d :: _ :: l => d :: everyOther l

/-- The bits a cut frame has sampled: the levels at its falls, at most 24 (R84, R87). -/
def cutSamples (levels : List Bool) : List Bool := (everyOther levels).take 24

/-- Polls of the Monitor, each after the given time (R91). -/
def pollEvents (times : List Nat) : List Event := times.flatMap fun ms => [.time ms, .engine]

/-- A `PULSEGEN` session whose sequencer stops in mid-frame, after the first rise and one step for each level: time passes,
and the Monitor polls, any number of times in vain and then once more (R90, R91). -/
def cutSession (p : Params) (wait : Nat) (levels : List Bool) (vain : List Nat) (ms : Nat) : List Event :=
  [.engine, .dout (!p.readyLevel)] ++ List.replicate wait .seq ++ [.dout p.readyLevel, .seq] ++ cutEvents levels ++
    pollEvents vain ++ [.time ms, .engine]

/-- Enough time passes for the `PULSEGEN` deadline, less than one wrap of the timer; `SHIFTREG` has no time bound. -/
def Overdue (p : Params) (ms : Nat) : Prop :=
  match p.transport with
  | .pulsegen => p.deadlineMs ≤ ms ∧ ms < 2 ^ 32
  | .shiftreg => True

/-- The sample an answer stands for (R62). -/
def Answer.value (a : Answer) : Int := sampleOf a.data

/-- The sum of the samples of a list of answers. -/
def sumOf (as : List Answer) : Int := (as.map Answer.value).sum

/-- A powered, running block whose next events are one session per answer, with `rest` after them. -/
structure Scripted (s : State) (as : List Answer) (rest : List Event) : Prop where
  events : s.events = as.flatMap (session s.params s.xport.gainSel) ++ rest
  inBudget : ∀ a ∈ as, a.inBudget s.params
  rst : s.pins.rst = false
  power : s.ctl.power = .up

/-- What the transport registers hold after sessions of which `last` was the last, begun in `s` (R80, R82, R93). -/
def TransportAfter (s : State) (last : Answer) (t : State) : Prop :=
  t.xport.gainSel = s.xport.gainSel ∧ t.xport.acc = last.data ∧ t.xport.raw = rawOf last.data ∧
  match s.params.transport with
  | .pulsegen =>
    t.xport.seq =
        { active := false, nPulse := pulseCount s.xport.gainSel, phase := .off
          pIdx := pulseCount s.xport.gainSel, done := true } ∧
      t.xport.rx = s.xport.rx ∧ t.xport.polls = s.xport.polls ∧ t.xport.xfer = s.xport.xfer ∧
      t.ctl.start = s.pins.now
  | .shiftreg =>
    t.xport.seq = s.xport.seq ∧ t.xport.polls = last.wait + 1 ∧ t.xport.xfer = none ∧
      t.ctl.start = s.ctl.start ∧ ∀ k : Fin 56, some (rxSlot t.xport.rx k) = last.slots[k.val]?

/-- The frame of a command that made one session per answer and completed: what its sessions leave, and that nothing else
outside the conditioner and host registers changed. -/
structure AfterSessions (s : State) (as : List Answer) (rest : List Event) (t : State) : Prop where
  params : t.params = s.params
  /-- The clock is idle-low, and the only other pin that moved is the input `DOUT`. -/
  pins : t.pins = { s.pins with pdSck := false, dout := t.pins.dout }
  transport : ∀ last, as.getLast? = some last → TransportAfter s last t
  /-- No session is left in flight (R93). -/
  control : t.ctl = { s.ctl with armed := false, mon := .idle, start := t.ctl.start }
  eng : t.eng = .idle
  events : t.events = rest
  /-- Each session made one frame: `24 + GAINSEL` pulses, the clock low before and after (R55). -/
  frames : ∃ seg, t.link = seg ++ s.link ∧
    risings false seg.reverse = as.length * (24 + extraPulses s.xport.gainSel)

/-- What the transport registers hold after a session in which the converter never became ready, begun in `s` after
`frames` whole frames: nothing of an earlier session is left (R31, R80, R92, R93, R95). -/
def TransportSilent (s : State) (frames : Nat) (t : State) : Prop :=
  t.xport.gainSel = s.xport.gainSel ∧ t.xport.acc = 0 ∧ t.xport.raw = sentinel ∧
  match s.params.transport with
  | .pulsegen =>
    t.xport.seq =
        { active := false, nPulse := pulseCount s.xport.gainSel, phase := .off, pIdx := 0, done := false } ∧
      t.xport.rx = s.xport.rx ∧ t.xport.polls = s.xport.polls ∧ t.xport.xfer = s.xport.xfer ∧
      t.ctl.start = s.pins.now
  | .shiftreg =>
    t.xport.seq = s.xport.seq ∧ t.xport.polls = s.params.pollBudget ∧ t.ctl.start = s.ctl.start ∧
      t.xport.rx = emptyRx ∧ (frames = 0 → t.xport.xfer = s.xport.xfer)

/-- The frame of a command that failed by a sensor timeout, begun in `s` (R92, R93, R158). -/
structure TimedOut (s : State) (rest : List Event) (t : State) : Prop where
  params : t.params = s.params
  /-- The clock is idle-low, and the only other pins that moved are the inputs `DOUT` and `NOW`. -/
  pins : t.pins = { s.pins with pdSck := false, dout := t.pins.dout, now := t.pins.now }
  /-- No session is left in flight (R93). -/
  control : t.ctl = { s.ctl with armed := false, mon := .idle, start := t.ctl.start }
  cond : t.cond = s.cond
  command : t.port.cmdReg = s.port.cmdReg
  result : t.port.result = none
  status : t.port.status = 0x11
  busy : t.port.busy = false
  eng : t.eng = .idle
  events : t.events = rest

/-- A command that failed because the converter never became ready, after `frames` whole frames. -/
structure AfterTimeout (s : State) (frames : Nat) (rest : List Event) (t : State) : Prop
    extends TimedOut s rest t where
  transport : TransportSilent s frames t
  /-- The whole frames made before, and no pulse in the session that failed. -/
  pulses : ∃ seg, t.link = seg ++ s.link ∧
    risings false seg.reverse = frames * (24 + extraPulses s.xport.gainSel)

/-- A powered, running block with an idle clock line whose next events are one session per answer and then a session in
which the converter never becomes ready. -/
structure ScriptedSilent (s : State) (as : List Answer) (wait ms : Nat) (rest : List Event) : Prop where
  scripted : Scripted s as (silentSession s.params wait ms ++ rest)
  overdue : Overdue s.params ms
  low : s.pins.pdSck = false

/-- What the transport registers hold after a `PULSEGEN` session cut in mid-frame, begun in `s` (R80, R85, R92, R93):
`SEQ.PIDX` is the number of the last pulse begun, `RAW` still holds the sentinel. -/
def TransportCut (s : State) (levels : List Bool) (t : State) : Prop :=
  t.xport =
    { s.xport with
      acc := (cutSamples levels).foldl shiftIn 0, raw := sentinel
      seq :=
        { active := false, nPulse := pulseCount s.xport.gainSel, phase := .off
          pIdx := BitVec.ofNat 5 (1 + levels.length / 2), done := false } } ∧
  t.ctl.start = s.pins.now

/-- A command that failed because the sequencer stopped in mid-frame, after `frames` whole frames. -/
structure AfterCut (s : State) (frames : Nat) (levels : List Bool) (rest : List Event) (t : State) : Prop
    extends TimedOut s rest t where
  transport : TransportCut s levels t
  /-- The whole frames made before, and the pulses begun in the frame that was cut (R92). -/
  pulses : ∃ seg, t.link = seg ++ s.link ∧
    risings false seg.reverse = frames * (24 + extraPulses s.xport.gainSel) + (1 + levels.length / 2)

/-- A powered, running `PULSEGEN` block with an idle clock line whose next events are one session per answer and then a
session cut in mid-frame: fewer sequencer steps follow the first rise than a whole frame takes. -/
structure ScriptedCut (s : State) (as : List Answer) (wait : Nat) (levels : List Bool) (vain : List Nat) (ms : Nat)
    (rest : List Event) : Prop where
  scripted : Scripted s as (cutSession s.params wait levels vain ms ++ rest)
  transport : s.params.transport = .pulsegen
  short : levels.length < 2 * (24 + extraPulses s.xport.gainSel)
  /-- The polls in vain come before the deadline, the last one does not. -/
  early : vain ≠ [] → vain.sum < s.params.deadlineMs
  overdue : Overdue s.params (vain.sum + ms)
  low : s.pins.pdSck = false

/-! ### Runs without a reset -/

/-- No reset is asserted and none comes (R176; a claim about a command assumes no reset during it). -/
def Undisturbed (s : State) : Prop := s.pins.rst = false ∧ Event.rst true ∉ s.events

/-- Every register at the value R175 names, with the input levels left open. -/
structure HoldsResetValues (s : State) : Prop where
  pdSck : s.pins.pdSck = false
  gainSel : gainCode s.xport.gainSel = 1
  acc : s.xport.acc = 0
  raw : s.xport.raw = 0x1FFFFFF
  seq : s.xport.seq = { active := false, nPulse := 25, phase := .off, pIdx := 0, done := false }
  rx : s.xport.rx = #v[0, 0, 0, 0, 0, 0, 0]
  polls : s.xport.polls = 0
  armed : s.ctl.armed = false
  mon : s.ctl.mon = .idle
  start : s.ctl.start = 0
  power : s.ctl.power = .up
  filtered : s.cond.filtered = 0
  offset : s.cond.offset = 0
  scale : s.cond.scale = 1
  tc : s.cond.tc = 1 / 4
  busy : s.port.busy = false
  cmdReg : s.port.cmdReg = 0
  status : s.port.status = 0x00
  result : s.port.result = none
  sum : s.port.sum = 0
  cnt : s.port.cnt = 0
  /-- No command, no session and no transfer is under way. -/
  eng : s.eng = .idle
  xfer : s.xport.xfer = none

end Sys2Proof.Machine
end

