-- ==== Sys2Proof/Certificates/Slice0/Obligations.lean ====
section
/-! DEFINITION. The statements for the provers. `s` is the state an instruction runs in, `t` the next one. -/

open Sys2Proof Sys2Proof.Machine

/-! ### Encodings -/

/-- R57, R63 to R65: an encoded instruction decodes to itself, at every operand its word can hold. -/
def Obligations.DecodeInvertsEncode : Prop :=
  ∀ i : Instr, i.wf = true → decode (encode i) = .ok i

/-- R64: the decoder delivers only operands the fields hold. -/
def Obligations.DecodedInstructionsAreWellFormed : Prop :=
  ∀ (c : Code) (i : Instr), decode c = .ok i → i.wf = true

/-- R63, R64: a field a format does not use is ignored, whatever it holds: two words of one opcode that agree on the
fields its format reads decode alike. -/
def Obligations.UnusedFieldsAreIgnored : Prop :=
  ∀ w v : CommandWord, opField w = opField v →
    (opField w ∈ [0x01, 0x03, 0x04, 0x05, 0x0B, 0x0C, 0x0D] ∨
      (opField w ∈ [0x02, 0x06, 0x07] ∧ aField w = aField v) ∨
      (opField w ∈ [0x08, 0x09, 0x0A] ∧ aField w = aField v ∧ bField w = bField v)) →
    decodeCommand w = decodeCommand v

/-- R66: exactly the opcodes `0x00` and `0x0E` to `0xFF` select no command. -/
def Obligations.ReservedOpcodesSelectNoCommand : Prop :=
  ∀ w : CommandWord,
    decodeCommand w = .error (.reservedOpcode (opField w)) ↔
      (opField w = 0x00 ∨ 0x0E ≤ (opField w).toNat)

/-- R57, R63 to R65: words written out from the layout `OP`, `A`, `B` and from the pattern table. -/
def Obligations.KnownWordsDecode : Prop :=
  decode (.command 0x010000000000000000) = .ok .read ∧
  decode (.command 0x020000000300000000) = .ok (.readAverage 3) ∧
  decode (.command 0x07000000400BADF00D) = .ok (.setGain 64) ∧
  decode (.command 0x080000000200000001) = .ok (.setScale 2 1) ∧
  decode (.command 0x09FFFFFFFF00000004) = .ok (.setOffset (-1) 4) ∧
  decode (.command 0x0A7FFFFFFF80000000) = .ok (.setTimeConstant 2147483647 2147483648) ∧
  decode (.command 0x0D1234567812345678) = .ok .powerUp ∧
  decode (.pattern 0xAAAAAAAAAAAAA8) = .ok .txpat3

/-- R57, R42: a pattern drives the even slot of each pulse of its frame high and every other slot low. -/
def Obligations.ClockPatternsSpellTheirFrames : Prop :=
  ∀ (g : GainSel) (k : Fin 56),
    slotLevel (txpat g) k = (decide (k.val % 2 = 0) && decide (k.val / 2 < 24 + extraPulses g))

/-- R59: the nibble table. -/
def Obligations.NibbleTablePacksTheEvenBits : Prop :=
  (∀ m : Byte, m &&& 0xAA = 0 →
    pack m = BitVec.ofBool (m.getLsbD 6) ++ BitVec.ofBool (m.getLsbD 4) ++ BitVec.ofBool (m.getLsbD 2) ++
      BitVec.ofBool (m.getLsbD 0)) ∧
  (∀ k : BitVec 4, lut[k.toFin] = k ∧ spread k &&& 0xAA = 0 ∧ pack (spread k) = k ∧
    ∀ i : Fin 4, (spread k).getLsbD (2 * i.val) = k.getLsbD i.val)

/-- R58, R60, R97: bit `23 - p` of the decoded pattern is the level sampled in the low slot of pulse `p + 1`, and
`RX[6]` is never read. -/
def Obligations.ReceiveBufferHoldsTheSample : Prop :=
  (∀ (rx : Vector Byte 7) (p : Fin 24),
    (decodeRx rx).getLsbD (23 - p.val) = rxSlot rx ⟨2 * p.val + 1, by omega⟩) ∧
  (∀ (rx : Vector Byte 7) (b : Byte), decodeRx (rx.set 6 b) = decodeRx rx)

/-- R56, R113: gain, pulse offset, pulse count and last pattern byte; any other gain selects no mapping. -/
def Obligations.GainCodeTable : Prop :=
  (gainOperand 128 = some .offset1 ∧ gainOperand 32 = some .offset2 ∧ gainOperand 64 = some .offset3) ∧
  (∀ g : Nat, g ≠ 128 → g ≠ 64 → g ≠ 32 → gainOperand g = none) ∧
  (gainCode .offset1 = 1 ∧ pulseCount .offset1 = 25 ∧ (txpat .offset1)[6] = 0x80) ∧
  (gainCode .offset2 = 2 ∧ pulseCount .offset2 = 26 ∧ (txpat .offset2)[6] = 0xA0) ∧
  (gainCode .offset3 = 3 ∧ pulseCount .offset3 = 27 ∧ (txpat .offset3)[6] = 0xA8)

/-! ### The sample -/

/-- R110: `Decode`. -/
def Obligations.DecodeGivesTheSignedSample : Prop :=
  ∀ raw : RawWord,
    (raw.getLsbD 24 = true → decodeSample raw = .error .noResponse) ∧
    (raw.getLsbD 24 = false → ∀ u : BitVec 24, u = raw.extractLsb' 0 24 →
      decodeSample raw = .ok (if u.toNat < 2 ^ 23 then u.toNat else (u.toNat : Int) - 2 ^ 24) ∧
      decodeSample raw = .ok u.toInt ∧ -(2 ^ 23) ≤ u.toInt ∧ u.toInt ≤ 2 ^ 23 - 1) ∧
    decodeSample 0x0000000 = .ok 0 ∧ decodeSample 0x07FFFFF = .ok 8388607 ∧
    decodeSample 0x0800000 = .ok (-8388608) ∧ decodeSample 0x0FFFFFF = .ok (-1)

/-- R112: the round trip, and the bijection it makes. -/
def Obligations.SampleRoundTrip : Prop :=
  (∀ u : Sample24, ∃ x : Int, decodeSample (rawOf u) = .ok x ∧ -(2 ^ 23) ≤ x ∧ x ≤ 2 ^ 23 - 1 ∧
    encodeSample x = u ∧ ((encodeSample x).toNat : Int) = x % 2 ^ 24) ∧
  (∀ x : Int, -(2 ^ 23) ≤ x → x ≤ 2 ^ 23 - 1 → decodeSample (rawOf (encodeSample x)) = .ok x) ∧
  (∀ u v : Sample24, decodeSample (rawOf u) = decodeSample (rawOf v) → u = v)

/-- R61, R111: the sentinel fails, and the all-ones data word is the sample -1. -/
def Obligations.SentinelIsNoSample : Prop :=
  decodeSample sentinel = .error .noResponse ∧
  rawNr sentinel = true ∧ rawData sentinel = 0xFFFFFF ∧
  (∀ acc : Sample24, rawOf acc ≠ sentinel ∧ rawNr (rawOf acc) = false ∧ rawData (rawOf acc) = acc) ∧
  decodeSample (rawOf 0xFFFFFF) = .ok (-1)

/-- R85: the shift, and what `ACC` holds after the samples `d_1 .. d_i`. -/
def Obligations.AccumulatorWeighsTheSampledBits : Prop :=
  (∀ (acc : Sample24) (d : Bool), (shiftIn acc d).toNat = (2 * acc.toNat + d.toNat) % 2 ^ 24) ∧
  (∀ bits : List Bool, bits.length ≤ 24 →
    (bits.foldl shiftIn (0 : Sample24)).toNat =
      ∑ k : Fin bits.length, (bits[k]).toNat * 2 ^ (bits.length - 1 - k.val))

/-- R102: with `e` the value of the bits sampled in the extra pulses, the wide accumulator is `ACC * 2^g + e`, and it
agrees with `ACC` after a shift by `g`, only in at least `24 + g` bits and only with that shift. -/
def Obligations.DroppingTheGainBits : Prop :=
  ∀ g : Nat, 1 ≤ g → g ≤ 3 →
    (∀ (w : Nat) (data extra : List Bool), 27 ≤ w → data.length = 24 → extra.length = g →
      let acc : Nat := (data.foldl shiftIn (0 : Sample24)).toNat
      let big : BitVec w := (data ++ extra).foldl shiftIn 0
      let e : Nat := extra.foldl (fun n d => 2 * n + d.toNat) 0
      e < 2 ^ g ∧ big.toNat = acc * 2 ^ g + e ∧ (big >>> g).toNat = acc) ∧
    (∀ w : Nat, w < 24 + g → ∃ data extra : List Bool, data.length = 24 ∧ extra.length = g ∧
      (((data ++ extra).foldl shiftIn (0 : BitVec w)) >>> g).toNat ≠
        (data.foldl shiftIn (0 : Sample24)).toNat) ∧
    (∀ w h : Nat, 27 ≤ w → h ≠ g → ∃ data extra : List Bool, data.length = 24 ∧ extra.length = g ∧
      (((data ++ extra).foldl shiftIn (0 : BitVec w)) >>> h).toNat ≠
        (data.foldl shiftIn (0 : Sample24)).toNat)

/-! ### The conditioner's arithmetic -/

/-- R128: the laws of the filter step, in the exact arithmetic of R7. -/
def Obligations.FilterStepLaws : Prop :=
  ∀ f tc v : Rat, 0 < tc → tc < 1 →
    filterStep f tc v = (1 - tc) * f + tc * v ∧
    (f = v → filterStep f tc v = v) ∧
    (f ≠ v → (min f v < filterStep f tc v ∧ filterStep f tc v < max f v) ∧
      v - filterStep f tc v = (1 - tc) * (v - f)) ∧
    (∀ k : Nat, v - (fun x => filterStep x tc v)^[k] f = (1 - tc) ^ k * (v - f)) ∧
    Filter.Tendsto (fun k : Nat => v - (fun x => filterStep x tc v)^[k] f) Filter.atTop (nhds 0) ∧
    (∀ k : Nat, (fun x => filterStep x tc v)^[k] f = v → f = v)

/-- R129: the result of `GET_UNITS` as a function of its inputs. -/
def Obligations.UnitsAreInverseInScaleAndAffineInTheInput : Prop :=
  (∀ filtered offset scale c : Rat, scaled filtered offset (c * scale) = scaled filtered offset scale / c) ∧
  (∀ (f tc offset scale : Rat) (x y : Int),
    scaled (filterStep f tc (widen x)) offset scale - scaled (filterStep f tc (widen y)) offset scale =
      tc / scale * (x - y)) ∧
  (∀ filtered offset : Rat, scaled filtered offset 1 = tared filtered offset) ∧
  (∀ (g : GainSel) (x : Int) (s : State),
    (unitsDone x { s with xport.gainSel := g }).port.result = (unitsDone x s).port.result)

/-! ### The configuration commands -/

/-- R135: `SET_SCALE`. The state is the whole frame: nothing else changes. -/
def Obligations.SetScaleStoresANonZeroScale : Prop :=
  ∀ (num : Int) (den : Nat) (s : State),
    (den = 0 ∨ num = 0 →
      exec (.setScale num den) s = .next
        { s with port.result := none, port.status := 0x23, port.busy := false, eng := .idle }) ∧
    (den ≠ 0 → num ≠ 0 →
      exec (.setScale num den) s = .next
        { s with
          cond.scale := (num : Rat) / den
          port.result := none, port.status := 0x00, port.busy := false, eng := .idle })

/-- R136: `SET_OFFSET`. -/
def Obligations.SetOffsetStoresAnyRational : Prop :=
  ∀ (num : Int) (den : Nat) (s : State),
    (den = 0 →
      exec (.setOffset num den) s = .next
        { s with port.result := none, port.status := 0x23, port.busy := false, eng := .idle }) ∧
    (den ≠ 0 →
      exec (.setOffset num den) s = .next
        { s with
          cond.offset := (num : Rat) / den
          port.result := none, port.status := 0x00, port.busy := false, eng := .idle })

/-- R137: `SET_TIME_CONSTANT`; both ends of (0, 1) are excluded. -/
def Obligations.SetTimeConstantStoresAnInnerValue : Prop :=
  ∀ (num : Int) (den : Nat) (s : State),
    (den = 0 ∨ (num : Rat) / den ≤ 0 ∨ 1 ≤ (num : Rat) / den →
      exec (.setTimeConstant num den) s = .next
        { s with port.result := none, port.status := 0x23, port.busy := false, eng := .idle }) ∧
    (den ≠ 0 → 0 < (num : Rat) / den → (num : Rat) / den < 1 →
      exec (.setTimeConstant num den) s = .next
        { s with
          cond.tc := (num : Rat) / den
          port.result := none, port.status := 0x00, port.busy := false, eng := .idle })

/-- R138: `GET_TIME_CONSTANT`. -/
def Obligations.GetTimeConstantReturnsTheRegister : Prop :=
  ∀ s : State,
    exec .getTimeConstant s = .next
      { s with port.result := some s.cond.tc, port.status := 0x00, port.busy := false, eng := .idle }

/-- R142: the four configuration commands move no pin, access the link at no point, arm no session, and do the same
whatever the pins, the power state and the transport hold. -/
def Obligations.ConfigurationIgnoresPinsAndPower : Prop :=
  ∀ (i : Instr) (num : Int) (den : Nat),
    i ∈ [.setScale num den, .setOffset num den, .setTimeConstant num den, .getTimeConstant] →
    ∀ s u : State, s.cond = u.cond → s.port = u.port →
      ∃ t v, exec i s = .next t ∧ exec i u = .next v ∧ t.cond = v.cond ∧ t.port = v.port ∧
        t.pins = s.pins ∧ t.xport = s.xport ∧ t.ctl = s.ctl ∧ t.link = s.link ∧ t.params = s.params ∧
        t.events = s.events

/-! ### The power commands -/

/-- R139: `POWER_DOWN`. The hold time passes without any other effect. -/
def Obligations.PowerDownHoldsTheLineHigh : Prop :=
  ∀ s : State,
    exec .powerDown s = .next
      { s with
        pins.pdSck := true, link := .drive true :: s.link, ctl.power := .down
        port.result := none, port.status := 0x00, port.busy := false, eng := .idle }

/-- R140: `POWER_UP`. -/
def Obligations.PowerUpReleasesTheLine : Prop :=
  ∀ s : State,
    exec .powerUp s = .next
      { s with
        pins.pdSck := false, link := .drive false :: s.link, ctl.power := .up
        port.result := none, port.status := 0x00, port.busy := false, eng := .idle }

/-- R141: a command that would read the converter is refused while powered down, with no session, no pin moved and no
access on the link; the checks that precede the first read come first. The operand is one a command word holds
(R64). -/
def Obligations.ReadsAreRefusedWhilePoweredDown : Prop :=
  ∀ (i : Instr) (s : State), readsConverter i = true → i.wf = true → s.ctl.power = .down →
    ∃ t, exec i s = .next t ∧
      t.params = s.params ∧ t.pins = s.pins ∧ t.ctl = s.ctl ∧ t.cond = s.cond ∧ t.link = s.link ∧
      t.events = s.events ∧ t.xport = { s.xport with gainSel := gainAfterInstr i s.xport.gainSel } ∧
      t.port.cmdReg = s.port.cmdReg ∧ t.port.result = none ∧ t.port.busy = false ∧ t.eng = .idle ∧
      (passesChecks i s → t.port.status = 0x24) ∧ (¬ passesChecks i s → t.port.status = 0x23)

/-- R153, R157: the operand and configuration checks, before any state change and before any session, whatever the power
state. -/
def Obligations.InvalidConfigurationComesFirst : Prop :=
  ∀ (i : Instr) (s : State),
    (i = .readAverage 0 ∨ i = .tare 0 ∨ (i = .getUnits ∧ s.cond.scale = 0) ∨
      (∃ num : Int, i = .setScale num 0 ∨ i = .setOffset num 0 ∨ i = .setTimeConstant num 0) ∨
      (∃ den : Nat, i = .setScale 0 den) ∨
      (∃ (num : Int) (den : Nat), i = .setTimeConstant num den ∧ (num ≤ 0 ∨ (den : Int) ≤ num))) →
    exec i s = .next
      { s with port.result := none, port.status := 0x23, port.busy := false, eng := .idle }

/-! ### The transport: single steps -/

/-- R31, R81, R82: one engine step arms a session and, in `PULSEGEN`, starts the sequencer; no pin is driven and `DOUT` is
not sampled. That the two acts are one step (notes/assumptions/5.md) and that `RX` is initialised to zeros (17.md) are the
model's choice. -/
def Obligations.ArmingInitialisesTheSession : Prop :=
  ∀ (s : State) (j : Job), s.eng = .arm j → s.pins.rst = false →
    (s.params.transport = .pulsegen →
      tick .engine s =
        { s with
          eng := .watch j
          xport.acc := 0, xport.raw := 0x1FFFFFF, ctl.armed := true, ctl.mon := .armed, ctl.start := s.pins.now
          xport.seq :=
            { active := true, phase := .waitReady, pIdx := 0, done := false
              nPulse := 24 + (gainCode s.xport.gainSel).setWidth 5 } }) ∧
    (s.params.transport = .shiftreg →
      tick .engine s =
        { s with
          eng := .poll j
          xport.acc := 0, xport.raw := 0x1FFFFFF, ctl.armed := true, ctl.mon := .armed
          xport.rx := #v[0, 0, 0, 0, 0, 0, 0], xport.polls := 0 })

/-- R82 to R88: the steps of the sequencer, and that it has no other: none in `Off` and `Done`, none while `SEQ.ACTIVE` is
0, none on a `SHIFTREG` instance, which has no sequencer (R4, R15), and none while `RST` is asserted. -/
def Obligations.SequencerSteps : Prop :=
  (∀ s : State, s.xport.seq.active = false ∨ s.params.transport = .shiftreg ∨ s.pins.rst = true →
    tick .seq s = s) ∧
  ∀ s : State, s.pins.rst = false → s.params.transport = .pulsegen → s.xport.seq.active = true →
    (s.xport.seq.phase = .waitReady →
      (s.pins.dout = s.params.readyLevel →
        tick .seq s =
          { s with
            xport.seq.pIdx := 1, xport.seq.phase := .high, pins.pdSck := true
            link := .drive true :: .sample s.pins.dout :: s.link }) ∧
      (s.pins.dout ≠ s.params.readyLevel →
        tick .seq s = { s with link := .sample s.pins.dout :: s.link })) ∧
    (s.xport.seq.phase = .high →
      (s.xport.seq.pIdx.toNat ≤ 24 →
        tick .seq s =
          { s with
            xport.acc := BitVec.ofNat 24 (2 * s.xport.acc.toNat + s.pins.dout.toNat)
            xport.seq.phase := .low, pins.pdSck := false
            link := .drive false :: .sample s.pins.dout :: s.link }) ∧
      (24 < s.xport.seq.pIdx.toNat →
        tick .seq s =
          { s with xport.seq.phase := .low, pins.pdSck := false, link := .drive false :: s.link })) ∧
    (s.xport.seq.phase = .low →
      (s.xport.seq.pIdx.toNat < s.xport.seq.nPulse.toNat →
        tick .seq s =
          { s with
            xport.seq.pIdx := s.xport.seq.pIdx + 1, xport.seq.phase := .high, pins.pdSck := true
            link := .drive true :: s.link }) ∧
      (s.xport.seq.pIdx = s.xport.seq.nPulse →
        tick .seq s =
          { s with xport.raw := rawOf s.xport.acc, xport.seq.done := true, xport.seq.phase := .done })) ∧
    (s.xport.seq.phase = .off ∨ s.xport.seq.phase = .done → tick .seq s = s)

/-- R91 to R93: one poll of the Monitor sees completion first, then the deadline at exactly `DEADLINE_MS`; a poll that
sees neither changes nothing. The session has ended before its outcome is used. That the poll and the session's end are
one step is the model's choice (notes/assumptions/5.md). -/
def Obligations.MonitorPoll : Prop :=
  ∀ (s : State) (j : Job), s.eng = .watch j → s.pins.rst = false →
    (s.xport.seq.done = true → ∀ d : Sample24, s.xport.raw = rawOf d →
      tick .engine s =
        useSample j (sampleOf d)
          { s with
            xport.seq.active := false, xport.seq.phase := .off, pins.pdSck := false
            link := .drive false :: s.link, ctl.armed := false, ctl.mon := .idle }) ∧
    (s.xport.seq.done = false → s.params.deadlineMs ≤ (s.pins.now - s.ctl.start).toNat →
      tick .engine s =
        { s with
          xport.seq.active := false, xport.seq.phase := .off, pins.pdSck := false
          link := .drive false :: s.link, ctl.armed := false, ctl.mon := .idle
          port.result := none, port.status := 0x11, port.busy := false, eng := .idle }) ∧
    (s.xport.seq.done = false → (s.pins.now - s.ctl.start).toNat < s.params.deadlineMs → tick .engine s = s)

/-- R94, R95: one poll of the `SHIFTREG` ready loop, and the end of the budget: no transfer is issued and no pulse is
made. That the end of the budget is found at the engine's next step is the model's choice (notes/assumptions/5.md). -/
def Obligations.ReadyPoll : Prop :=
  ∀ (s : State) (j : Job), s.eng = .poll j → s.pins.rst = false →
    (s.xport.polls < s.params.pollBudget → s.pins.dout = s.params.readyLevel →
      tick .engine s =
        { s with
          xport.polls := s.xport.polls + 1, link := .sample s.pins.dout :: s.link, eng := .transfer j
          xport.xfer := some { tx := txpat s.xport.gainSel, slot := 0 } }) ∧
    (s.xport.polls < s.params.pollBudget → s.pins.dout ≠ s.params.readyLevel →
      tick .engine s =
        { s with xport.polls := s.xport.polls + 1, link := .sample s.pins.dout :: s.link }) ∧
    (s.params.pollBudget ≤ s.xport.polls →
      tick .engine s =
        { s with
          ctl.armed := false, ctl.mon := .idle
          port.result := none, port.status := 0x11, port.busy := false, eng := .idle })

/-- R96 to R98: the engine waits while a transfer runs; then the receive buffer becomes `ACC` and `RAW` and the session
completes. That the decoding, the end of the session and the use of the sample are one step is the model's choice
(notes/assumptions/5.md). -/
def Obligations.TransferIsAwaitedAndDecoded : Prop :=
  ∀ (s : State) (j : Job), s.eng = .transfer j → s.pins.rst = false →
    (s.xport.xfer ≠ none → tick .engine s = s) ∧
    (s.xport.xfer = none →
      tick .engine s =
        useSample j (sampleOf (decodeRx s.xport.rx))
          { s with
            xport.acc := decodeRx s.xport.rx, xport.raw := rawOf (decodeRx s.xport.rx)
            ctl.armed := false, ctl.mon := .idle })

/-- R100: no command and no input other than reset ends a session early: a session ends only at reset, or at an engine
step that finds it complete or at its bound. -/
def Obligations.OnlyItsBoundOrResetEndsASession : Prop :=
  ∀ (s : State) (e : Event), s.eng.inSession = true → (tick e s).eng.inSession = false →
    e = .rst true ∨
    (e = .engine ∧
      match s.eng with
      | .watch _ => s.xport.seq.done = true ∨ s.params.deadlineMs ≤ (s.pins.now - s.ctl.start).toNat
      | .poll _ => s.params.pollBudget ≤ s.xport.polls
      | .transfer _ => s.xport.xfer = none
      | .arm _ => False
      | .idle => False)

/-! ### The transport: the pattern rows -/

/-- R57, R96: a transfer runs all 56 slots: it drives the pattern's level, then stores the sample of the slot, and rests
low; its frame has `24 + GAINSEL` pulses. Nothing else changes. -/
def Obligations.TransferRunsItsPattern : Prop :=
  ∀ (g : GainSel) (s : State) (slots : Vector Bool 56) (rest : List Event),
    s.params.transport = .shiftreg → s.pins.rst = false →
    s.events = slots.toList.flatMap (fun d => [.dout d, .xfer]) ++ rest →
    ∃ (rx : Vector Byte 7) (seg : List LinkAccess),
      exec (patternInstr g) s = .next
        { s with
          pins.pdSck := false, pins.dout := slots[55]
          xport.rx := rx, xport.xfer := none, link := seg ++ s.link, events := rest } ∧
      (∀ k : Fin 56, rxSlot rx k = slots[k]) ∧
      seg.reverse =
        ((List.finRange 56).flatMap fun k => [.drive (slotLevel (txpat g) k), .sample slots[k]]) ++
          [.drive false] ∧
      risings false seg.reverse = 24 + extraPulses g

/-- R4, R16: a `PULSEGEN` instance contains no transfer peripheral. That the pattern rows are refused there is the model's
choice (notes/assumptions/9.md). -/
def Obligations.PatternsNeedThePeripheral : Prop :=
  ∀ (g : GainSel) (s : State), s.params.transport = .pulsegen →
    exec (patternInstr g) s = .refused .noTransferPeripheral

/-! ### The read commands: results -/

/-- R121: `READ` returns the sample of its one session, an integer in [-2^23, 2^23 - 1], and writes no conditioner
register. -/
def Obligations.ReadReturnsTheSample : Prop :=
  ∀ (s : State) (a : Answer) (rest : List Event), Scripted s [a] rest →
    ∃ t, exec .read s = .next t ∧ AfterSessions s [a] rest t ∧ t.cond = s.cond ∧
      t.port =
        { s.port with result := some ((a.value : Int) : Rat), status := 0x00, busy := false } ∧
      -(2 ^ 23) ≤ a.value ∧ a.value ≤ 2 ^ 23 - 1

/-- R122: `READ_AVERAGE n` makes `n` sessions and returns the exact mean. -/
def Obligations.ReadAverageReturnsTheMean : Prop :=
  ∀ (n : Nat) (s : State) (as : List Answer) (rest : List Event),
    0 < n → n < 2 ^ 32 → as.length = n → Scripted s as rest →
    ∃ t, exec (.readAverage n) s = .next t ∧ AfterSessions s as rest t ∧ t.cond = s.cond ∧
      t.port =
        { s.port with
          result := some ((sumOf as : Rat) / n), status := 0x00, busy := false, sum := sumOf as, cnt := 0 }

/-- R123: `READ_LOWPASS` steps the filter and returns its new value. -/
def Obligations.ReadLowpassStepsTheFilter : Prop :=
  ∀ (s : State) (a : Answer) (rest : List Event), Scripted s [a] rest →
    ∀ f : Rat, f = s.cond.filtered + s.cond.tc * (a.value - s.cond.filtered) →
    ∃ t, exec .readLowpass s = .next t ∧ AfterSessions s [a] rest t ∧
      t.cond = { s.cond with filtered := f } ∧
      t.port = { s.port with result := some f, status := 0x00, busy := false }

/-- R124: `GET_VALUE` steps the filter and returns its distance from the offset. -/
def Obligations.GetValueSubtractsTheOffset : Prop :=
  ∀ (s : State) (a : Answer) (rest : List Event), Scripted s [a] rest →
    ∀ f : Rat, f = s.cond.filtered + s.cond.tc * (a.value - s.cond.filtered) →
    ∃ t, exec .getValue s = .next t ∧ AfterSessions s [a] rest t ∧
      t.cond = { s.cond with filtered := f } ∧
      t.port = { s.port with result := some (f - s.cond.offset), status := 0x00, busy := false }

/-- R125: `GET_UNITS` divides by the scale, which it has tested before its session. -/
def Obligations.GetUnitsDividesByTheScale : Prop :=
  ∀ (s : State) (a : Answer) (rest : List Event), Scripted s [a] rest → s.cond.scale ≠ 0 →
    ∀ f : Rat, f = s.cond.filtered + s.cond.tc * (a.value - s.cond.filtered) →
    ∃ t, exec .getUnits s = .next t ∧ AfterSessions s [a] rest t ∧
      t.cond = { s.cond with filtered := f } ∧
      t.port =
        { s.port with
          result := some ((f - s.cond.offset) / s.cond.scale), status := 0x00, busy := false }

/-- R126: `TARE n` stores the mean of `n` raw reads in `OFFSET` and returns nothing; the filter is not touched. -/
def Obligations.TareStoresTheMean : Prop :=
  ∀ (n : Nat) (s : State) (as : List Answer) (rest : List Event),
    0 < n → n < 2 ^ 32 → as.length = n → Scripted s as rest →
    ∃ t, exec (.tare n) s = .next t ∧ AfterSessions s as rest t ∧
      t.cond = { s.cond with offset := (sumOf as : Rat) / n } ∧
      t.port = { s.port with result := none, status := 0x00, busy := false, sum := sumOf as, cnt := 0 }

/-- R113 to R115: `SET_GAIN g` selects the mapping (any other `g` keeps it), drops the first sample, and seeds the filter
with the second, unfiltered. Both sessions already have the new frame length. -/
def Obligations.SetGainSelectsAndSeeds : Prop :=
  ∀ (g : Nat) (s : State) (a b : Answer) (rest : List Event), Scripted (withGain (.setGain g) s) [a, b] rest →
    ∃ t, exec (.setGain g) s = .next t ∧ AfterSessions (withGain (.setGain g) s) [a, b] rest t ∧
      t.xport.gainSel =
        (if g = 128 then .offset1 else if g = 64 then .offset3 else if g = 32 then .offset2
          else s.xport.gainSel) ∧
      t.cond = { s.cond with filtered := ((b.value : Int) : Rat) } ∧
      t.port = { s.port with result := none, status := 0x00, busy := false }

/-! ### The read commands: failures -/

/-- R95, R151, R91: a converter that never becomes ready gives `SensorTimeout` from each of the seven commands, with no
pulse made, no value returned and no conditioner register written; only `SET_GAIN` has moved `GAINSEL` (R116). That `RX` holds
zeros then is the model's choice (notes/assumptions/17.md). -/
def Obligations.SilentConverterTimesOut : Prop :=
  ∀ (i : Instr) (s : State) (wait ms : Nat) (rest : List Event), readsConverter i = true → passesChecks i s →
    (∀ n, i = .readAverage n ∨ i = .tare n → n < 2 ^ 32) →
    ScriptedSilent (withGain i s) [] wait ms rest →
    ∃ t, exec i s = .next t ∧ AfterTimeout (withGain i s) 0 rest t

/-- R127, R116, R90 to R92: the first read that fails ends its command. In a command with several reads the converter may
fall silent after some frames; in any reading command of a `PULSEGEN` instance the sequencer may stop in mid-frame, in the
first session or a later one. The frames already made stay made, a cut frame has the pulses begun in it, no further session
starts, and no conditioner register is written. That `RX` holds zeros after a silent session is the model's
choice (notes/assumptions/17.md). -/
def Obligations.LaterReadFailureEndsTheCommand : Prop :=
  ∀ (i : Instr) (s : State) (as : List Answer) (wait ms : Nat) (rest : List Event),
    (∀ n, i = .readAverage n ∨ i = .tare n → n < 2 ^ 32) → as.length < readCount i →
    ((∃ n, i = .readAverage n ∨ i = .tare n) ∨ (∃ g, i = .setGain g) →
      ScriptedSilent (withGain i s) as wait ms rest →
      ∃ t, exec i s = .next t ∧ AfterTimeout (withGain i s) as.length rest t) ∧
    ∀ (levels : List Bool) (vain : List Nat), readsConverter i = true → passesChecks i s →
      ScriptedCut (withGain i s) as wait levels vain ms rest →
      ∃ t, exec i s = .next t ∧ AfterCut (withGain i s) as.length levels rest t

/-- R73, R127, R158: a command that has failed has written no conditioner register and left no value, and the block is
idle and sound; a command that has not completed has written neither conditioner, `STATUS` nor `RESULT`. -/
def Obligations.NoPartialWork : Prop :=
  ∀ (i : Instr) (s t : State), isCommand i = true → Sound s → s.eng = .idle → Undisturbed s →
    exec i s = .next t →
    (t.eng = .idle → t.port.status ≠ 0x00 →
      t.cond = s.cond ∧ t.port.result = none ∧ t.port.busy = false ∧ t.ctl.power = s.ctl.power ∧
      t.xport.gainSel = gainAfterInstr i s.xport.gainSel ∧ t.ctl.armed = false ∧ t.ctl.mon = .idle ∧
      t.xport.seq.active = false ∧ t.xport.xfer = none ∧ t.pins.pdSck = decide (t.ctl.power = .down)) ∧
    (t.eng ≠ .idle →
      t.cond = s.cond ∧ t.port.status = s.port.status ∧ t.port.result = s.port.result ∧
      t.port.busy = s.port.busy ∧ t.ctl.power = s.ctl.power ∧
      t.xport.gainSel = gainAfterInstr i s.xport.gainSel)

/-! ### The command port and the step -/

/-- R72, R96: when the machine takes up a code that decodes to `i`, its step is `exec i`: for a command word, of the state
in which the word is latched in `CMDREG` and `BUSY` is up; for an issued transfer, of the state itself. With nothing to take
up, neither a presented word while `BUSY` = 0 nor a transfer none of whose slots has run, the step is the next event and
nothing else. That the presentation is used up, and the list of events, are the model's choice (notes/assumptions/6.md and
3.md). -/
def Obligations.StepRunsTheDecodedInstruction : Prop :=
  ∀ s : State, s.pins.rst = false →
    (∀ i : Instr,
      s.xport.xfer = none → s.port.busy = false → s.pins.cmdValid = true → decode (.command s.pins.cmd) = .ok i →
      step s = exec i { s with pins.cmdValid := false, port.cmdReg := s.pins.cmd, port.busy := true }) ∧
    (∀ (i : Instr) (tx : Vector Byte 7), s.xport.xfer = some { tx := tx, slot := 0 } →
      decode (.pattern (patternWord tx)) = .ok i → step s = exec i s) ∧
    ((∀ x, s.xport.xfer = some x → x.slot ≠ 0) →
      (s.xport.xfer = none → s.port.busy = true ∨ s.pins.cmdValid = false) →
      (s.events = [] → step s = .next s) ∧
      ∀ (e : Event) (es : List Event), s.events = e :: es → step s = .next { tick e s with events := es })

/-- R72: acceptance. A word presented while `BUSY` = 0 is latched and its command executed; a word presented while
`BUSY` = 1 changes nothing. The word is presented and then taken; the block runs, so `RST` is low. -/
def Obligations.CommandPortAcceptsOnlyWhenIdle : Prop :=
  ∀ (s : State) (w : CommandWord), Inv s → s.pins.rst = false →
    (s.port.busy = false → ∃ u : State,
      u.port = { s.port with cmdReg := w, busy := true } ∧ u.eng = .idle ∧ u.cond = s.cond ∧ u.ctl = s.ctl ∧
      u.xport = s.xport ∧ u.link = s.link ∧ u.params = s.params ∧ u.events = s.events ∧
      u.pins.pdSck = s.pins.pdSck ∧ u.pins.dout = s.pins.dout ∧ u.pins.now = s.pins.now ∧
      ∀ i, decode (.command w) = .ok i → step (tick (.present w) s) = exec i u) ∧
    (s.port.busy = true → tick (.present w) s = s)

/-- R66, R155: a reserved opcode is accepted and fails with `IllegalCommand`: only `STATUS`, `RESULT`, `BUSY` and `CMDREG`
change, no session starts and no pin is driven. -/
def Obligations.ReservedOpcodeFails : Prop :=
  ∀ s : State, Inv s → s.pins.rst = false → s.port.busy = false → s.pins.cmdValid = true →
    (opField s.pins.cmd = 0x00 ∨ 0x0E ≤ (opField s.pins.cmd).toNat) →
    ∃ t, step s = .next t ∧
      t.port = { s.port with cmdReg := s.pins.cmd, result := none, status := 0x25, busy := false } ∧
      t.params = s.params ∧ t.xport = s.xport ∧ t.ctl = s.ctl ∧ t.cond = s.cond ∧ t.eng = s.eng ∧
      t.link = s.link ∧ t.pins.pdSck = s.pins.pdSck ∧ t.pins.dout = s.pins.dout ∧ t.pins.now = s.pins.now

/-! ### Reset -/

/-- R175: while `RST` is asserted, and at the instant it is released, every register holds its reset value; `DOUT` and
`NOW` are not affected, and no command is accepted. `State.reset` is such a state. That a word presented under `RST` is
dropped (notes/assumptions/6.md) and that a step under `RST` loads the values again (13.md) are the model's choice. -/
def Obligations.ResetLoadsEveryRegister : Prop :=
  HoldsResetValues State.reset ∧
  (∀ s : State, HoldsResetValues (tick (.rst true) s) ∧
    (tick (.rst true) s).pins.dout = s.pins.dout ∧ (tick (.rst true) s).pins.now = s.pins.now ∧
    HoldsResetValues (tick (.rst false) (tick (.rst true) s)) ∧
    ∀ w : CommandWord, tick (.present w) (tick (.rst true) s) = tick (.rst true) s) ∧
  (∀ s : State, s.pins.rst = true → ∃ t, step s = .next t ∧ HoldsResetValues t)

/-- R176: a reset during a command abandons it: the run of the command stops there, in the reset state, the clock line
goes low, and the record of the link shows a fall if it was high. That the record shows nothing when the line was low is
the model's choice (notes/assumptions/4.md). -/
def Obligations.ResetAbandonsTheCommand : Prop :=
  ∀ (s : State) (es : List Event), s.eng ≠ .idle → s.events = .rst true :: es →
    ∃ t, runCommand s = t ∧ HoldsResetValues t ∧ t.events = es ∧ t.params = s.params ∧
      t.link = if s.pins.pdSck then .drive false :: s.link else s.link

/-! ### Invariants -/

/-- R17, R18, R22, R23, R61, R67, R159, R192: the invariant holds after reset. -/
def Obligations.ResetSatisfiesInvariant : Prop :=
  ∀ (p : Params) (dout : Bool) (now : Timer), Inv (State.resetWith p dout now) ∧ Inv State.reset

/-- The invariant is kept by every step, from every state that meets it. -/
def Obligations.StepKeepsInvariant : Prop :=
  ∀ s t : State, Inv s → step s = .next t → Inv t

/-- R192: the block never halts: from a sound state a step always answers a next state. -/
def Obligations.TheBlockNeverHalts : Prop :=
  ∀ s : State, Inv s → ∃ t, step s = .next t

/-- R17, R24, R80, R192: between commands no session is in flight, the Monitor is idle, the sequencer and the transfer
are off, and the clock line is high exactly while powered down; during a session `BUSY` is up.
R27, R67, R68: `STATUS` is one of six words, read as class and cause; `RES_VALID` is 1 exactly when `RESULT` is not none, and
0 after every failure. `SensorTimeout` and `NoResponse` share the class and differ in the cause. -/
def Obligations.IdleBetweenCommands : Prop :=
  (∀ s : State, Inv s →
    (s.port.busy = false →
      s.ctl.armed = false ∧ s.ctl.mon = .idle ∧ s.xport.seq.active = false ∧ s.xport.seq.phase = .off ∧
      s.xport.xfer = none ∧ (s.ctl.power = .down ↔ s.pins.pdSck = true)) ∧
    (s.ctl.armed = true → s.port.busy = true ∧ s.ctl.power = .up) ∧
    (statusClass s.port.status, statusCause s.port.status) ∈
      [((0 : BitVec 4), (0 : BitVec 4)), (1, 1), (1, 2), (2, 3), (2, 4), (2, 5)] ∧
    (statusClass s.port.status ≠ 0 → s.resValid = false)) ∧
  (∀ s : State, s.resValid = true ↔ s.port.result ≠ none) ∧
  (∀ w : StatusWord, statusClass w ++ statusCause w = w) ∧
  (statusClass statusOk = 0 ∧ statusCause statusOk = 0) ∧
  (statusClass Failure.sensorTimeout.code = 1 ∧ statusCause Failure.sensorTimeout.code = 1) ∧
  (statusClass Failure.noResponse.code = 1 ∧ statusCause Failure.noResponse.code = 2) ∧
  (statusClass Failure.invalidConfiguration.code = 2 ∧ statusCause Failure.invalidConfiguration.code = 3) ∧
  (statusClass Failure.poweredDown.code = 2 ∧ statusCause Failure.poweredDown.code = 4) ∧
  (statusClass Failure.illegalCommand.code = 2 ∧ statusCause Failure.illegalCommand.code = 5)

/-- R111, R152: with this transport `NoResponse` never arises. That no session completes with the sentinel, a run the spec
lets a model add, is the model's choice (notes/assumptions/10.md). -/
def Obligations.NoResponseNeverArises : Prop :=
  ∀ s t : State, Inv s → step s = .next t → t.port.status = 0x12 → s.port.status = 0x12

/-- R4, R32: the parameters of an instance are fixed for its life. -/
def Obligations.ParametersAreFixed : Prop :=
  ∀ s t : State, step s = .next t → t.params = s.params

/-- R122, R130: in every run of a command with several reads the running sum stays within `n` samples, hence below
2^55. That `SUM` keeps its value when the command fails is the model's choice (notes/assumptions/7.md). -/
def Obligations.RunningSumFits : Prop :=
  ∀ (n : Nat) (i : Instr) (s t : State), i = .readAverage n ∨ i = .tare n → 0 < n → n < 2 ^ 32 →
    Sound s → s.eng = .idle → exec i s = .next t →
    t.port.sum.natAbs ≤ n * 2 ^ 23 ∧ t.port.sum.natAbs < 2 ^ 55

/-! ### Whole-machine rules -/

/-- R12, R20 to R24: which instructions write each persistent register, in every run without a reset. -/
def Obligations.OnlyTheNamedCommandsWriteARegister : Prop :=
  ∀ (i : Instr) (s t : State), Sound s → s.eng = .idle → Undisturbed s → exec i s = .next t →
    (i ∉ [.readLowpass, .getValue, .getUnits] → (∀ g, i ≠ .setGain g) → t.cond.filtered = s.cond.filtered) ∧
    ((∀ n, i ≠ .tare n) → (∀ p q, i ≠ .setOffset p q) → t.cond.offset = s.cond.offset) ∧
    ((∀ p q, i ≠ .setScale p q) → t.cond.scale = s.cond.scale) ∧
    ((∀ p q, i ≠ .setTimeConstant p q) → t.cond.tc = s.cond.tc) ∧
    t.xport.gainSel = gainAfterInstr i s.xport.gainSel ∧
    (i ≠ .powerDown → i ≠ .powerUp → t.ctl.power = s.ctl.power)

/-- R41, R55, R80, R85, R97: under every schedule and for every behaviour of `DOUT`, a `READ` that completes with `OK`
returns the 24 bits sampled in its session, the first in bit 23, and its frame has exactly `24 + GAINSEL` pulses. -/
def Obligations.ReadReportsTheSampledBits : Prop :=
  ∀ s t : State, Sound s → s.eng = .idle → s.ctl.power = .up → Undisturbed s →
    exec .read s = .next t → t.eng = .idle → t.port.status = 0x00 →
    ∃ seg : List LinkAccess, t.link = seg ++ s.link ∧
      (dataSamples s.params.transport seg.reverse).length = 24 ∧
      t.xport.raw = rawOf (assembled (dataSamples s.params.transport seg.reverse)) ∧
      t.port.result =
        some ((sampleOf (assembled (dataSamples s.params.transport seg.reverse)) : Int) : Rat) ∧
      risings false seg.reverse = 24 + extraPulses s.xport.gainSel

/-- R99: the two variants give the same logical result: with the same data words, whatever else their converters show and
however long they make the block wait, each command leaves the same conditioner registers, the same `RESULT`, `STATUS`
and `RAW`, and the same number of pulses. -/
def Obligations.VariantsAgree : Prop :=
  ∀ (i : Instr) (s u : State) (as bs : List Answer) (rest rest' : List Event),
    readsConverter i = true → readCount i < 2 ^ 32 → passesChecks i s →
    s.params.transport = .pulsegen → u.params.transport = .shiftreg →
    s.cond = u.cond → s.xport.gainSel = u.xport.gainSel →
    as.length = readCount i → as.map Answer.data = bs.map Answer.data →
    Scripted (withGain i s) as rest → Scripted (withGain i u) bs rest' →
    ∃ t v seg seg', exec i s = .next t ∧ exec i u = .next v ∧ t.cond = v.cond ∧
      t.port.result = v.port.result ∧ t.port.status = 0x00 ∧ v.port.status = 0x00 ∧ t.xport.raw = v.xport.raw ∧
      t.xport.gainSel = v.xport.gainSel ∧ t.link = seg ++ s.link ∧ v.link = seg' ++ u.link ∧
      risings false seg.reverse = risings false seg'.reverse

/-- R163: with a stopped timer and a converter that never becomes ready the Monitor polls forever: however many engine and
sequencer steps are taken, the command stays busy and writes nothing. -/
def Obligations.StoppedTimerHangs : Prop :=
  ∀ (s : State) (j : Job), s.eng = .watch j → s.params.transport = .pulsegen → s.pins.rst = false →
    s.xport.seq.phase = .waitReady → s.xport.seq.done = false → s.pins.dout ≠ s.params.readyLevel →
    (s.pins.now - s.ctl.start).toNat < s.params.deadlineMs →
    (∀ e ∈ s.events, e = .engine ∨ e = .seq) →
    runCommand s = { s with events := [], link := (runCommand s).link }

/-! ### The assembler -/

/-- R63 to R65, R70: the word of every line that assembles decodes to the line's command. -/
def Obligations.AssembledLinesDecodeBack : Prop :=
  ∀ (line : List Char) (a : AsmItem), assembleLine line = some (some a) →
    ∃ w, a.word = some w ∧ decodeCommand w = .ok a.instr
end

