-- ==== Sys2Proof/Laws/State.lean ====
section
/-! SUPPORT. What each shared operation does to each group of the state, one lemma per operation and group, so that no
later proof unfolds a record update. -/

namespace Sys2Proof.Machine

/-! ### `drive` -/

@[simp] theorem drive_params (b : Bool) (s : State) :
    (drive b s).params = s.params := rfl

@[simp] theorem drive_pins (b : Bool) (s : State) :
    (drive b s).pins = { s.pins with pdSck := b } := rfl

@[simp] theorem drive_xport (b : Bool) (s : State) :
    (drive b s).xport = s.xport := rfl

@[simp] theorem drive_ctl (b : Bool) (s : State) :
    (drive b s).ctl = s.ctl := rfl

@[simp] theorem drive_cond (b : Bool) (s : State) :
    (drive b s).cond = s.cond := rfl

@[simp] theorem drive_port (b : Bool) (s : State) :
    (drive b s).port = s.port := rfl

@[simp] theorem drive_eng (b : Bool) (s : State) :
    (drive b s).eng = s.eng := rfl

@[simp] theorem drive_events (b : Bool) (s : State) :
    (drive b s).events = s.events := rfl

@[simp] theorem drive_link (b : Bool) (s : State) :
    (drive b s).link = .drive b :: s.link := rfl

/-! ### `sampled` -/

@[simp] theorem sampled_params (s : State) :
    (sampled s).params = s.params := rfl

@[simp] theorem sampled_pins (s : State) :
    (sampled s).pins = s.pins := rfl

@[simp] theorem sampled_xport (s : State) :
    (sampled s).xport = s.xport := rfl

@[simp] theorem sampled_ctl (s : State) :
    (sampled s).ctl = s.ctl := rfl

@[simp] theorem sampled_cond (s : State) :
    (sampled s).cond = s.cond := rfl

@[simp] theorem sampled_port (s : State) :
    (sampled s).port = s.port := rfl

@[simp] theorem sampled_eng (s : State) :
    (sampled s).eng = s.eng := rfl

@[simp] theorem sampled_events (s : State) :
    (sampled s).events = s.events := rfl

@[simp] theorem sampled_link (s : State) :
    (sampled s).link = .sample s.pins.dout :: s.link := rfl

/-! ### `startSequencer` -/

@[simp] theorem startSequencer_params (s : State) :
    (startSequencer s).params = s.params := rfl

@[simp] theorem startSequencer_pins (s : State) :
    (startSequencer s).pins = s.pins := rfl

@[simp] theorem startSequencer_xport (s : State) :
    (startSequencer s).xport = { s.xport with
      seq := { nPulse := pulseCount s.xport.gainSel, pIdx := 0, done := false, phase := .waitReady, active := true } } := rfl

@[simp] theorem startSequencer_ctl (s : State) :
    (startSequencer s).ctl = s.ctl := rfl

@[simp] theorem startSequencer_cond (s : State) :
    (startSequencer s).cond = s.cond := rfl

@[simp] theorem startSequencer_port (s : State) :
    (startSequencer s).port = s.port := rfl

@[simp] theorem startSequencer_eng (s : State) :
    (startSequencer s).eng = s.eng := rfl

@[simp] theorem startSequencer_events (s : State) :
    (startSequencer s).events = s.events := rfl

@[simp] theorem startSequencer_link (s : State) :
    (startSequencer s).link = s.link := rfl

/-! ### `deactivate` -/

@[simp] theorem deactivate_params (s : State) :
    (deactivate s).params = s.params := rfl

@[simp] theorem deactivate_pins (s : State) :
    (deactivate s).pins = { s.pins with pdSck := false } := rfl

@[simp] theorem deactivate_xport (s : State) :
    (deactivate s).xport = { s.xport with seq := { s.xport.seq with active := false, phase := .off } } := rfl

@[simp] theorem deactivate_ctl (s : State) :
    (deactivate s).ctl = s.ctl := rfl

@[simp] theorem deactivate_cond (s : State) :
    (deactivate s).cond = s.cond := rfl

@[simp] theorem deactivate_port (s : State) :
    (deactivate s).port = s.port := rfl

@[simp] theorem deactivate_eng (s : State) :
    (deactivate s).eng = s.eng := rfl

@[simp] theorem deactivate_events (s : State) :
    (deactivate s).events = s.events := rfl

@[simp] theorem deactivate_link (s : State) :
    (deactivate s).link = .drive false :: s.link := rfl

/-! ### `endSession` -/

@[simp] theorem endSession_params (s : State) :
    (endSession s).params = s.params := rfl

@[simp] theorem endSession_pins (s : State) :
    (endSession s).pins = s.pins := rfl

@[simp] theorem endSession_xport (s : State) :
    (endSession s).xport = s.xport := rfl

@[simp] theorem endSession_ctl (s : State) :
    (endSession s).ctl = { s.ctl with armed := false, mon := .idle } := rfl

@[simp] theorem endSession_cond (s : State) :
    (endSession s).cond = s.cond := rfl

@[simp] theorem endSession_port (s : State) :
    (endSession s).port = s.port := rfl

@[simp] theorem endSession_eng (s : State) :
    (endSession s).eng = s.eng := rfl

@[simp] theorem endSession_events (s : State) :
    (endSession s).events = s.events := rfl

@[simp] theorem endSession_link (s : State) :
    (endSession s).link = s.link := rfl

/-! ### `accept` -/

@[simp] theorem accept_params (s : State) :
    (accept s).params = s.params := rfl

@[simp] theorem accept_pins (s : State) :
    (accept s).pins = { s.pins with cmdValid := false } := rfl

@[simp] theorem accept_xport (s : State) :
    (accept s).xport = s.xport := rfl

@[simp] theorem accept_ctl (s : State) :
    (accept s).ctl = s.ctl := rfl

@[simp] theorem accept_cond (s : State) :
    (accept s).cond = s.cond := rfl

@[simp] theorem accept_port (s : State) :
    (accept s).port = { s.port with cmdReg := s.pins.cmd, busy := true } := rfl

@[simp] theorem accept_eng (s : State) :
    (accept s).eng = s.eng := rfl

@[simp] theorem accept_events (s : State) :
    (accept s).events = s.events := rfl

@[simp] theorem accept_link (s : State) :
    (accept s).link = s.link := rfl

/-! ### `complete` -/

@[simp] theorem complete_params (v : Option Rat) (s : State) :
    (complete v s).params = s.params := rfl

@[simp] theorem complete_pins (v : Option Rat) (s : State) :
    (complete v s).pins = s.pins := rfl

@[simp] theorem complete_xport (v : Option Rat) (s : State) :
    (complete v s).xport = s.xport := rfl

@[simp] theorem complete_ctl (v : Option Rat) (s : State) :
    (complete v s).ctl = s.ctl := rfl

@[simp] theorem complete_cond (v : Option Rat) (s : State) :
    (complete v s).cond = s.cond := rfl

@[simp] theorem complete_port (v : Option Rat) (s : State) :
    (complete v s).port = { s.port with result := v, status := statusOk, busy := false } := rfl

@[simp] theorem complete_eng (v : Option Rat) (s : State) :
    (complete v s).eng = .idle := rfl

@[simp] theorem complete_events (v : Option Rat) (s : State) :
    (complete v s).events = s.events := rfl

@[simp] theorem complete_link (v : Option Rat) (s : State) :
    (complete v s).link = s.link := rfl

/-! ### `raise` -/

@[simp] theorem raise_params (c : Failure) (s : State) :
    (raise c s).params = s.params := rfl

@[simp] theorem raise_pins (c : Failure) (s : State) :
    (raise c s).pins = s.pins := rfl

@[simp] theorem raise_xport (c : Failure) (s : State) :
    (raise c s).xport = s.xport := rfl

@[simp] theorem raise_ctl (c : Failure) (s : State) :
    (raise c s).ctl = s.ctl := rfl

@[simp] theorem raise_cond (c : Failure) (s : State) :
    (raise c s).cond = s.cond := rfl

@[simp] theorem raise_port (c : Failure) (s : State) :
    (raise c s).port = { s.port with result := none, status := c.code, busy := false } := rfl

@[simp] theorem raise_eng (c : Failure) (s : State) :
    (raise c s).eng = .idle := rfl

@[simp] theorem raise_events (c : Failure) (s : State) :
    (raise c s).events = s.events := rfl

@[simp] theorem raise_link (c : Failure) (s : State) :
    (raise c s).link = s.link := rfl

/-! ### `issueTransfer` -/

@[simp] theorem issueTransfer_params (tx : Vector Byte 7) (s : State) :
    (issueTransfer tx s).params = s.params := rfl

@[simp] theorem issueTransfer_pins (tx : Vector Byte 7) (s : State) :
    (issueTransfer tx s).pins = s.pins := rfl

@[simp] theorem issueTransfer_xport (tx : Vector Byte 7) (s : State) :
    (issueTransfer tx s).xport = { s.xport with xfer := some { tx := tx, slot := 0 } } := rfl

@[simp] theorem issueTransfer_ctl (tx : Vector Byte 7) (s : State) :
    (issueTransfer tx s).ctl = s.ctl := rfl

@[simp] theorem issueTransfer_cond (tx : Vector Byte 7) (s : State) :
    (issueTransfer tx s).cond = s.cond := rfl

@[simp] theorem issueTransfer_port (tx : Vector Byte 7) (s : State) :
    (issueTransfer tx s).port = s.port := rfl

@[simp] theorem issueTransfer_eng (tx : Vector Byte 7) (s : State) :
    (issueTransfer tx s).eng = s.eng := rfl

@[simp] theorem issueTransfer_events (tx : Vector Byte 7) (s : State) :
    (issueTransfer tx s).events = s.events := rfl

@[simp] theorem issueTransfer_link (tx : Vector Byte 7) (s : State) :
    (issueTransfer tx s).link = s.link := rfl

/-! ### `filterSample` -/

@[simp] theorem filterSample_params (x : Int) (s : State) :
    (filterSample x s).params = s.params := rfl

@[simp] theorem filterSample_pins (x : Int) (s : State) :
    (filterSample x s).pins = s.pins := rfl

@[simp] theorem filterSample_xport (x : Int) (s : State) :
    (filterSample x s).xport = s.xport := rfl

@[simp] theorem filterSample_ctl (x : Int) (s : State) :
    (filterSample x s).ctl = s.ctl := rfl

@[simp] theorem filterSample_cond (x : Int) (s : State) :
    (filterSample x s).cond = { s.cond with filtered := filterStep s.cond.filtered s.cond.tc (widen x) } := rfl

@[simp] theorem filterSample_port (x : Int) (s : State) :
    (filterSample x s).port = s.port := rfl

@[simp] theorem filterSample_eng (x : Int) (s : State) :
    (filterSample x s).eng = s.eng := rfl

@[simp] theorem filterSample_events (x : Int) (s : State) :
    (filterSample x s).events = s.events := rfl

@[simp] theorem filterSample_link (x : Int) (s : State) :
    (filterSample x s).link = s.link := rfl

/-! ### `addSample` -/

@[simp] theorem addSample_params (x : Int) (s : State) :
    (addSample x s).params = s.params := rfl

@[simp] theorem addSample_pins (x : Int) (s : State) :
    (addSample x s).pins = s.pins := rfl

@[simp] theorem addSample_xport (x : Int) (s : State) :
    (addSample x s).xport = s.xport := rfl

@[simp] theorem addSample_ctl (x : Int) (s : State) :
    (addSample x s).ctl = s.ctl := rfl

@[simp] theorem addSample_cond (x : Int) (s : State) :
    (addSample x s).cond = s.cond := rfl

@[simp] theorem addSample_port (x : Int) (s : State) :
    (addSample x s).port = { s.port with sum := s.port.sum + x, cnt := s.port.cnt - 1 } := rfl

@[simp] theorem addSample_eng (x : Int) (s : State) :
    (addSample x s).eng = s.eng := rfl

@[simp] theorem addSample_events (x : Int) (s : State) :
    (addSample x s).events = s.events := rfl

@[simp] theorem addSample_link (x : Int) (s : State) :
    (addSample x s).link = s.link := rfl

/-! ### `arm` -/

@[simp] theorem arm_params (s : State) : (arm s).params = s.params := by
  unfold arm; cases s.params.transport <;> rfl

@[simp] theorem arm_pins (s : State) : (arm s).pins = s.pins := by
  unfold arm; cases s.params.transport <;> rfl

@[simp] theorem arm_xport (s : State) :
    (arm s).xport =
      { s.xport with
        acc := 0, raw := sentinel
        rx := if s.params.transport = .shiftreg then emptyRx else s.xport.rx
        polls := if s.params.transport = .shiftreg then 0 else s.xport.polls } := by
  unfold arm; cases s.params.transport <;> rfl

@[simp] theorem arm_ctl (s : State) :
    (arm s).ctl =
      { s.ctl with
        armed := true, mon := .armed
        start := if s.params.transport = .pulsegen then s.pins.now else s.ctl.start } := by
  unfold arm; cases s.params.transport <;> rfl

@[simp] theorem arm_cond (s : State) : (arm s).cond = s.cond := by
  unfold arm; cases s.params.transport <;> rfl

@[simp] theorem arm_port (s : State) : (arm s).port = s.port := by
  unfold arm; cases s.params.transport <;> rfl

@[simp] theorem arm_eng (s : State) : (arm s).eng = s.eng := by
  unfold arm; cases s.params.transport <;> rfl

@[simp] theorem arm_events (s : State) : (arm s).events = s.events := by
  unfold arm; cases s.params.transport <;> rfl

@[simp] theorem arm_link (s : State) : (arm s).link = s.link := by
  unfold arm; cases s.params.transport <;> rfl

/-! ### `readRaw` -/

/-- The call of `ReadRaw` while powered down (R120). -/
theorem readRaw_down (j : Job) (s : State) (h : s.ctl.power = .down) : readRaw j s = raise .poweredDown s := by
  simp [readRaw, h]

/-- The call of `ReadRaw` while powered up (R120). -/
theorem readRaw_up (j : Job) (s : State) (h : s.ctl.power = .up) : readRaw j s = { s with eng := .arm j } := by
  simp [readRaw, h]

/-- The call of `ReadRaw` writes no register but those of failure entry. -/
theorem readRaw_cases (j : Job) (s : State) :
    (s.ctl.power = .down ∧ readRaw j s = raise .poweredDown s) ∨
      (s.ctl.power = .up ∧ readRaw j s = { s with eng := .arm j }) := by
  cases h : s.ctl.power
  · exact .inr ⟨rfl, readRaw_up j s h⟩
  · exact .inl ⟨rfl, readRaw_down j s h⟩

@[simp] theorem readRaw_params (j : Job) (s : State) : (readRaw j s).params = s.params := by
  unfold readRaw; split <;> rfl

@[simp] theorem readRaw_pins (j : Job) (s : State) : (readRaw j s).pins = s.pins := by
  unfold readRaw; split <;> rfl

@[simp] theorem readRaw_xport (j : Job) (s : State) : (readRaw j s).xport = s.xport := by
  unfold readRaw; split <;> rfl

@[simp] theorem readRaw_ctl (j : Job) (s : State) : (readRaw j s).ctl = s.ctl := by
  unfold readRaw; split <;> rfl

@[simp] theorem readRaw_cond (j : Job) (s : State) : (readRaw j s).cond = s.cond := by
  unfold readRaw; split <;> rfl

@[simp] theorem readRaw_events (j : Job) (s : State) : (readRaw j s).events = s.events := by
  unfold readRaw; split <;> rfl

@[simp] theorem readRaw_link (j : Job) (s : State) : (readRaw j s).link = s.link := by
  unfold readRaw; split <;> rfl

end Sys2Proof.Machine
end

