-- ==== Sys2Proof/Laws/Decoder.lean ====
section
/-! SUPPORT. The range of a decoded sample. -/

namespace Sys2Proof.Machine

@[simp] theorem rawNr_rawOf (acc : Sample24) : rawNr (rawOf acc) = false := by
  simp [rawNr, rawOf]

@[simp] theorem rawData_rawOf (acc : Sample24) : rawData (rawOf acc) = acc := by
  apply BitVec.eq_of_getLsbD_eq
  intro i hi
  simp [rawData, rawOf, hi]
  omega

@[simp] theorem decodeSample_rawOf (acc : Sample24) : decodeSample (rawOf acc) = .ok (sampleOf acc) := by
  simp [decodeSample]

theorem sampleOf_range (d : Sample24) : -(2 ^ 23) ≤ sampleOf d ∧ sampleOf d < 2 ^ 23 := by
  have := d.isLt
  unfold sampleOf
  split <;> omega

theorem decodeSample_natAbs_le {raw : RawWord} {x : Int} (h : decodeSample raw = .ok x) : x.natAbs ≤ 2 ^ 23 := by
  unfold decodeSample at h
  split at h
  · cases h
  · cases h
    have := sampleOf_range (rawData raw)
    omega

end Sys2Proof.Machine
end

