-- ==== Sys2Proof/Laws/Bits.lean ====
section
/-! SUPPORT. Bits in and out of the accumulator and of the receive buffer. -/

namespace Sys2Proof.Machine

/-! ### Shifting bits in (R85) -/

theorem getLsbD_shiftIn {w : Nat} (acc : BitVec w) (d : Bool) (i : Nat) (h : i < w) :
    (shiftIn acc d).getLsbD i = if i = 0 then d else acc.getLsbD (i - 1) := by
  unfold shiftIn
  rcases Nat.eq_zero_or_pos i with rfl | hi
  · simp [h]
  · have : i ≠ 0 := by omega
    have h' : i - 1 < w := by omega
    simp [h, this, h']

theorem getLsbD_foldl_shiftIn {w : Nat} (bs : List Bool) (acc : BitVec w) (i : Nat) (h : i < w) :
    (bs.foldl shiftIn acc).getLsbD i =
      if hi : i < bs.length then bs[bs.length - 1 - i] else acc.getLsbD (i - bs.length) := by
  induction bs generalizing acc with
  | nil => simp
  | cons b bs ih =>
    rw [List.foldl_cons, ih]
    by_cases h1 : i < bs.length
    · have h2 : i < (b :: bs).length := by simp; omega
      rw [dif_pos h1, dif_pos h2]
      have : bs.length - i = (bs.length - 1 - i) + 1 := by omega
      simp [this]
    · rw [dif_neg h1, getLsbD_shiftIn _ _ _ (by omega)]
      by_cases h2 : i = bs.length
      · subst h2; simp
      · have h3 : ¬ i < (b :: bs).length := by simp; omega
        rw [dif_neg h3, if_neg (by omega)]
        congr 1

/-- The shift as arithmetic (R85). -/
theorem toNat_shiftIn {w : Nat} (acc : BitVec w) (d : Bool) :
    (shiftIn acc d).toNat = (2 * acc.toNat + d.toNat) % 2 ^ w := by
  have : shiftIn acc d = BitVec.ofNat w (2 * acc.toNat + d.toNat) := by
    apply BitVec.eq_of_getLsbD_eq
    intro i hi
    rw [getLsbD_shiftIn _ _ _ hi, BitVec.getLsbD_ofNat]
    simp only [hi, decide_true, Bool.true_and]
    cases i with
    | zero => cases d <;> simp [Nat.testBit_zero, Nat.add_mod]
    | succ i =>
      rw [Nat.testBit_succ]
      have : (2 * acc.toNat + d.toNat) / 2 = acc.toNat := by cases d <;> simp; omega
      rw [this]; simp [BitVec.testBit_toNat]
  rw [this, BitVec.toNat_ofNat]

@[simp] theorem bitsOf_length {w : Nat} (v : BitVec w) : (bitsOf v).length = w := by simp [bitsOf]

theorem bitsOf_getElem {w : Nat} (v : BitVec w) (i : Nat) (h : i < (bitsOf v).length) :
    (bitsOf v)[i] = v.getLsbD (w - 1 - i) := by
  simp [bitsOf]

/-- The bits of a pattern, shifted in most significant first, give the pattern back (R41, R85). -/
@[simp] theorem assembled_bitsOf (v : Sample24) : assembled (bitsOf v) = v := by
  apply BitVec.eq_of_getLsbD_eq
  intro i hi
  unfold assembled
  rw [getLsbD_foldl_shiftIn _ _ _ hi, dif_pos (by simpa using hi), bitsOf_getElem]
  congr 1; simp; omega

/-! ### The receive buffer (R43, R58 to R60) -/

theorem getLsbD_setBit (b : Byte) (k : Nat) (d : Bool) (i : Nat) (hi : i < 8) (hk : k < 8) :
    (setBit b k d).getLsbD i = if i = k then d else b.getLsbD i := by
  have : k = 0 ∨ k = 1 ∨ k = 2 ∨ k = 3 ∨ k = 4 ∨ k = 5 ∨ k = 6 ∨ k = 7 := by omega
  have : i = 0 ∨ i = 1 ∨ i = 2 ∨ i = 3 ∨ i = 4 ∨ i = 5 ∨ i = 6 ∨ i = 7 := by omega
  unfold setBit
  cases d <;> rcases ‹k = 0 ∨ _› with rfl | rfl | rfl | rfl | rfl | rfl | rfl | rfl <;>
    rcases ‹i = 0 ∨ _› with rfl | rfl | rfl | rfl | rfl | rfl | rfl | rfl <;> simp

theorem slotBit_lt (k : Fin 56) : slotBit k < 8 := by unfold slotBit; omega

/-- A slot's sample is read back from its own place and from no other (R43). -/
theorem rxSlot_storeSlot (rx : Vector Byte 7) (k m : Fin 56) (d : Bool) :
    rxSlot (storeSlot rx k d) m = if m = k then d else rxSlot rx m := by
  unfold rxSlot storeSlot
  by_cases hb : slotByte m = slotByte k
  · simp only [hb, Fin.getElem_fin, Vector.getElem_set_self]
    rw [getLsbD_setBit _ _ _ _ (slotBit_lt m) (slotBit_lt k)]
    have : slotBit m = slotBit k ↔ m = k := by
      simp only [slotByte, slotBit, Fin.mk.injEq] at *
      constructor
      · intro h; apply Fin.ext; omega
      · rintro rfl; rfl
    simp [this]
  · have hne : m ≠ k := by rintro rfl; exact hb rfl
    have hv : (slotByte k).val ≠ (slotByte m).val := fun h => hb (Fin.ext h.symm)
    simp [hne, Vector.getElem_set_ne, hv]

theorem getLsbD_rxNibble_fin : ∀ (b : Byte) (i : Fin 4),
    (rxNibble b).getLsbD i.val = b.getLsbD (2 * i.val) := by
  decide +kernel

/-- The nibble of a received byte is its even-position bits (R58, R59). -/
theorem getLsbD_rxNibble (b : Byte) (i : Nat) (hi : i < 4) : (rxNibble b).getLsbD i = b.getLsbD (2 * i) :=
  getLsbD_rxNibble_fin b ⟨i, hi⟩

theorem getLsbD_shiftNibble (acc : Sample24) (n : BitVec 4) (i : Nat) (hi : i < 24) :
    (shiftNibble acc n).getLsbD i = if i < 4 then n.getLsbD i else acc.getLsbD (i - 4) := by
  unfold shiftNibble
  by_cases h : i < 4
  · simp [h, hi]
  · have : n.getLsbD i = false := BitVec.getLsbD_of_ge _ _ (by omega)
    have h' : i - 4 < 24 := by omega
    simp [h, hi, this, h']

/-- The slot whose sample is the data bit of pulse `p + 1`: the low slot `2p + 1` (R43, R58). -/
def dataSlot (p : Fin 24) : Fin 56 := ⟨2 * p.val + 1, by omega⟩

/-- Bit `23 - p` of the decoded pattern is the sample of the low slot of pulse `p + 1` (R58, R60, R97). -/
theorem getLsbD_decodeRx (rx : Vector Byte 7) (p : Fin 24) :
    (decodeRx rx).getLsbD (23 - p.val) = rxSlot rx (dataSlot p) := by
  unfold decodeRx rxSlot
  simp only [List.foldl_cons, List.foldl_nil]
  obtain ⟨p, hp⟩ := p
  interval_cases p <;>
    · simp (disch := omega) only
        [getLsbD_shiftNibble, getLsbD_rxNibble, Nat.reduceSub, Nat.reduceLT, Nat.reduceMul, ↓reduceIte]
      simp [dataSlot, slotByte, slotBit]

end Sys2Proof.Machine
end

