-- ==== Sys2Proof/Laws/Run.lean ====
section
/-! SUPPORT. Runs along the events: how they begin, how they join, what they keep. -/

namespace Sys2Proof.Machine

/-! ### `runWhile` -/

@[simp] theorem runWhile_nil (p : State → Bool) (s : State) : runWhile p [] s = { s with events := [] } := rfl

theorem runWhile_cons (p : State → Bool) (e : Event) (es : List Event) (s : State) (h : p s = true) :
    runWhile p (e :: es) s = runWhile p es (tick e s) := by
  simp [runWhile, h]

/-- A run that may not begin leaves every event. -/
theorem runWhile_stop (p : State → Bool) (es : List Event) (s : State) (h : p s = false) :
    runWhile p es s = { s with events := es } := by
  cases es <;> simp [runWhile, h]

/-- The events not taken are the end of the list of events. -/
theorem runWhile_events_suffix (p : State → Bool) (es : List Event) (s : State) :
    (runWhile p es s).events <:+ es := by
  induction es generalizing s with
  | nil => simp
  | cons e es ih =>
    cases h : p s
    · simp [runWhile_stop p _ s h]
    · rw [runWhile_cons p e es s h]
      exact (ih _).trans (List.suffix_cons e es)

/-- What every event keeps, a run keeps, when the field `events` does not matter to it. -/
theorem runWhile_keeps (p : State → Bool) (P : State → Prop)
    (hevents : ∀ s es, P s → P { s with events := es })
    (htick : ∀ e s, P s → p s = true → P (tick e s)) :
    ∀ es s, P s → P (runWhile p es s)
  | [], s, h => hevents s [] h
  | e :: es, s, h => by
    cases hp : p s
    · rw [runWhile_stop p _ s hp]; exact hevents s _ h
    · rw [runWhile_cons p e es s hp]
      exact runWhile_keeps p P hevents htick es _ (htick e s h hp)

/-- A run stops where its condition fails, or has taken every event. -/
theorem runWhile_ends (p : State → Bool) (hevents : ∀ s es, p { s with events := es } = p s)
    (es : List Event) (s : State) :
    p (runWhile p es s) = false ∨ (runWhile p es s).events = [] := by
  induction es generalizing s with
  | nil => exact .inr rfl
  | cons e es ih =>
    cases h : p s
    · left; rw [runWhile_stop p _ s h, hevents, h]
    · rw [runWhile_cons p e es s h]; exact ih _

@[simp] theorem running_events (s : State) (es : List Event) :
    State.running { s with events := es } = s.running := rfl

@[simp] theorem transferring_events (s : State) (es : List Event) :
    State.transferring { s with events := es } = s.transferring := rfl

theorem running_of_eng {s : State} (h : s.eng ≠ .idle) : s.running = true := by
  simpa [State.running] using h

theorem not_running_iff (s : State) : s.running = false ↔ s.eng = .idle := by
  simp [State.running]

/-- A completed command takes no further event. -/
theorem runCommand_idle (s : State) (h : s.eng = .idle) : runCommand s = s := by
  unfold runCommand
  rw [runWhile_stop _ _ _ ((not_running_iff s).2 h)]

/-! ### One event at a time -/

@[simp] theorem tick_dout (b : Bool) (s : State) : tick (.dout b) s = { s with pins.dout := b } := rfl

@[simp] theorem tick_time (ms : Nat) (s : State) :
    tick (.time ms) s = { s with pins.now := s.pins.now + BitVec.ofNat 32 ms } := rfl

theorem tick_engine (s : State) (h : s.pins.rst = false) : tick .engine s = engineStep s := by
  simp [tick, h]

theorem tick_seq (s : State) (h : s.pins.rst = false) (ht : s.params.transport = .pulsegen) :
    tick .seq s = seqStep s := by
  simp [tick, h, ht]

theorem tick_xfer (s : State) (h : s.pins.rst = false) (ht : s.params.transport = .shiftreg) :
    tick .xfer s = xferStep s := by
  simp [tick, h, ht]

theorem tick_present (w : CommandWord) (s : State) : tick (.present w) s = present w s := rfl

theorem tick_rst (s : State) : tick (.rst true) s = underReset s := rfl

theorem tick_rst_release (s : State) : tick (.rst false) s = { s with pins.rst := false } := rfl

end Sys2Proof.Machine
end

