-- ==== Sys2Proof/Laws/Invariant.lean ====
section
/-! SUPPORT. Every event keeps the soundness of the block, one lemma per operation. -/

namespace Sys2Proof.Machine

/-! ### The ends of a command and of a read -/

/-- What is left of a sound state when the engine is set aside: the block between two sessions. -/
def Quiet (s : State) : Prop := Sound { s with eng := .idle }

theorem Sound.quiet {s : State} (h : Sound s) (he : s.eng = .idle) : Quiet s := by
  have : { s with eng := .idle } = s := by cases s; simp_all
  rw [Quiet, this]; exact h

theorem Sound.setEvents {s : State} (h : Sound s) (es : List Event) : Sound { s with events := es } :=
  ⟨h.1, h.2, h.3, h.4, h.5, h.6, h.7, h.8, h.9, h.10⟩

theorem Quiet.complete {s : State} (h : Quiet s) (v : Option Rat) : Sound (complete v s) where
  scale_ne_zero := h.scale_ne_zero
  tc_range := h.tc_range
  raw_control := h.raw_control
  status_legal := .inl rfl
  failure_none := fun hne => absurd rfl hne
  armed_iff := h.armed_iff
  monitor := h.monitor
  powered := h.powered
  transport := h.transport
  working := h.working

theorem Quiet.raise {s : State} (h : Quiet s) (c : Failure) : Sound (raise c s) where
  scale_ne_zero := h.scale_ne_zero
  tc_range := h.tc_range
  raw_control := h.raw_control
  status_legal := .inr ⟨c, rfl⟩
  failure_none := fun _ => rfl
  armed_iff := h.armed_iff
  monitor := h.monitor
  powered := h.powered
  transport := h.transport
  working := h.working

theorem Quiet.arm {s : State} (h : Quiet s) (j : Job) (hp : s.ctl.power = .up) (hj : JobSound j s) :
    Sound { s with eng := .arm j } where
  scale_ne_zero := h.scale_ne_zero
  tc_range := h.tc_range
  raw_control := h.raw_control
  status_legal := h.status_legal
  failure_none := h.failure_none
  armed_iff := h.armed_iff
  monitor := h.monitor
  powered := fun _ => hp
  transport := by
    have := h.transport
    simp only [TransportSound] at this ⊢
    refine ⟨this.1, this.2.1, ?_⟩
    rw [this.2.2, hp]; rfl
  working := by
    intro k hk
    cases hk
    cases j <;> exact hj

theorem Quiet.readRaw {s : State} (h : Quiet s) (j : Job) (hj : JobSound j s) : Sound (readRaw j s) := by
  rcases readRaw_cases j s with ⟨_, he⟩ | ⟨hp, he⟩ <;> rw [he]
  · exact h.raise _
  · exact h.arm j hp hj

/-- A write of the conditioner registers that keeps their invariants. -/
theorem Quiet.setCond {s : State} (h : Quiet s) (c : ConditionerRegs) (hs : c.scale ≠ 0)
    (ht : 0 < c.tc ∧ c.tc < 1) : Quiet { s with cond := c } :=
  ⟨hs, ht, h.3, h.4, h.5, h.6, h.7, h.8, h.9, h.10⟩

/-- The running sum is no concern of an idle block. -/
theorem Quiet.setSum {s : State} (h : Quiet s) (sum : Int) (cnt : BitVec 32) :
    Quiet { s with port.sum := sum, port.cnt := cnt } :=
  ⟨h.1, h.2, h.3, h.4, h.5, h.6, h.7, h.8, h.9, fun _ hj => nomatch hj⟩

/-! ### After a read -/

theorem sum_step {n : Nat} {s : State} {x : Int} (h : SumSound n s) (hx : x.natAbs ≤ 2 ^ 23)
    (hc : (addSample x s).port.cnt ≠ 0) : SumSound n (addSample x s) := by
  obtain ⟨h1, h2, h3⟩ := h
  have hpos : 1 ≤ s.port.cnt.toNat := by
    rcases Nat.eq_zero_or_pos s.port.cnt.toNat with h0 | h0
    · exact absurd (BitVec.eq_of_toNat_eq (by simpa using h0)) h1
    · exact h0
  have hcnt : (addSample x s).port.cnt.toNat = s.port.cnt.toNat - 1 := by
    simp only [addSample_port]
    rw [BitVec.toNat_sub]
    have := s.port.cnt.isLt
    simp; omega
  refine ⟨hc, by omega, ?_⟩
  rw [hcnt]
  simp only [addSample_port]
  have hsum : (s.port.sum + x).natAbs ≤ s.port.sum.natAbs + x.natAbs := Int.natAbs_add_le _ _
  have : n - (s.port.cnt.toNat - 1) = n - s.port.cnt.toNat + 1 := by omega
  rw [this]; omega

theorem Quiet.useSample {s : State} (h : Quiet s) {j : Job} {x : Int} (hj : JobSound j s)
    (hx : x.natAbs ≤ 2 ^ 23) : Sound (useSample j x s) := by
  cases j with
  | read => exact h.complete _
  | lowpass => exact (h.setCond _ (by exact h.scale_ne_zero) (by exact h.tc_range)).complete _
  | value => exact (h.setCond _ (by exact h.scale_ne_zero) (by exact h.tc_range)).complete _
  | units => exact (h.setCond _ (by exact h.scale_ne_zero) (by exact h.tc_range)).complete _
  | discard => exact h.readRaw _ trivial
  | seed => exact (h.setCond _ (by exact h.scale_ne_zero) (by exact h.tc_range)).complete _
  | average n =>
    have hq : Quiet (addSample x s) := h.setSum _ _
    simp only [Machine.useSample, averageLoop]
    split
    · exact hq.complete _
    · exact hq.readRaw _ (sum_step hj hx ‹_›)
  | tare n =>
    have hq : Quiet (addSample x s) := h.setSum _ _
    simp only [Machine.useSample, tareLoop]
    split
    · exact (hq.setCond _ (by exact h.scale_ne_zero) (by exact h.tc_range)).complete _
    · exact hq.readRaw _ (sum_step hj hx ‹_›)

theorem Quiet.sessionCompleted {s : State} (h : Quiet s) {j : Job} (hj : JobSound j s) :
    Sound (sessionCompleted j s) := by
  unfold Machine.sessionCompleted
  split
  · exact h.useSample hj (decodeSample_natAbs_le ‹_›)
  · exact h.raise _

/-- A session that has ended leaves the block quiet (R80, R92, R93). -/
theorem Sound.ended {s : State} (h : Sound s) (hp : s.ctl.power = .up) {m : Mon} :
    Quiet (endSession (deactivate { s with ctl.mon := m })) ∨ s.xport.xfer ≠ none := by
  by_cases hx : s.xport.xfer = none
  · left
    refine ⟨h.1, h.2, h.3, h.4, h.5, rfl, rfl, fun hne => absurd rfl hne, ?_, fun _ hj => nomatch hj⟩
    exact ⟨⟨rfl, rfl⟩, hx, by simp [hp]⟩
  · exact .inr hx

/-! ### The steps of the agents -/

theorem Sound.engineArm {s : State} (h : Sound s) {j : Job} (he : s.eng = .arm j) : Sound (engineArm j s) := by
  have ht := h.transport
  simp only [TransportSound, he] at ht
  have hj : JobSound j s := h.working j (by simp [he, Engine.job])
  have hp : s.ctl.power = .up := h.powered (by simp [he])
  unfold Machine.engineArm
  cases htr : s.params.transport
  · refine ⟨?_, ?_, ?_, ?_, ?_, ?_, ?_, ?_, ?_, ?_⟩
    · simpa using h.1
    · simpa using h.2
    · intro _; simp
    · simpa using h.4
    · simpa using h.5
    · simp [Engine.inSession]
    · simp [Engine.inSession]
    · simpa using hp
    · simp [TransportSound, htr, SequencerSound, ht]
    · intro k hk; cases hk; cases j <;> first | exact trivial | simpa [JobSound, SumSound] using hj
  · refine ⟨?_, ?_, ?_, ?_, ?_, ?_, ?_, ?_, ?_, ?_⟩
    · simpa using h.1
    · simpa using h.2
    · intro _; simp
    · simpa using h.4
    · simpa using h.5
    · simp [Engine.inSession]
    · simp [Engine.inSession]
    · simpa using hp
    · simpa [TransportSound, htr, SequencerOff] using ht
    · intro k hk; cases hk; cases j <;> first | exact trivial | simpa [JobSound, SumSound] using hj

theorem Sound.monitorPoll {s : State} (h : Sound s) {j : Job} (he : s.eng = .watch j) :
    Sound (monitorPoll j s) := by
  have ht := h.transport
  simp only [TransportSound, he] at ht
  have hj : JobSound j s := h.working j (by simp [he, Engine.job])
  have hp : s.ctl.power = .up := h.powered (by simp [he])
  have hq : ∀ m, Quiet (endSession (deactivate { s with ctl.mon := m })) := fun m =>
    (h.ended hp).resolve_right (fun hne => hne ht.2.2.1)
  unfold Machine.monitorPoll
  split
  · refine (hq _).sessionCompleted ?_
    cases j <;> exact hj
  · split
    · exact (hq _).raise _
    · exact h

theorem Sound.readyPoll {s : State} (h : Sound s) {j : Job} (he : s.eng = .poll j) : Sound (readyPoll j s) := by
  have ht := h.transport
  simp only [TransportSound, he] at ht
  obtain ⟨htr, hoff, hx, hl, hb, hr⟩ := ht
  have hj : JobSound j s := h.working j (by simp [he, Engine.job])
  have hp : s.ctl.power = .up := h.powered (by simp [he])
  have ha : s.ctl.armed = true := by rw [h.armed_iff, he]; rfl
  have hm : s.ctl.mon = .armed := by rw [h.monitor, he]; rfl
  have hc : ∀ t : State, t.port = s.port → JobSound j t := fun t ht => by
    cases j <;> first | exact trivial | simpa [JobSound, SumSound, ht] using hj
  unfold Machine.readyPoll
  split
  · rename_i hlt
    split
    · exact ⟨h.1, h.2, h.3, h.4, h.5, by simpa [Engine.inSession] using ha,
        by simpa [Engine.inSession] using hm, fun _ => hp, by simp [TransportSound, htr, hr, SequencerOff] ; exact hoff,
        fun k hk => by cases hk; exact hc _ rfl⟩
    · refine ⟨h.1, h.2, h.3, h.4, h.5, h.6, h.7, h.8, ?_, ?_⟩
      · simp only [TransportSound, sampled_eng, he]
        exact ⟨htr, hoff, hx, hl, hlt, hr⟩
      · intro k hk
        simp only [sampled_eng, he, Engine.job] at hk
        cases hk; exact hc _ rfl
  · have hq : Quiet (endSession { s with ctl.mon := .timedOut }) :=
      ⟨h.1, h.2, h.3, h.4, h.5, rfl, rfl, fun hne => absurd rfl hne,
        ⟨hoff, hx, by simpa [hp] using hl⟩, fun _ hj => nomatch hj⟩
    exact hq.raise _

theorem Sound.transferWait {s : State} (h : Sound s) {j : Job} (he : s.eng = .transfer j) :
    Sound (transferWait j s) := by
  have ht := h.transport
  simp only [TransportSound, he] at ht
  obtain ⟨htr, hoff, hr, hx⟩ := ht
  have hj : JobSound j s := h.working j (by simp [he, Engine.job])
  have hp : s.ctl.power = .up := h.powered (by simp [he])
  unfold Machine.transferWait
  split
  · exact h
  · rename_i hn
    simp only [hn] at hx
    have hq : Quiet (endSession
        { s with
          xport.acc := decodeRx s.xport.rx, xport.raw := rawOf (decodeRx s.xport.rx)
          ctl.mon := .completed }) :=
      ⟨h.1, h.2, fun hnr => by simp at hnr, h.4, h.5, rfl, rfl, fun hne => absurd rfl hne,
        ⟨hoff, hn, by simpa [hp] using hx⟩, fun _ hj => nomatch hj⟩
    exact hq.sessionCompleted (j := j) (by cases j <;> exact hj)

theorem Sound.engineStep {s : State} (h : Sound s) : Sound (engineStep s) := by
  unfold Machine.engineStep
  split
  · exact h
  · exact h.engineArm ‹_›
  · exact h.monitorPoll ‹_›
  · exact h.readyPoll ‹_›
  · exact h.transferWait ‹_›

/-- A step of SEQ keeps everything but the transport registers, the clock line and the link record. -/
theorem Sound.ofSequencer {s : State} (h : Sound s) {j : Job} (he : s.eng = .watch j) {p : Bool}
    {x : TransportRegs} {l : List LinkAccess}
    (hact : x.seq.active = true) (hx : x.xfer = none)
    (hnr : rawNr x.raw = true → x.raw = sentinel)
    (hseq : SequencerSound { s with pins.pdSck := p, xport := x, link := l }) :
    Sound { s with pins.pdSck := p, xport := x, link := l } := by
  have ht := h.transport
  simp only [TransportSound, he] at ht
  refine ⟨h.1, h.2, hnr, h.4, h.5, h.6, h.7, h.8, ?_, h.10⟩
  simp only [TransportSound, he]
  exact ⟨ht.1, hact, hx, hseq⟩

theorem pulseCount_range (g : GainSel) : 25 ≤ (pulseCount g).toNat ∧ (pulseCount g).toNat ≤ 27 := by
  cases g <;> decide

theorem Sound.seqStep {s : State} (h : Sound s) : Sound (seqStep s) := by
  unfold Machine.seqStep
  split
  case isFalse => exact h
  rename_i hact
  obtain ⟨j, he⟩ : ∃ j, s.eng = .watch j := by
    have ht := h.transport
    cases hs : s.eng <;> simp only [TransportSound, hs, SequencerOff] at ht
    case watch j => exact ⟨j, rfl⟩
    all_goals simp_all
  have ht := h.transport
  simp only [TransportSound, he] at ht
  obtain ⟨htr, -, hx, hn, hph⟩ := ht
  have hr := pulseCount_range s.xport.gainSel
  split
  · rename_i hphase
    simp only [hphase] at hph
    obtain ⟨hi, hd, hl, hraw⟩ := hph
    unfold seqWaitReady
    split
    · refine h.ofSequencer he hact hx h.3 ⟨hn, ?_⟩
      simp only
      refine ⟨by decide, ?_, hd, trivial, hraw⟩
      show (1 : BitVec 5).toNat ≤ s.xport.seq.nPulse.toNat
      rw [hn]
      exact Nat.le_trans (by decide) hr.1
    · refine h.ofSequencer he (p := s.pins.pdSck) (x := s.xport) hact hx h.3 ⟨hn, ?_⟩
      simp only [hphase]
      exact ⟨hi, hd, hl, hraw⟩
  · rename_i hphase
    simp only [hphase] at hph
    obtain ⟨h1, h2, hd, hl, hraw⟩ := hph
    unfold seqHigh
    split
    · exact h.ofSequencer he hact hx h.3 ⟨hn, ⟨h1, h2, hd, rfl, hraw⟩⟩
    · exact h.ofSequencer he hact hx h.3 ⟨hn, ⟨h1, h2, hd, rfl, hraw⟩⟩
  · rename_i hphase
    simp only [hphase] at hph
    obtain ⟨h1, h2, hd, hl, hraw⟩ := hph
    unfold seqLow
    split
    · rename_i hlt
      refine h.ofSequencer he hact hx h.3 ⟨hn, ?_⟩
      have : (s.xport.seq.pIdx + 1).toNat = s.xport.seq.pIdx.toNat + 1 := by
        rw [BitVec.toNat_add]; rw [hn] at hlt; simp; omega
      refine ⟨?_, ?_, hd, rfl, hraw⟩ <;> simp only [this] <;> omega
    · split
      · rename_i heq
        exact h.ofSequencer he (p := s.pins.pdSck) hact hx (fun hc => by simp at hc)
          ⟨hn, ⟨heq, rfl, hl, rfl⟩⟩
      · exact h
  · exact h
  · exact h

theorem Sound.xferStep {s : State} (h : Sound s) : Sound (xferStep s) := by
  unfold Machine.xferStep
  split
  case h_2 => exact h
  rename_i x hx
  obtain ⟨j, he⟩ : ∃ j, s.eng = .transfer j := by
    have ht := h.transport
    cases hs : s.eng <;> simp only [TransportSound, hs] at ht
    case transfer j => exact ⟨j, rfl⟩
    all_goals simp_all
  have ht := h.transport
  simp only [TransportSound, he, hx] at ht
  obtain ⟨htr, hoff, hr, htx⟩ := ht
  unfold xferSlot
  simp only
  split
  · refine ⟨h.1, h.2, h.3, h.4, h.5, h.6, h.7, h.8, ?_, h.10⟩
    simp only [TransportSound, sampled_eng, drive_eng, he]
    exact ⟨htr, hoff, hr, htx⟩
  · refine ⟨h.1, h.2, h.3, h.4, h.5, h.6, h.7, h.8, ?_, h.10⟩
    simp only [TransportSound, sampled_eng, drive_eng, he]
    exact ⟨htr, hoff, hr, rfl⟩

theorem sound_resetWith (p : Params) (d : Bool) (t : Timer) : Sound (State.resetWith p d t) where
  scale_ne_zero := by simp [State.resetWith, Config.scaleReset]
  tc_range := by
    have : 0 < Config.tcReset ∧ Config.tcReset < 1 := by decide +kernel
    exact this
  raw_control := fun _ => rfl
  status_legal := .inl rfl
  failure_none := fun h => absurd rfl h
  armed_iff := rfl
  monitor := rfl
  powered := fun h => absurd rfl h
  transport := ⟨⟨rfl, rfl⟩, rfl, rfl⟩
  working := fun _ h => nomatch h

theorem sound_underReset (s : State) : Sound (underReset s) := by
  have h := sound_resetWith s.params s.pins.dout s.pins.now
  exact ⟨h.1, h.2, h.3, h.4, h.5, h.6, h.7, h.8, h.9, h.10⟩

/-- Every event keeps a sound block sound. -/
theorem Sound.tick {s : State} (h : Sound s) (e : Event) : Sound (tick e s) := by
  cases e with
  | dout b => exact ⟨h.1, h.2, h.3, h.4, h.5, h.6, h.7, h.8, h.9, h.10⟩
  | time ms => exact ⟨h.1, h.2, h.3, h.4, h.5, h.6, h.7, h.8, h.9, h.10⟩
  | present w =>
    simp only [tick_present, present]
    split
    · exact h
    · exact ⟨h.1, h.2, h.3, h.4, h.5, h.6, h.7, h.8, h.9, h.10⟩
  | rst b =>
    cases b
    · exact ⟨h.1, h.2, h.3, h.4, h.5, h.6, h.7, h.8, h.9, h.10⟩
    · exact sound_underReset s
  | engine => simp only [Machine.tick]; split <;> first | exact h | exact h.engineStep
  | seq => simp only [Machine.tick]; split <;> first | exact h.seqStep | exact h
  | xfer => simp only [Machine.tick]; split <;> first | exact h.xferStep | exact h

/-! ### `BUSY` (R25, R73) -/

/-- `BUSY` tells whether a command runs. -/
def BusySound (s : State) : Prop := s.port.busy = s.running

theorem BusySound.readRaw (j : Job) {s : State} (hb : s.port.busy = true) : BusySound (readRaw j s) := by
  rcases readRaw_cases j s with ⟨_, he⟩ | ⟨_, he⟩ <;> rw [he]
  · rfl
  · simp [BusySound, State.running, hb]

theorem BusySound.useSample (j : Job) (x : Int) {s : State} (hb : s.port.busy = true) :
    BusySound (useSample j x s) := by
  cases j with
  | read => rfl
  | lowpass => rfl
  | value => rfl
  | units => rfl
  | seed => rfl
  | discard => exact BusySound.readRaw _ hb
  | average n =>
    simp only [Machine.useSample, averageLoop]
    split
    · rfl
    · exact BusySound.readRaw _ hb
  | tare n =>
    simp only [Machine.useSample, tareLoop]
    split
    · rfl
    · exact BusySound.readRaw _ hb

theorem BusySound.sessionCompleted (j : Job) {s : State} (hb : s.port.busy = true) :
    BusySound (sessionCompleted j s) := by
  unfold Machine.sessionCompleted
  split
  · exact BusySound.useSample _ _ hb
  · rfl

theorem BusySound.engineStep {s : State} (h : BusySound s) : BusySound (engineStep s) := by
  have hb : s.eng ≠ .idle → s.port.busy = true := fun he => h.trans (running_of_eng he)
  unfold Machine.engineStep
  split
  · exact h
  · have := hb (by simp [*])
    unfold Machine.engineArm
    split <;> simp [BusySound, State.running, this]
  · have := hb (by simp [*])
    unfold Machine.monitorPoll
    split
    · exact BusySound.sessionCompleted _ this
    · split
      · rfl
      · exact h
  · have := hb (by simp [*])
    unfold Machine.readyPoll
    split
    · simp only
      split <;> simp [BusySound, State.running, *]
    · rfl
  · have := hb (by simp [*])
    unfold Machine.transferWait
    split
    · exact h
    · exact BusySound.sessionCompleted _ this

@[simp] theorem seqStep_eng (s : State) : (seqStep s).eng = s.eng := by
  unfold Machine.seqStep seqWaitReady seqHigh seqLow
  repeat' split
  all_goals simp

@[simp] theorem seqStep_port (s : State) : (seqStep s).port = s.port := by
  unfold Machine.seqStep seqWaitReady seqHigh seqLow
  repeat' split
  all_goals simp

@[simp] theorem xferStep_eng (s : State) : (xferStep s).eng = s.eng := by
  unfold Machine.xferStep xferSlot
  split
  · simp only; split <;> simp
  · rfl

@[simp] theorem xferStep_port (s : State) : (xferStep s).port = s.port := by
  unfold Machine.xferStep xferSlot
  split
  · simp only; split <;> simp
  · rfl

/-! ### The invariant -/

theorem Inv.setEvents {s : State} (h : Inv s) (es : List Event) : Inv { s with events := es } :=
  ⟨h.sound.setEvents es, h.busy_iff⟩

theorem Inv.idle {s : State} (h : Inv s) (hb : s.port.busy = false) : s.eng = .idle :=
  (not_running_iff s).1 (h.busy_iff.symm.trans hb)

/-- Every event keeps the invariant. -/
theorem Inv.tick {s : State} (h : Inv s) (e : Event) : Inv (tick e s) := by
  refine ⟨h.sound.tick e, ?_⟩
  have hb := h.busy_iff
  cases e with
  | dout b => exact hb
  | time ms => exact hb
  | present w => simp only [Machine.tick, present]; split <;> exact hb
  | rst b => cases b <;> first | exact hb | rfl
  | engine => simp only [Machine.tick]; split <;> first | exact hb | exact BusySound.engineStep hb
  | seq => simp only [Machine.tick]; split <;> simp [State.running] <;> exact hb
  | xfer => simp only [Machine.tick]; split <;> simp [State.running] <;> exact hb

/-- A run along events keeps the invariant. -/
theorem Inv.runWhile {s : State} (h : Inv s) (p : State → Bool) (es : List Event) : Inv (runWhile p es s) :=
  runWhile_keeps p Inv (fun _ es h => h.setEvents es) (fun e _ h _ => h.tick e) es s h

end Sys2Proof.Machine
end

