-- ==== Sys2Proof/Laws/Session.lean ====
section
/-! SUPPORT. What one scripted session does, in each variant: the run over the whole script is one step to the use of the
sample. -/

namespace Sys2Proof.Machine

/-! ### `PULSEGEN` -/

/-- The state after one data pulse and the next rising transition (R84, R86). -/
def pulsed (s : State) (d : Bool) : State :=
  { s with
    pins.dout := d, pins.pdSck := true
    xport.acc := shiftIn s.xport.acc d
    xport.seq.pIdx := s.xport.seq.pIdx + 1, xport.seq.phase := .high
    link := .drive true :: .drive false :: .sample d :: s.link }

/-- A sequencer inside a pulse, with the engine at the Monitor loop. -/
structure InPulse (s : State) (j : Job) : Prop where
  eng : s.eng = .watch j
  rst : s.pins.rst = false
  transport : s.params.transport = .pulsegen
  active : s.xport.seq.active = true
  phase : s.xport.seq.phase = .high

theorem run_pulse {s : State} {j : Job} (h : InPulse s j) (d : Bool) (es : List Event)
    (h24 : s.xport.seq.pIdx.toNat ≤ 24) (hlt : s.xport.seq.pIdx.toNat < s.xport.seq.nPulse.toNat) :
    runWhile State.running (pulseEvents d ++ es) s = runWhile State.running es (pulsed s d) := by
  obtain ⟨he, hr, ht, ha, hp⟩ := h
  simp only [pulseEvents, List.cons_append, List.nil_append]
  rw [runWhile_cons _ _ _ _ (by simp [State.running, he]), runWhile_cons _ _ _ _ (by simp [State.running, he]),
    runWhile_cons _ _ _ _ (by simp [State.running, he, tick, hr, ht, seqStep, ha, hp, seqHigh, h24])]
  congr 1
  simp [tick, hr, ht, seqStep, ha, hp, seqHigh, seqLow, h24, hlt, drive, sampled, pulsed]

theorem InPulse.pulsed {s : State} {j : Job} (h : InPulse s j) (d : Bool) : InPulse (pulsed s d) j :=
  ⟨h.eng, h.rst, h.transport, h.active, rfl⟩

theorem run_pulses {j : Job} (bs : List Bool) (es : List Event) : ∀ (s : State), InPulse s j →
    s.xport.seq.pIdx.toNat + bs.length ≤ 25 → 25 ≤ s.xport.seq.nPulse.toNat →
    runWhile State.running (bs.flatMap pulseEvents ++ es) s =
      runWhile State.running es (bs.foldl Machine.pulsed s) := by
  induction bs with
  | nil => intro s _ _ _; rfl
  | cons b bs ih =>
    intro s h hlen hn
    simp only [List.length_cons] at hlen
    rw [List.flatMap_cons, List.append_assoc, run_pulse h b _ (by omega) (by omega), List.foldl_cons]
    refine ih _ (h.pulsed b) ?_ hn
    have : (pulsed s b).xport.seq.pIdx.toNat = s.xport.seq.pIdx.toNat + 1 := by
      simp only [Machine.pulsed]
      rw [BitVec.toNat_add]
      simp; omega
    omega

/-- The link record of the data pulses, newest first (R84, R86). -/
def dataLink (bs : List Bool) (l : List LinkAccess) : List LinkAccess :=
  bs.foldl (fun l d => .drive true :: .drive false :: .sample d :: l) l

/-- The state after any number of data pulses. -/
def dataDone (bs : List Bool) (s : State) : State :=
  { s with
    pins.dout := bs.foldl (fun _ d => d) s.pins.dout
    xport.acc := bs.foldl shiftIn s.xport.acc
    xport.seq.pIdx := s.xport.seq.pIdx + BitVec.ofNat 5 bs.length
    link := dataLink bs s.link }

theorem foldl_pulsed (bs : List Bool) (s : State) (hl : s.pins.pdSck = true) (hp : s.xport.seq.phase = .high) :
    bs.foldl Machine.pulsed s = dataDone bs s := by
  unfold dataDone dataLink
  induction bs generalizing s with
  | nil => simp
  | cons b bs ih =>
    rw [List.foldl_cons, ih _ rfl rfl]
    simp only [Machine.pulsed, List.foldl_cons, List.length_cons]
    have : s.xport.seq.pIdx + 1 + BitVec.ofNat 5 bs.length = s.xport.seq.pIdx + BitVec.ofNat 5 (bs.length + 1) := by
      rw [BitVec.ofNat_add, BitVec.add_assoc, BitVec.add_comm 1]
      rfl
    rw [this]
    cases s with
    | mk params pins xport ctl cond port eng events link =>
      cases pins; cases xport with
      | mk gainSel acc raw seq rx polls xfer => cases seq; simp_all

/-- The link record of the ready wait of a `PULSEGEN` session and the first rise, newest first (R83). -/
def readyLink (r : Bool) (wait : Nat) (l : List LinkAccess) : List LinkAccess :=
  .drive true :: .sample r :: (List.replicate wait (.sample (!r)) ++ l)

/-- The link record of the extra pulses and of the deactivation, newest first (R87, R92). -/
def extraLink (g : GainSel) (l : List LinkAccess) : List LinkAccess :=
  match g with
  | .offset1 => .drive false :: .drive false :: l
  | .offset2 => .drive false :: .drive false :: .drive true :: .drive false :: l
  | .offset3 => .drive false :: .drive false :: .drive true :: .drive false :: .drive true :: .drive false :: l

/-- The state in which a scripted `PULSEGEN` session hands over its sample. -/
def pulsegenDone (a : Answer) (j : Job) (s : State) : State :=
  { s with
    pins.dout := (bitsOf a.data).foldl (fun _ d => d) s.params.readyLevel
    pins.pdSck := false
    xport.acc := a.data
    xport.raw := rawOf a.data
    xport.seq :=
      { active := false, nPulse := pulseCount s.xport.gainSel, phase := .off
        pIdx := pulseCount s.xport.gainSel, done := true }
    ctl.armed := false, ctl.mon := .idle, ctl.start := s.pins.now
    eng := .watch j
    link := extraLink s.xport.gainSel
      (dataLink (bitsOf a.data) (readyLink s.params.readyLevel a.wait s.link)) }

/-- The ready wait: any number of looks that find the converter not ready (R83). -/
theorem run_wait {j : Job} (n : Nat) (es : List Event) : ∀ (s : State), s.eng = .watch j → s.pins.rst = false →
    s.params.transport = .pulsegen → s.xport.seq.active = true → s.xport.seq.phase = .waitReady →
    s.pins.dout = (!s.params.readyLevel) →
    runWhile State.running (List.replicate n .seq ++ es) s =
      runWhile State.running es
        { s with link := List.replicate n (.sample (!s.params.readyLevel)) ++ s.link } := by
  induction n with
  | zero => intro s _ _ _ _ _ _; rfl
  | succ n ih =>
    intro s he hr ht ha hp hd
    have hready : s.ready = false := by simp [State.ready, hd]
    rw [List.replicate_succ, List.cons_append, runWhile_cons _ _ _ _ (by simp [State.running, he])]
    have : tick .seq s = sampled s := by simp [tick, hr, ht, seqStep, ha, hp, seqWaitReady, hready]
    rw [this, ih (sampled s) he hr ht ha hp hd]
    congr 1
    simp only [sampled, hd]
    rw [List.replicate_succ', List.append_assoc]
    rfl

/-- The state after one extra pulse and the next rising transition (R87). -/
def extraPulsed (s : State) : State :=
  { s with
    pins.pdSck := true
    xport.seq.pIdx := s.xport.seq.pIdx + 1, xport.seq.phase := .high
    link := .drive true :: .drive false :: s.link }

theorem InPulse.extraPulsed {s : State} {j : Job} (h : InPulse s j) : InPulse (extraPulsed s) j :=
  ⟨h.eng, h.rst, h.transport, h.active, rfl⟩

theorem run_extraPulse {s : State} {j : Job} (h : InPulse s j) (es : List Event)
    (h24 : 24 < s.xport.seq.pIdx.toNat) (hlt : s.xport.seq.pIdx.toNat < s.xport.seq.nPulse.toNat) :
    runWhile State.running (.seq :: .seq :: es) s = runWhile State.running es (extraPulsed s) := by
  obtain ⟨he, hr, ht, ha, hp⟩ := h
  have h24' : ¬ s.xport.seq.pIdx.toNat ≤ 24 := by omega
  rw [runWhile_cons _ _ _ _ (by simp [State.running, he]),
    runWhile_cons _ _ _ _ (by simp [State.running, he, tick, hr, ht, seqStep, ha, hp, seqHigh, h24'])]
  congr 1
  simp [tick, hr, ht, seqStep, ha, hp, seqHigh, seqLow, h24', hlt, drive, extraPulsed]

/-- The state after the last pulse has fallen and the sequencer has finished (R88). -/
def finished (s : State) : State :=
  { s with
    pins.pdSck := false
    xport.raw := rawOf s.xport.acc
    xport.seq.done := true, xport.seq.phase := .done
    link := .drive false :: s.link }

theorem run_lastPulse {s : State} {j : Job} (h : InPulse s j) (es : List Event)
    (h24 : 24 < s.xport.seq.pIdx.toNat) (heq : s.xport.seq.pIdx = s.xport.seq.nPulse) :
    runWhile State.running (.seq :: .seq :: es) s = runWhile State.running es (finished s) := by
  obtain ⟨he, hr, ht, ha, hp⟩ := h
  have h24' : ¬ s.xport.seq.nPulse.toNat ≤ 24 := by rw [← heq]; omega
  rw [runWhile_cons _ _ _ _ (by simp [State.running, he]),
    runWhile_cons _ _ _ _ (by simp [State.running, he, tick, hr, ht, seqStep, ha, hp, seqHigh, h24', heq])]
  congr 1
  simp [tick, hr, ht, seqStep, ha, hp, seqHigh, seqLow, h24', heq, drive, finished]

/-- A poll of the Monitor that sees `SEQ.DONE` (R91 to R93). -/
theorem run_completingPoll {s : State} {j : Job} (he : s.eng = .watch j) (hr : s.pins.rst = false)
    (hd : s.xport.seq.done = true) (es : List Event) :
    runWhile State.running (.engine :: es) s =
      runWhile State.running es
        (sessionCompleted j (endSession (deactivate { s with ctl.mon := .completed }))) := by
  rw [runWhile_cons _ _ _ _ (by simp [State.running, he])]
  simp [tick, hr, engineStep, he, monitorPoll, hd]

/-- The end of a `PULSEGEN` frame: the extra pulses and the Monitor's poll (R84, R86 to R88, R91 to R93). -/
theorem run_extra {s : State} {j : Job} (h : InPulse s j) (es : List Event) (h25 : s.xport.seq.pIdx = 25)
    (hn : s.xport.seq.nPulse = pulseCount s.xport.gainSel) :
    runWhile State.running (List.replicate (2 * extraPulses s.xport.gainSel) .seq ++ .engine :: es) s =
      runWhile State.running es (sessionCompleted j
        { s with
          pins.pdSck := false
          xport.raw := rawOf s.xport.acc
          xport.seq :=
            { active := false, nPulse := pulseCount s.xport.gainSel, phase := .off
              pIdx := pulseCount s.xport.gainSel, done := true }
          ctl.armed := false, ctl.mon := .idle
          link := extraLink s.xport.gainSel s.link }) := by
  cases hg : s.xport.gainSel <;> rw [hg] at hn
  · show runWhile State.running (.seq :: .seq :: .engine :: es) s = _
    rw [run_lastPulse h _ (by rw [h25]; decide) (by rw [h25, hn]; rfl),
      run_completingPoll (j := j) (by simpa [finished] using h.eng) (by simpa [finished] using h.rst) rfl]
    congr 2
    simp [finished, endSession, deactivate, drive, extraLink, hn, h25, pulseCount, gainCode]
  · show runWhile State.running (.seq :: .seq :: .seq :: .seq :: .engine :: es) s = _
    rw [run_extraPulse h _ (by rw [h25]; decide) (by rw [h25, hn]; decide),
      run_lastPulse h.extraPulsed _ (by simp [Machine.extraPulsed, h25])
        (by simp [Machine.extraPulsed, h25, hn, pulseCount, gainCode]),
      run_completingPoll (j := j) (by simpa [finished, Machine.extraPulsed] using h.eng)
        (by simpa [finished, Machine.extraPulsed] using h.rst) rfl]
    congr 2
    simp [finished, Machine.extraPulsed, endSession, deactivate, drive, extraLink, hn, h25, pulseCount, gainCode]
  · show runWhile State.running (.seq :: .seq :: .seq :: .seq :: .seq :: .seq :: .engine :: es) s = _
    rw [run_extraPulse h _ (by rw [h25]; decide) (by rw [h25, hn]; decide),
      run_extraPulse h.extraPulsed _ (by simp [Machine.extraPulsed, h25])
        (by simp [Machine.extraPulsed, h25, hn, pulseCount, gainCode]),
      run_lastPulse h.extraPulsed.extraPulsed _ (by simp [Machine.extraPulsed, h25])
        (by simp [Machine.extraPulsed, h25, hn, pulseCount, gainCode]),
      run_completingPoll (j := j) (by simpa [finished, Machine.extraPulsed] using h.eng)
        (by simpa [finished, Machine.extraPulsed] using h.rst) rfl]
    congr 2
    simp [finished, Machine.extraPulsed, endSession, deactivate, drive, extraLink, hn, h25, pulseCount, gainCode]

/-- A scripted `PULSEGEN` session, from `Arm` to the use of its sample. -/
theorem run_pulsegenSession {s : State} {j : Job} (he : s.eng = .arm j) (hr : s.pins.rst = false)
    (ht : s.params.transport = .pulsegen) (a : Answer) (es : List Event) :
    runWhile State.running (pulsegenSession s.params s.xport.gainSel a ++ es) s =
      runWhile State.running es (useSample j a.value (pulsegenDone a j s)) := by
  unfold pulsegenSession
  simp only [List.append_assoc, List.cons_append, List.nil_append]
  rw [runWhile_cons _ _ _ _ (by simp [State.running, he]), runWhile_cons _ _ _ _ (by
    simp [State.running, tick, hr, engineStep, he, engineArm, ht])]
  have harm : tick .engine s = { startSequencer (arm s) with eng := .watch j } := by
    simp [tick, hr, engineStep, he, engineArm, ht]
  rw [harm, run_wait (j := j) a.wait _ _ rfl (by simpa using hr) (by simpa using ht) rfl rfl (by simp)]
  rw [runWhile_cons _ _ _ _ (by simp [State.running]), runWhile_cons _ _ _ _ (by simp [State.running])]
  generalize hs1 : tick .seq _ = s1
  have hs1' : s1 =
      { startSequencer (arm s) with
        eng := .watch j
        pins.dout := s.params.readyLevel, pins.pdSck := true
        xport.seq :=
          { nPulse := pulseCount s.xport.gainSel, pIdx := 1, done := false, phase := .high, active := true }
        link := readyLink s.params.readyLevel a.wait s.link } := by
    rw [← hs1]
    simp [tick, hr, ht, seqStep, seqWaitReady, State.ready, drive, sampled, readyLink, startSequencer, arm]
  have hin : InPulse s1 j := by
    subst hs1'
    exact ⟨rfl, by simpa using hr, by simpa using ht, rfl, rfl⟩
  have hrange := pulseCount_range s.xport.gainSel
  rw [run_pulses _ _ s1 hin (by subst hs1'; simp) (by subst hs1'; exact hrange.1),
    foldl_pulsed _ _ (by subst hs1'; rfl) (by subst hs1'; rfl)]
  have hin2 : InPulse (dataDone (bitsOf a.data) s1) j := ⟨hin.eng, hin.rst, hin.transport, hin.active, hin.phase⟩
  have hg : (dataDone (bitsOf a.data) s1).xport.gainSel = s.xport.gainSel := by subst hs1'; simp [dataDone]
  rw [← hg, run_extra hin2 es (by subst hs1'; simp [dataDone]) (by rw [hg]; subst hs1'; simp [dataDone]), hg]
  have hacc : (bitsOf a.data).foldl shiftIn 0#24 = a.data := assembled_bitsOf a.data
  subst hs1'
  simp [sessionCompleted, dataDone, hacc, Answer.value, pulsegenDone, arm, startSequencer, ht]

/-! ### `SHIFTREG` -/

/-- The receive buffer after the samples of the slots from slot `k` on (R43, R96). -/
def rxAfter : List Bool → Nat → Vector Byte 7 → Vector Byte 7
  | [], _, rx => rx
  | d :: ds, k, rx => rxAfter ds (k + 1) (if h : k < 56 then storeSlot rx ⟨k, h⟩ d else rx)

/-- The link record of the slots from slot `k` on, newest first (R96). -/
def slotLink (tx : Vector Byte 7) : List Bool → Nat → List LinkAccess → List LinkAccess
  | [], _, l => l
  | d :: ds, k, l =>
    slotLink tx ds (k + 1)
      (.sample d :: (if h : k < 56 then .drive (slotLevel tx ⟨k, h⟩) :: l else l))

/-- The state after a transfer whose slots from `k` on saw the given samples. -/
def slotsDone (tx : Vector Byte 7) (ds : List Bool) (k : Nat) (s : State) : State :=
  { s with
    pins.dout := ds.foldl (fun _ d => d) s.pins.dout, pins.pdSck := false
    xport.rx := rxAfter ds k s.xport.rx
    xport.xfer := none
    link := .drive false :: slotLink tx ds k s.link }

theorem nextSlot_some (k : Fin 56) (h : k.val + 1 < 56) : nextSlot k = some ⟨k.val + 1, h⟩ := by
  simp [nextSlot, h]

theorem nextSlot_none (k : Fin 56) (h : k.val + 1 = 56) : nextSlot k = none := by
  have : ¬ k.val + 1 < 56 := by omega
  simp [nextSlot, this]

/-- The slots of a transfer, one after another, under any run condition that holds while the transfer is in
progress (R96). -/
theorem run_slots (p : State → Bool) (tx : Vector Byte 7) (es : List Event) (ds : List Bool) :
    ∀ (k : Nat) (hk : k < 56) (s : State), k + ds.length = 56 → s.pins.rst = false →
    s.params.transport = .shiftreg → s.xport.xfer = some { tx := tx, slot := ⟨k, hk⟩ } →
    (∀ t : State, t.eng = s.eng → t.xport.xfer.isSome = true → p t = true) →
    runWhile p ((ds.flatMap fun d => [.dout d, .xfer]) ++ es) s = runWhile p es (slotsDone tx ds k s) := by
  induction ds with
  | nil => intro k hk s hlen; simp at hlen; omega
  | cons d ds ih =>
    intro k hk s hlen hr ht hx hp
    simp only [List.length_cons] at hlen
    rw [List.flatMap_cons, List.append_assoc]
    simp only [List.cons_append, List.nil_append]
    rw [runWhile_cons p _ _ _ (hp s rfl (by simp [hx])),
      runWhile_cons p _ _ (tick (.dout d) s) (hp (tick (.dout d) s) rfl (by simp [hx]))]
    by_cases hl : k + 1 < 56
    · have hn := nextSlot_some ⟨k, hk⟩ hl
      rw [ih (k + 1) hl _ (by omega)]
      · simp [tick, hr, ht, xferStep, hx, xferSlot, hn, sampled, drive, slotsDone, rxAfter, slotLink, hk]
      · simp [tick, hr, ht, xferStep, hx, xferSlot, hn]
      · simp [tick, hr, ht, xferStep, hx, xferSlot, hn]
      · simp [tick, hr, ht, xferStep, hx, xferSlot, hn]
      · intro t hte hts
        refine hp t ?_ hts
        rw [hte]
        simp [tick, hr, ht, xferStep, hx, xferSlot, hn]
    · have hds : ds = [] := by
        rw [← List.length_eq_zero_iff]; omega
      subst hds
      have hn := nextSlot_none ⟨k, hk⟩ (by simp at hlen ⊢; omega)
      simp [tick, hr, ht, xferStep, hx, xferSlot, hn, sampled, drive, slotsDone, rxAfter, slotLink, hk]

/-- The sample of each slot is where R43 puts it. -/
theorem rxSlot_rxAfter (ds : List Bool) : ∀ (k : Nat) (rx : Vector Byte 7) (m : Fin 56) (_ : k + ds.length = 56),
    rxSlot (rxAfter ds k rx) m =
      if h : k ≤ m.val then ds[m.val - k]'(by have := m.isLt; omega) else rxSlot rx m := by
  induction ds with
  | nil => intro k rx m hk; simp at hk; have := m.isLt; simp [rxAfter]; omega
  | cons d ds ih =>
    intro k rx m hk
    simp only [List.length_cons] at hk
    have hk56 : k < 56 := by omega
    rw [rxAfter, ih (k + 1) _ m (by omega), dif_pos hk56]
    by_cases h1 : k + 1 ≤ m.val
    · have : m.val - k = (m.val - (k + 1)) + 1 := by omega
      rw [dif_pos h1, dif_pos (by omega)]
      simp [this]
    · rw [dif_neg h1, rxSlot_storeSlot]
      by_cases h2 : m.val = k
      · have : m = ⟨k, hk56⟩ := Fin.ext h2
        simp [this]
      · have h3 : ¬ m = ⟨k, hk56⟩ := fun h => h2 (by rw [h])
        have h4 : ¬ k ≤ m.val := by omega
        simp [h3, h4]

@[simp] theorem slots_length (a : Answer) : a.slots.length = 56 := by
  simp [Answer.slots, bitsOf]

theorem getElem?_pairs (l : List (Bool × Bool)) (p : Nat) :
    (l.flatMap fun hd => [hd.1, hd.2])[2 * p + 1]? = l[p]?.map (·.2) := by
  induction l generalizing p with
  | nil => simp
  | cons x l ih =>
    cases p with
    | zero => simp
    | succ p =>
      have : 2 * (p + 1) + 1 = (2 * p + 1) + 1 + 1 := by omega
      rw [List.flatMap_cons, this]
      simpa using ih p

theorem slots_data (a : Answer) (p : Fin 24) :
    a.slots[(dataSlot p).val]? = some (a.data.getLsbD (23 - p.val)) := by
  have hp := p.isLt
  have hl : (((bitsOf a.highs).zip (bitsOf a.data)).flatMap fun hd => [hd.1, hd.2]).length = 48 := by simp
  unfold Answer.slots
  rw [List.getElem?_append_left (by rw [hl]; simp only [dataSlot]; omega)]
  simp only [dataSlot]
  rw [getElem?_pairs]
  simp [bitsOf, hp]

/-- The decoded receive buffer of a scripted transfer is the converter's data word (R58, R60, R97). -/
theorem decodeRx_slots (a : Answer) (rx : Vector Byte 7) : decodeRx (rxAfter a.slots 0 rx) = a.data := by
  apply BitVec.eq_of_getLsbD_eq
  intro i hi
  have h := getLsbD_decodeRx (rxAfter a.slots 0 rx) ⟨23 - i, by omega⟩
  have hi' : 23 - (23 - i) = i := by omega
  simp only [hi'] at h
  rw [h, rxSlot_rxAfter _ 0 _ _ (by simp), dif_pos (Nat.zero_le _)]
  have hd := slots_data a ⟨23 - i, by omega⟩
  simp only [hi'] at hd
  exact (List.getElem_eq_iff _).2 hd

/-- The state in which a scripted `SHIFTREG` session hands over its sample. -/
def shiftregDone (a : Answer) (j : Job) (s : State) : State :=
  { s with
    pins.dout := a.slots.foldl (fun _ d => d) s.params.readyLevel
    pins.pdSck := false
    xport.acc := a.data
    xport.raw := rawOf a.data
    xport.rx := rxAfter a.slots 0 emptyRx
    xport.polls := a.wait + 1
    xport.xfer := none
    ctl.armed := false, ctl.mon := .idle
    eng := .transfer j
    link := .drive false :: slotLink (txpat s.xport.gainSel) a.slots 0
      (.sample s.params.readyLevel :: (List.replicate a.wait (.sample (!s.params.readyLevel)) ++ s.link)) }

/-- Ready polls that find the converter not ready, within the budget (R94). -/
theorem run_polls {j : Job} (n : Nat) (es : List Event) : ∀ (s : State), s.eng = .poll j → s.pins.rst = false →
    s.pins.dout = (!s.params.readyLevel) → s.xport.polls + n ≤ s.params.pollBudget →
    runWhile State.running (List.replicate n .engine ++ es) s =
      runWhile State.running es
        { s with
          xport.polls := s.xport.polls + n
          link := List.replicate n (.sample (!s.params.readyLevel)) ++ s.link } := by
  induction n with
  | zero => intro s _ _ _ _; rfl
  | succ n ih =>
    intro s he hr hd hb
    have hready : s.ready = false := by simp [State.ready, hd]
    have hlt : s.xport.polls < s.params.pollBudget := by omega
    rw [List.replicate_succ, List.cons_append, runWhile_cons _ _ _ _ (by simp [State.running, he])]
    have : tick .engine s = { sampled s with xport.polls := s.xport.polls + 1 } := by
      simp [tick, hr, engineStep, he, readyPoll, hlt, hready]
    rw [this, ih { sampled s with xport.polls := s.xport.polls + 1 } he hr hd (by show s.xport.polls + 1 + n ≤ s.params.pollBudget; omega)]
    congr 1
    simp only [sampled, hd]
    rw [List.replicate_succ', List.append_assoc]
    simp [Nat.add_assoc, Nat.add_comm 1]

/-- A scripted `SHIFTREG` session, from `Arm` to the use of its sample. -/
theorem run_shiftregSession {s : State} {j : Job} (he : s.eng = .arm j) (hr : s.pins.rst = false)
    (ht : s.params.transport = .shiftreg) (a : Answer) (hb : a.wait < s.params.pollBudget) (es : List Event) :
    runWhile State.running (shiftregSession s.params a ++ es) s =
      runWhile State.running es (useSample j a.value (shiftregDone a j s)) := by
  unfold shiftregSession transferEvents
  simp only [List.append_assoc, List.cons_append, List.nil_append]
  rw [runWhile_cons _ _ _ _ (by simp [State.running, he]), runWhile_cons _ _ _ _ (by
    simp [State.running, tick, hr, engineStep, he, engineArm, ht])]
  have harm : tick .engine s = { arm s with eng := .poll j } := by
    simp [tick, hr, engineStep, he, engineArm, ht]
  rw [harm, run_polls (j := j) a.wait _ _ rfl (by simpa using hr) (by simp) (by simp [ht]; omega)]
  rw [runWhile_cons _ _ _ _ (by simp [State.running]), runWhile_cons _ _ _ _ (by simp [State.running])]
  generalize hs1 : tick .engine _ = s1
  have hs1' : s1 =
      { arm s with
        eng := .transfer j
        pins.dout := s.params.readyLevel
        xport.polls := a.wait + 1
        xport.xfer := some { tx := txpat s.xport.gainSel, slot := 0 }
        link := .sample s.params.readyLevel ::
          (List.replicate a.wait (.sample (!s.params.readyLevel)) ++ s.link) } := by
    rw [← hs1]
    simp [tick, hr, ht, engineStep, readyPoll, State.ready, hb, issueTransfer, sampled, arm]
  rw [run_slots State.running (txpat s.xport.gainSel) _ a.slots 0 (by omega) s1 (by simp)
    (by subst hs1'; simpa using hr) (by subst hs1'; simpa using ht) (by subst hs1'; rfl)
    (fun t hte _ => by subst hs1'; simp [State.running, hte])]
  subst hs1'
  rw [runWhile_cons _ _ _ _ (by simp [State.running, slotsDone])]
  have hacc := decodeRx_slots a emptyRx
  simp [tick, hr, engineStep, slotsDone, transferWait, hacc, sessionCompleted, Answer.value, endSession,
    shiftregDone, arm, ht]

/-! ### Either variant -/

/-- The state in which a scripted session hands over its sample. -/
def sessionDone (a : Answer) (j : Job) (s : State) : State :=
  match s.params.transport with
  | .pulsegen => pulsegenDone a j s
  | .shiftreg => shiftregDone a j s

/-- A scripted session in either variant, from `Arm` to the use of its sample (R99). -/
theorem run_session {s : State} {j : Job} (he : s.eng = .arm j) (hr : s.pins.rst = false) (a : Answer)
    (hb : a.inBudget s.params) (es : List Event) :
    runWhile State.running (session s.params s.xport.gainSel a ++ es) s =
      runWhile State.running es (useSample j a.value (sessionDone a j s)) := by
  unfold session sessionDone
  cases ht : s.params.transport
  · exact run_pulsegenSession he hr ht a es
  · simp only [Answer.inBudget, ht] at hb
    exact run_shiftregSession he hr ht a hb es

end Sys2Proof.Machine
end

