-- ==== Sys2Proof/Laws/Link.lean ====
section
/-! SUPPORT. The link record: pulses counted along it, and the record of one scripted session (R55). -/

namespace Sys2Proof.Machine

/-- The clock level after accesses listed oldest first, with the clock at the given level before them. -/
def clockAfter : Bool → List LinkAccess → Bool
  | c, [] => c
  | _, .drive b :: l => clockAfter b l
  | c, .sample _ :: l => clockAfter c l

theorem clockAfter_append (l m : List LinkAccess) : ∀ c, clockAfter c (l ++ m) = clockAfter (clockAfter c l) m := by
  induction l with
  | nil => intro c; rfl
  | cons x l ih => intro c; cases x <;> exact ih _

theorem risings_append (l m : List LinkAccess) :
    ∀ c, risings c (l ++ m) = risings c l + risings (clockAfter c l) m := by
  induction l with
  | nil => intro c; simp [risings, clockAfter]
  | cons x l ih => intro c; cases x <;> simp [risings, clockAfter, ih, Nat.add_assoc]

/-- A part of the record, newest first, that begins with the clock low: its pulses and the level it ends on. -/
structure Pulses (seg : List LinkAccess) (n : Nat) (level : Bool) : Prop where
  count : risings false seg.reverse = n
  clock : clockAfter false seg.reverse = level

theorem Pulses.nil : Pulses [] 0 false := ⟨rfl, rfl⟩

theorem Pulses.sample {seg : List LinkAccess} {n : Nat} {level : Bool} (h : Pulses seg n level) (d : Bool) :
    Pulses (.sample d :: seg) n level := by
  constructor
  · rw [List.reverse_cons, risings_append, h.count]; rfl
  · rw [List.reverse_cons, clockAfter_append, h.clock]; rfl

theorem Pulses.fall {seg : List LinkAccess} {n : Nat} {level : Bool} (h : Pulses seg n level) :
    Pulses (.drive false :: seg) n false := by
  constructor
  · rw [List.reverse_cons, risings_append, h.count]; simp [risings]
  · rw [List.reverse_cons, clockAfter_append]; rfl

theorem Pulses.rise {seg : List LinkAccess} {n : Nat} (h : Pulses seg n false) :
    Pulses (.drive true :: seg) (n + 1) true := by
  constructor
  · rw [List.reverse_cons, risings_append, h.count, h.clock]; simp [risings]
  · rw [List.reverse_cons, clockAfter_append]; rfl

theorem Pulses.append {seg later : List LinkAccess} {n m : Nat} {level : Bool} (h : Pulses seg n false)
    (h' : Pulses later m level) : Pulses (later ++ seg) (n + m) level := by
  constructor
  · rw [List.reverse_append, risings_append, h.count, h.clock, h'.count]
  · rw [List.reverse_append, clockAfter_append, h.clock, h'.clock]

theorem Pulses.samples {seg : List LinkAccess} {n : Nat} {level : Bool} (h : Pulses seg n level) (k : Nat) (d : Bool) :
    Pulses (List.replicate k (.sample d) ++ seg) n level := by
  induction k with
  | zero => exact h
  | succ k ih => exact ih.sample d

/-! ### One session -/

theorem dataLink_append (bs : List Bool) (seg l : List LinkAccess) :
    dataLink bs (seg ++ l) = dataLink bs seg ++ l := by
  unfold dataLink
  induction bs generalizing seg with
  | nil => rfl
  | cons b bs ih => exact ih (.drive true :: .drive false :: .sample b :: seg)

theorem extraLink_append (g : GainSel) (seg l : List LinkAccess) :
    extraLink g (seg ++ l) = extraLink g seg ++ l := by
  cases g <;> rfl

theorem readyLink_append (r : Bool) (wait : Nat) (seg l : List LinkAccess) :
    readyLink r wait (seg ++ l) = readyLink r wait seg ++ l := by
  simp [readyLink]

theorem Pulses.data {seg : List LinkAccess} {n : Nat} (h : Pulses seg n true) (bs : List Bool) :
    Pulses (dataLink bs seg) (n + bs.length) true := by
  unfold dataLink
  induction bs generalizing seg n with
  | nil => exact h
  | cons b bs ih =>
    have := ih (h.sample b).fall.rise
    simpa [Nat.add_assoc, Nat.add_comm 1] using this

theorem Pulses.extra {seg : List LinkAccess} {n : Nat} (h : Pulses seg n true) (g : GainSel) :
    Pulses (extraLink g seg) (n + (extraPulses g - 1)) false := by
  cases g
  · exact h.fall.fall
  · exact h.fall.rise.fall.fall
  · exact h.fall.rise.fall.rise.fall.fall

/-- The record of a scripted `PULSEGEN` session (R55). -/
theorem pulsegen_pulses (g : GainSel) (data : Sample24) (r : Bool) (wait : Nat) :
    Pulses (extraLink g (dataLink (bitsOf data) (readyLink r wait []))) (24 + extraPulses g) false := by
  have h := (((Pulses.nil.samples wait (!r)).sample r).rise.data (bitsOf data)).extra g
  have : 0 + 1 + (bitsOf data).length + (extraPulses g - 1) = 24 + extraPulses g := by
    rw [bitsOf_length]; cases g <;> rfl
  rw [this, List.append_nil] at h
  unfold readyLink
  rwa [List.append_nil]

theorem slotLink_append (tx : Vector Byte 7) (ds : List Bool) (seg l : List LinkAccess) :
    ∀ k, slotLink tx ds k (seg ++ l) = slotLink tx ds k seg ++ l := by
  induction ds generalizing seg with
  | nil => intro k; rfl
  | cons d ds ih =>
    intro k
    simp only [slotLink]
    split
    · exact ih (.sample d :: .drive _ :: seg) _
    · exact ih (.sample d :: seg) _

/-- The accesses of the slots from slot `k` on, oldest first (R96). -/
def slotAccesses (tx : Vector Byte 7) : List Bool → Nat → List LinkAccess
  | [], _ => []
  | d :: ds, k =>
    (if h : k < 56 then [.drive (slotLevel tx ⟨k, h⟩), .sample d] else [.sample d]) ++ slotAccesses tx ds (k + 1)

theorem slotLink_reverse (tx : Vector Byte 7) (ds : List Bool) : ∀ (k : Nat) (seg : List LinkAccess),
    (slotLink tx ds k seg).reverse = seg.reverse ++ slotAccesses tx ds k := by
  induction ds with
  | nil => intro k seg; simp [slotLink, slotAccesses]
  | cons d ds ih =>
    intro k seg
    simp only [slotLink, slotAccesses]
    rw [ih]
    split <;> simp

/-- The pulses of the slots from slot `k` on depend on the pattern alone. -/
theorem risings_slotAccesses (tx : Vector Byte 7) (ds es : List Bool) (h : ds.length = es.length) : ∀ (k : Nat) (c : Bool),
    risings c (slotAccesses tx ds k) = risings c (slotAccesses tx es k) ∧
      clockAfter c (slotAccesses tx ds k) = clockAfter c (slotAccesses tx es k) := by
  induction ds generalizing es with
  | nil => cases es with
    | nil => intro k c; exact ⟨rfl, rfl⟩
    | cons e es => simp at h
  | cons d ds ih =>
    cases es with
    | nil => simp at h
    | cons e es =>
      intro k c
      have h' : ds.length = es.length := by simpa using h
      simp only [slotAccesses]
      split
      · have := ih es h' (k + 1) (slotLevel tx ⟨k, ‹_›⟩)
        simp [risings, clockAfter, this]
      · have := ih es h' (k + 1) c
        simp [risings, clockAfter, this]

theorem risings_pattern (g : GainSel) :
    risings false (slotAccesses (txpat g) (List.replicate 56 false) 0) = 24 + extraPulses g := by
  cases g <;> decide

/-- The record of a whole transfer of a clock pattern (R57, R96). -/
theorem transfer_pulses (g : GainSel) (ds : List Bool) (h : ds.length = 56) {seg : List LinkAccess} {n : Nat}
    (hs : Pulses seg n false) :
    Pulses (.drive false :: slotLink (txpat g) ds 0 seg) (n + (24 + extraPulses g)) false := by
  have hr : risings false (slotAccesses (txpat g) ds 0) = 24 + extraPulses g :=
    (risings_slotAccesses _ ds (List.replicate 56 false) (by rw [h, List.length_replicate]) 0 false).1.trans
      (risings_pattern g)
  have hp : Pulses (slotLink (txpat g) ds 0 seg) (n + (24 + extraPulses g))
      (clockAfter false (slotAccesses (txpat g) ds 0)) := by
    constructor
    · rw [slotLink_reverse, risings_append, hs.count, hs.clock, hr]
    · rw [slotLink_reverse, clockAfter_append, hs.clock]
  exact hp.fall

end Sys2Proof.Machine
end

