-- ==== Sys2Proof/Laws/Sessions.lean ====
section
/-! SUPPORT. Several scripted sessions in one command: what they leave (R127, R31), the loop of the commands with several
reads, the session in which the converter never becomes ready (R91, R95), and the session cut in mid-frame (R90, R92). -/

namespace Sys2Proof.Machine

/-! ### What sessions leave -/

/-- What a non-empty list of scripted sessions leaves, conditioner, host registers, engine and events aside. -/
structure SessionsFrame (s : State) (as : List Answer) (t : State) : Prop where
  params : t.params = s.params
  pins : t.pins = { s.pins with pdSck := false, dout := t.pins.dout }
  transport : ∀ last, as.getLast? = some last → TransportAfter s last t
  control : t.ctl = { s.ctl with armed := false, mon := .idle, start := t.ctl.start }
  pulses : ∃ seg, t.link = seg ++ s.link ∧ Pulses seg (as.length * (24 + extraPulses s.xport.gainSel)) false

theorem sessionDone_eng (a : Answer) (j : Job) (s : State) : (sessionDone a j s).eng ≠ .idle := by
  unfold sessionDone; split <;> simp [pulsegenDone, shiftregDone]

@[simp] theorem sessionDone_cond (a : Answer) (j : Job) (s : State) : (sessionDone a j s).cond = s.cond := by
  unfold sessionDone; split <;> rfl

@[simp] theorem sessionDone_port (a : Answer) (j : Job) (s : State) : (sessionDone a j s).port = s.port := by
  unfold sessionDone; split <;> rfl

@[simp] theorem sessionDone_power (a : Answer) (j : Job) (s : State) :
    (sessionDone a j s).ctl.power = s.ctl.power := by
  unfold sessionDone; split <;> rfl

@[simp] theorem sessionDone_rst (a : Answer) (j : Job) (s : State) :
    (sessionDone a j s).pins.rst = s.pins.rst := by
  unfold sessionDone; split <;> rfl

/-- One scripted session (R80). -/
theorem SessionsFrame.one (a : Answer) (j : Job) (s : State) : SessionsFrame s [a] (sessionDone a j s) := by
  unfold sessionDone
  cases ht : s.params.transport
  · refine ⟨rfl, rfl, ?_, rfl, ?_⟩
    · intro last hl
      cases hl
      simp [TransportAfter, ht, pulsegenDone]
    · refine ⟨extraLink s.xport.gainSel
        (dataLink (bitsOf a.data) (readyLink s.params.readyLevel a.wait [])), ?_, ?_⟩
      · rw [← extraLink_append, ← dataLink_append, ← readyLink_append]; rfl
      · simpa using pulsegen_pulses s.xport.gainSel a.data s.params.readyLevel a.wait
  · refine ⟨rfl, rfl, ?_, rfl, ?_⟩
    · intro last hl
      cases hl
      simp only [TransportAfter, ht, shiftregDone]
      refine ⟨trivial, rfl, rfl, trivial, rfl, trivial, trivial, fun k => ?_⟩
      rw [rxSlot_rxAfter _ 0 _ _ (by simp), dif_pos (Nat.zero_le _)]
      simp
    · refine ⟨.drive false :: slotLink (txpat s.xport.gainSel) a.slots 0
        (.sample s.params.readyLevel :: (List.replicate a.wait (.sample (!s.params.readyLevel)) ++ [])), ?_, ?_⟩
      · rw [List.cons_append, ← slotLink_append]; simp [shiftregDone]
      · have := transfer_pulses s.xport.gainSel a.slots (slots_length a)
          ((Pulses.nil.samples a.wait (!s.params.readyLevel)).sample s.params.readyLevel)
        rw [Nat.zero_add] at this
        simpa using this

theorem SessionsFrame.gainSel {s t : State} {as : List Answer} (h : SessionsFrame s as t) (hne : as ≠ []) :
    t.xport.gainSel = s.xport.gainSel := by
  obtain ⟨last, hl⟩ := Option.ne_none_iff_exists'.1 (by simpa using hne : as.getLast? ≠ none)
  exact (h.transport last hl).1

/-- Sessions one after another (R31). -/
theorem SessionsFrame.append {s u t : State} {as bs : List Answer} (h : SessionsFrame s as u)
    (h' : SessionsFrame u bs t) (ha : as ≠ []) (hb : bs ≠ []) : SessionsFrame s (as ++ bs) t := by
  have hg := h.gainSel ha
  obtain ⟨la, hla⟩ := Option.ne_none_iff_exists'.1 (by simpa using ha : as.getLast? ≠ none)
  refine ⟨h'.params.trans h.params, ?_, ?_, ?_, ?_⟩
  · rw [h'.pins, h.pins]
  · intro last hl
    rw [List.getLast?_append_of_ne_nil _ hb] at hl
    have h1 := h.transport la hla
    have h2 := h'.transport last hl
    have hnow : u.pins.now = s.pins.now := by rw [h.pins]
    unfold TransportAfter at h1 h2 ⊢
    rw [h.params] at h2
    split <;> rename_i htr <;> simp only [htr] at h1 h2
    · obtain ⟨a1, a2, a3, a4, a5, a6, a7, a8⟩ := h1
      obtain ⟨b1, b2, b3, b4, b5, b6, b7, b8⟩ := h2
      exact ⟨b1.trans a1, b2, b3, b4.trans (by rw [a1]), b5.trans a5, b6.trans a6, b7.trans a7, b8.trans hnow⟩
    · obtain ⟨a1, a2, a3, a4, a5, a6, a7, a8⟩ := h1
      obtain ⟨b1, b2, b3, b4, b5, b6, b7, b8⟩ := h2
      exact ⟨b1.trans a1, b2, b3, b4.trans a4, b5, b6, b7.trans a7, b8⟩
  · rw [h'.control, h.control]
  · obtain ⟨seg, e1, p1⟩ := h.pulses
    obtain ⟨seg', e2, p2⟩ := h'.pulses
    refine ⟨seg' ++ seg, by rw [e2, e1, List.append_assoc], ?_⟩
    rw [hg] at p2
    simpa [Nat.add_mul] using p1.append p2

/-- Nothing outside the named groups matters to the frame. -/
theorem SessionsFrame.congr {s s' t t' : State} {as : List Answer} (h : SessionsFrame s as t)
    (h1 : s'.params = s.params) (h2 : s'.pins = s.pins) (h3 : s'.xport = s.xport) (h4 : s'.ctl = s.ctl)
    (h5 : s'.link = s.link) (g1 : t'.params = t.params) (g2 : t'.pins = t.pins) (g3 : t'.xport = t.xport)
    (g4 : t'.ctl = t.ctl) (g5 : t'.link = t.link) : SessionsFrame s' as t' := by
  obtain ⟨a, b, c, d, e⟩ := h
  unfold TransportAfter at c
  refine ⟨by rw [g1, h1, a], by rw [g2, h2, b], ?_, by rw [g4, h4, d], by rw [g5, h3, h5]; exact e⟩
  unfold TransportAfter
  rw [h1, h2, h3, h4, g3, g4]
  exact c

/-- The frame of sessions is the frame of a command that ends with them. -/
theorem SessionsFrame.after {s t : State} {as : List Answer} (h : SessionsFrame s as t) (v : Option Rat)
    (rest : List Event) : AfterSessions s as rest { complete v t with events := rest } :=
  ⟨h.params, h.pins, h.transport, h.control, rfl, rfl, by
    obtain ⟨seg, e, p⟩ := h.pulses
    exact ⟨seg, e, p.count⟩⟩

/-! ### The loop of the commands with several reads -/

/-- A job that sums samples (R122, R126). -/
def Job.sums : Job → Bool
  | .average _ => true
  | .tare _ => true
  | .read => false
  | .lowpass => false
  | .value => false
  | .units => false
  | .discard => false
  | .seed => false

/-- With reads left, a summing job reads again. -/
theorem useSample_sums {j : Job} (hj : j.sums = true) (x : Int) (s : State) (hc : (addSample x s).port.cnt ≠ 0)
    (hp : s.ctl.power = .up) : useSample j x s = { addSample x s with eng := .arm j } := by
  cases j <;> simp only [Job.sums, Bool.false_eq_true] at hj
  · exact (if_neg hc).trans (readRaw_up _ _ hp)
  · exact (if_neg hc).trans (readRaw_up _ _ hp)

theorem cnt_step {s : State} {n : Nat} (x : Int) (h : s.port.cnt.toNat = n + 1) :
    (addSample x s).port.cnt.toNat = n := by
  have hlt := s.port.cnt.isLt
  have h1 : BitVec.toNat (1 : BitVec 32) = 1 := rfl
  simp only [addSample_port, BitVec.toNat_sub, h1]
  omega

/-- The sessions of a summing command before the last one it makes (R122, R126). -/
theorem run_summing {j : Job} (hj : j.sums = true) (es : List Event) (as : List Answer) :
    ∀ s : State, s.eng = .arm j → s.pins.rst = false → s.ctl.power = .up → (∀ a ∈ as, a.inBudget s.params) →
    as.length < s.port.cnt.toNat →
    ∃ t : State, runWhile State.running (as.flatMap (session s.params s.xport.gainSel) ++ es) s =
        runWhile State.running es t ∧
      ((as = [] ∧ t = s) ∨ (as ≠ [] ∧ SessionsFrame s as t)) ∧
      t.eng = .arm j ∧ t.cond = s.cond ∧
      t.port = { s.port with
        sum := s.port.sum + sumOf as, cnt := BitVec.ofNat 32 (s.port.cnt.toNat - as.length) } := by
  induction as with
  | nil =>
    intro s he _ _ _ _
    exact ⟨s, rfl, .inl ⟨rfl, rfl⟩, he, rfl, by simp [sumOf]⟩
  | cons a as ih =>
    intro s he hr hp hb hc
    simp only [List.length_cons] at hc
    have hcnt : (addSample a.value (sessionDone a j s)).port.cnt.toNat = s.port.cnt.toNat - 1 :=
      cnt_step _ (by rw [sessionDone_port]; omega)
    have hne : (addSample a.value (sessionDone a j s)).port.cnt ≠ 0 := by
      intro h0
      have := congrArg BitVec.toNat h0
      rw [hcnt] at this
      simp at this; omega
    have hu := useSample_sums hj a.value (sessionDone a j s) hne (by simpa using hp)
    have h1 := SessionsFrame.one a j s
    obtain ⟨t, hrun, hfr, hte, htc, htp⟩ :=
      ih { addSample a.value (sessionDone a j s) with eng := .arm j } rfl (by simpa using hr) (by simpa using hp)
        (fun b hb' => by
          show b.inBudget (sessionDone a j s).params
          rw [h1.params]; exact hb b (List.mem_cons_of_mem _ hb'))
        (by show as.length < (addSample a.value (sessionDone a j s)).port.cnt.toNat; omega)
    refine ⟨t, ?_, .inr ⟨by simp, ?_⟩, hte, by simpa using htc, ?_⟩
    · rw [List.flatMap_cons, List.append_assoc, run_session he hr a (hb a (List.mem_cons_self ..)), hu, ← hrun]
      have hg : (sessionDone a j s).xport.gainSel = s.xport.gainSel := h1.gainSel (by simp)
      show _ = runWhile State.running
        (as.flatMap (session (sessionDone a j s).params (sessionDone a j s).xport.gainSel) ++ es) _
      rw [h1.params, hg]
    · rcases hfr with ⟨rfl, rfl⟩ | ⟨hne', hfr⟩
      · exact h1.congr rfl rfl rfl rfl rfl rfl rfl rfl rfl rfl
      · have h1' : SessionsFrame s [a] { addSample a.value (sessionDone a j s) with eng := .arm j } :=
          h1.congr rfl rfl rfl rfl rfl rfl rfl rfl rfl rfl
        exact h1'.append hfr (by simp) hne'
    · rw [htp]
      have e1 : ({ addSample a.value (sessionDone a j s) with eng := .arm j } : State).port =
          { s.port with sum := s.port.sum + a.value, cnt := s.port.cnt - 1 } := by
        rw [← sessionDone_port a j s]; rfl
      rw [show ({ addSample a.value (sessionDone a j s) with eng := .arm j } : State).port.cnt.toNat =
        s.port.cnt.toNat - 1 from hcnt, e1]
      simp only [sumOf, List.map_cons, List.sum_cons, List.length_cons]
      congr 1
      · rw [Int.add_assoc]
      · congr 1; omega

/-! ### The session in which the converter never becomes ready -/

/-- What a silent session leaves (R91 to R93, R95). -/
def silentDone (wait ms : Nat) (s : State) : State :=
  match s.params.transport with
  | .pulsegen =>
    { s with
      pins.pdSck := false, pins.dout := !s.params.readyLevel, pins.now := s.pins.now + BitVec.ofNat 32 ms
      xport.acc := 0, xport.raw := sentinel
      xport.seq := { active := false, nPulse := pulseCount s.xport.gainSel, phase := .off, pIdx := 0, done := false }
      ctl.armed := false, ctl.mon := .idle, ctl.start := s.pins.now
      link := .drive false :: (List.replicate wait (.sample (!s.params.readyLevel)) ++ s.link) }
  | .shiftreg =>
    { s with
      pins.dout := !s.params.readyLevel
      xport.acc := 0, xport.raw := sentinel, xport.rx := emptyRx, xport.polls := s.params.pollBudget
      ctl.armed := false, ctl.mon := .idle
      link := List.replicate s.params.pollBudget (.sample (!s.params.readyLevel)) ++ s.link }

/-- A silent session ends its command with `SensorTimeout` (R151). -/
theorem run_silent {s : State} {j : Job} (he : s.eng = .arm j) (hr : s.pins.rst = false) (wait ms : Nat)
    (ho : Overdue s.params ms) (es : List Event) :
    runWhile State.running (silentSession s.params wait ms ++ es) s =
      { raise .sensorTimeout (silentDone wait ms s) with events := es } := by
  unfold silentSession silentDone
  cases ht : s.params.transport <;> simp only [Overdue, ht] at ho
  · simp only [List.append_assoc, List.cons_append, List.nil_append]
    rw [runWhile_cons _ _ _ _ (by simp [State.running, he]), runWhile_cons _ _ _ _ (by
      simp [State.running, tick, hr, engineStep, he, engineArm, ht])]
    have harm : tick .engine s = { startSequencer (arm s) with eng := .watch j } := by
      simp [tick, hr, engineStep, he, engineArm, ht]
    rw [harm, run_wait (j := j) wait _ _ rfl (by simpa using hr) (by simpa using ht) rfl rfl (by simp)]
    rw [runWhile_cons _ _ _ _ (by simp [State.running]), runWhile_cons _ _ _ _ (by simp [State.running])]
    have hms : ms % 2 ^ 32 = ms := Nat.mod_eq_of_lt ho.2
    have hsub : s.params.deadlineMs ≤ ms % 4294967296 := hms.symm ▸ ho.1
    rw [runWhile_stop]
    · simp [tick, hr, engineStep, monitorPoll, startSequencer, arm, ht, State.deadlineReached, State.elapsed, hsub,
        raise, endSession, deactivate, drive, he]
    · simp [tick, hr, engineStep, monitorPoll, startSequencer, arm, ht, State.deadlineReached, State.elapsed, hsub,
        raise, endSession, deactivate, drive, State.running]
  · rw [List.replicate_succ']
    simp only [List.append_assoc, List.cons_append, List.nil_append]
    rw [runWhile_cons _ _ _ _ (by simp [State.running, he]), runWhile_cons _ _ _ _ (by
      simp [State.running, tick, hr, engineStep, he, engineArm, ht])]
    have harm : tick .engine s = { arm s with eng := .poll j } := by
      simp [tick, hr, engineStep, he, engineArm, ht]
    rw [harm, run_polls (j := j) s.params.pollBudget _ _ rfl (by simpa using hr) (by simp) (by simp [ht])]
    rw [runWhile_cons _ _ _ _ (by simp [State.running]), runWhile_stop]
    · simp [tick, hr, engineStep, readyPoll, arm, ht, raise, endSession]
    · simp [tick, hr, engineStep, readyPoll, arm, ht, raise, endSession, State.running]

/-! ### The session cut in mid-frame -/

theorem everyOther_length : ∀ l : List Bool, (everyOther l).length = (l.length + 1) / 2
  | [] => rfl
  | [_] => by simp [everyOther]
  | _ :: _ :: l => by simp only [everyOther, List.length_cons, everyOther_length l]; omega

theorem everyOther_append (d : Bool) : ∀ l : List Bool,
    everyOther (l ++ [d]) = if l.length % 2 = 0 then everyOther l ++ [d] else everyOther l
  | [] => rfl
  | [_] => rfl
  | a :: b :: l => by
    simp only [List.cons_append, everyOther, List.length_cons, everyOther_append d l, Nat.add_mod_right,
      Nat.add_assoc, Nat.reduceAdd]
    split <;> rfl

/-- One more step samples one more bit exactly at the fall of a data pulse (R84, R87). -/
theorem cutSamples_append (l : List Bool) (d : Bool) :
    cutSamples (l ++ [d]) = if l.length % 2 = 0 ∧ l.length / 2 < 24 then cutSamples l ++ [d] else cutSamples l := by
  unfold cutSamples
  rw [everyOther_append]
  have hl := everyOther_length l
  by_cases h : l.length % 2 = 0
  · by_cases h' : l.length / 2 < 24
    · rw [if_pos h, if_pos ⟨h, h'⟩, List.take_of_length_le (by simp [hl]; omega), List.take_of_length_le (by omega)]
    · rw [if_pos h, if_neg (fun c => h' c.2), List.take_append_of_le_length (by omega)]
  · rw [if_neg h, if_neg (fun c => h c.1)]

/-- The state `s` after the given levels, from the first rise in `r` on, with a link record that began at `l`. -/
structure CutAt (r : State) (l : List LinkAccess) (levels : List Bool) (s : State) : Prop where
  state : s =
    { r with
      pins := { r.pins with dout := s.pins.dout, pdSck := decide (levels.length % 2 = 0) }
      xport.acc := (cutSamples levels).foldl shiftIn r.xport.acc
      xport.seq := { r.xport.seq with
        phase := if levels.length % 2 = 0 then .high else .low
        pIdx := BitVec.ofNat 5 (1 + levels.length / 2) }
      link := s.link }
  pulses : ∃ seg, s.link = seg ++ l ∧ Pulses seg (1 + levels.length / 2) (decide (levels.length % 2 = 0))

/-- One more sequencer step before the end of the frame (R84, R86, R87). -/
theorem CutAt.step {r s : State} {j : Job} {l : List LinkAccess} {levels : List Bool} (h : CutAt r l levels s)
    (hr : InPulse r j) (hn : levels.length + 1 < 2 * r.xport.seq.nPulse.toNat) (d : Bool) :
    CutAt r l (levels ++ [d]) (tick .seq (tick (.dout d) s)) := by
  obtain ⟨he, hrst, ht, ha, hp⟩ := hr
  obtain ⟨hs, seg, hl, hpu⟩ := h
  have h32 := r.xport.seq.nPulse.isLt
  have hidx : (BitVec.ofNat 5 (1 + levels.length / 2)).toNat = 1 + levels.length / 2 := by
    rw [BitVec.toNat_ofNat, Nat.mod_eq_of_lt]; omega
  have hrst' : s.pins.rst = false := by rw [hs]; exact hrst
  have ht' : s.params.transport = .pulsegen := by rw [hs]; exact ht
  have ha' : s.xport.seq.active = true := by rw [hs]; exact ha
  rw [tick_seq _ (by simpa using hrst') (by simpa using ht'), tick_dout]
  have hacc := cutSamples_append levels d
  rcases Nat.mod_two_eq_zero_or_one levels.length with h0 | h1
  · have hph : s.xport.seq.phase = .high := by rw [hs]; simp [h0]
    have hk : (levels.length + 1) % 2 = 1 := by omega
    have hk2 : (levels.length + 1) / 2 = levels.length / 2 := by omega
    have hstep : seqStep { s with pins.dout := d } = seqHigh { s with pins.dout := d } := by
      simp [seqStep, ha', hph]
    rw [hstep]
    by_cases h24 : levels.length / 2 < 24
    · have hle : s.xport.seq.pIdx.toNat ≤ 24 := by rw [hs]; show (BitVec.ofNat 5 _).toNat ≤ 24; omega
      have e : seqHigh { s with pins.dout := d } =
          { s with
            pins.dout := d, pins.pdSck := false, xport.acc := shiftIn s.xport.acc d, xport.seq.phase := .low
            link := .drive false :: .sample d :: s.link } := by simp [seqHigh, hle, sampled, drive]
      rw [e]
      refine ⟨?_, .drive false :: .sample d :: seg, by simp [hl], ?_⟩
      · rw [hacc, if_pos ⟨h0, h24⟩, List.foldl_append]
        conv_lhs => rw [hs]
        simp [hk, hk2]
      · simpa [hk, hk2] using (hpu.sample d).fall
    · have hle : ¬ s.xport.seq.pIdx.toNat ≤ 24 := by rw [hs]; show ¬ (BitVec.ofNat 5 _).toNat ≤ 24; omega
      have e : seqHigh { s with pins.dout := d } =
          { s with
            pins.dout := d, pins.pdSck := false, xport.seq.phase := .low
            link := .drive false :: s.link } := by simp [seqHigh, hle, drive]
      rw [e]
      refine ⟨?_, .drive false :: seg, by simp [hl], ?_⟩
      · rw [hacc, if_neg (fun c => h24 c.2)]
        conv_lhs => rw [hs]
        simp [hk, hk2]
      · simpa [hk, hk2] using hpu.fall
  · have hph : s.xport.seq.phase = .low := by rw [hs]; simp [h1]
    have hk : (levels.length + 1) % 2 = 0 := by omega
    have hk2 : (levels.length + 1) / 2 = levels.length / 2 + 1 := by omega
    have hlt : s.xport.seq.pIdx.toNat < s.xport.seq.nPulse.toNat := by
      rw [hs]
      show (BitVec.ofNat 5 _).toNat < r.xport.seq.nPulse.toNat
      omega
    have e : seqStep { s with pins.dout := d } =
        { s with
          pins.dout := d, pins.pdSck := true, xport.seq.pIdx := s.xport.seq.pIdx + 1, xport.seq.phase := .high
          link := .drive true :: s.link } := by simp [seqStep, ha', hph, seqLow, hlt, drive]
    rw [e]
    refine ⟨?_, .drive true :: seg, by simp [hl], ?_⟩
    · rw [hacc, if_neg (fun c => by omega)]
      conv_lhs => rw [hs]
      have : BitVec.ofNat 5 (1 + levels.length / 2) + 1 = BitVec.ofNat 5 (1 + (levels.length / 2 + 1)) := by
        rw [← Nat.add_assoc, BitVec.ofNat_add _ 1]; rfl
      simpa [hk, hk2] using this
    · rw [show (decide (levels.length % 2 = 0)) = false by simp [h1]] at hpu
      simpa [hk, hk2, Nat.add_assoc] using hpu.rise

/-- Any number of sequencer steps before the end of the frame. -/
theorem run_cutEvents {r : State} {j : Job} {l : List LinkAccess} (hr : InPulse r j) (h0 : CutAt r l [] r)
    (levels : List Bool) (hn : levels.length < 2 * r.xport.seq.nPulse.toNat) :
    ∃ t : State, CutAt r l levels t ∧ ∀ es,
      runWhile State.running (cutEvents levels ++ es) r = runWhile State.running es t := by
  induction levels using List.reverseRecOn with
  | nil => exact ⟨r, h0, fun _ => rfl⟩
  | append_singleton levels d ih =>
    simp only [List.length_append, List.length_singleton] at hn
    obtain ⟨t, ht, hrun⟩ := ih (by omega)
    refine ⟨_, ht.step hr hn d, fun es => ?_⟩
    have he : t.eng = .watch j := by rw [ht.state]; exact hr.eng
    have : cutEvents (levels ++ [d]) ++ es = cutEvents levels ++ (.dout d :: .seq :: es) := by simp [cutEvents]
    rw [this, hrun, runWhile_cons _ _ _ _ (by simp [State.running, he]),
      runWhile_cons _ _ _ _ (by simp [State.running, he])]

/-- A poll of the Monitor that sees the deadline reached before the end of the frame (R91 to R93, R158). -/
theorem run_timingOutPoll {s : State} {j : Job} (he : s.eng = .watch j) (hr : s.pins.rst = false)
    (hd : s.xport.seq.done = false) (ho : s.deadlineReached = true) (es : List Event) :
    runWhile State.running (.engine :: es) s =
      { raise .sensorTimeout (endSession (deactivate { s with ctl.mon := .timedOut })) with events := es } := by
  rw [runWhile_cons _ _ _ _ (by simp [State.running, he]), runWhile_stop] <;>
    simp [tick, hr, engineStep, he, monitorPoll, hd, ho, State.running]

/-- Polls of the Monitor that see neither the end of the frame nor the deadline change nothing but the time (R91). -/
theorem run_vainPolls {j : Job} (es : List Event) (vain : List Nat) : ∀ s : State, s.eng = .watch j →
    s.pins.rst = false → s.xport.seq.done = false → (vain ≠ [] → s.elapsed + vain.sum < s.params.deadlineMs) →
    s.elapsed + vain.sum < 2 ^ 32 →
    runWhile State.running (pollEvents vain ++ es) s =
        runWhile State.running es { s with pins.now := s.pins.now + BitVec.ofNat 32 vain.sum } ∧
      ({ s with pins.now := s.pins.now + BitVec.ofNat 32 vain.sum } : State).elapsed = s.elapsed + vain.sum := by
  induction vain with
  | nil => intro s _ _ _ _ _; simp [pollEvents]
  | cons a vain ih =>
    intro s he hr hd hdl hlt
    have hdl := hdl (by simp)
    simp only [List.sum_cons] at hdl hlt
    have hel : (tick (.time a) s).elapsed = s.elapsed + a := by
      have : s.pins.now + BitVec.ofNat 32 a - s.ctl.start = s.pins.now - s.ctl.start + BitVec.ofNat 32 a := by
        rw [BitVec.sub_eq_add_neg, BitVec.sub_eq_add_neg, BitVec.add_assoc, BitVec.add_assoc,
          BitVec.add_comm (BitVec.ofNat 32 a)]
      simp only [State.elapsed, tick_time] at hlt ⊢
      rw [this, BitVec.toNat_add, BitVec.toNat_ofNat, Nat.add_mod_mod, Nat.mod_eq_of_lt (by omega)]
    have hnot : (tick (.time a) s).deadlineReached = false := by
      simp only [State.deadlineReached, hel, decide_eq_false_iff_not]
      show ¬ s.params.deadlineMs ≤ _
      omega
    have hpoll : tick .engine (tick (.time a) s) = tick (.time a) s := by
      have hd' : (tick (.time a) s).xport.seq.done = false := hd
      have he' : (tick (.time a) s).eng = .watch j := he
      rw [tick_engine (tick (.time a) s) hr]
      simp only [engineStep, he', monitorPoll, hd', hnot, Bool.false_eq_true, if_false]
    obtain ⟨h1, h2⟩ := ih (tick (.time a) s) he hr hd (fun _ => by rw [hel]; show _ < s.params.deadlineMs; omega)
      (by rw [hel]; omega)
    have hsum : s.pins.now + BitVec.ofNat 32 a + BitVec.ofNat 32 vain.sum =
        s.pins.now + BitVec.ofNat 32 (a :: vain).sum := by
      rw [List.sum_cons, BitVec.ofNat_add, BitVec.add_assoc]
    rw [hel, Nat.add_assoc, ← List.sum_cons] at h2
    simp only [tick_time, hsum] at h1 h2
    refine ⟨?_, h2⟩
    rw [← h1]
    show runWhile State.running (.time a :: .engine :: (pollEvents vain ++ es)) s = _
    rw [runWhile_cons _ _ _ _ (by simp [State.running, he]), runWhile_cons _ _ _ _ (by simp [State.running, he]), hpoll]
    rfl

/-- A session cut in mid-frame ends its command with `SensorTimeout` and leaves the line low (R90 to R93, R151). -/
theorem run_cut {s : State} {j : Job} (he : s.eng = .arm j) (hr : s.pins.rst = false)
    (ht : s.params.transport = .pulsegen) (wait : Nat) (levels : List Bool) (vain : List Nat)
    (ms : Nat) (hshort : levels.length < 2 * (24 + extraPulses s.xport.gainSel))
    (hvain : vain ≠ [] → vain.sum < s.params.deadlineMs) (ho : Overdue s.params (vain.sum + ms)) (es : List Event) :
    ∃ t : State, runWhile State.running (cutSession s.params wait levels vain ms ++ es) s = t ∧
      TimedOut s es t ∧ TransportCut s levels t ∧ t.port = { s.port with result := none, status := 0x11, busy := false } ∧
      ∃ seg, t.link = seg ++ s.link ∧ Pulses seg (1 + levels.length / 2) false := by
  refine ⟨_, rfl, ?_⟩
  unfold cutSession
  simp only [List.append_assoc, List.cons_append, List.nil_append]
  rw [runWhile_cons _ _ _ _ (by simp [State.running, he]), runWhile_cons _ _ _ _ (by
    simp [State.running, tick, hr, engineStep, he, engineArm, ht])]
  have harm : tick .engine s = { startSequencer (arm s) with eng := .watch j } := by
    simp [tick, hr, engineStep, he, engineArm, ht]
  rw [harm, run_wait (j := j) wait _ _ rfl (by simpa using hr) (by simpa using ht) rfl rfl (by simp)]
  rw [runWhile_cons _ _ _ _ (by simp [State.running]), runWhile_cons _ _ _ _ (by simp [State.running])]
  generalize hs1 : tick .seq _ = s1
  have hs1' : s1 =
      { startSequencer (arm s) with
        eng := .watch j
        pins.dout := s.params.readyLevel, pins.pdSck := true
        xport.seq :=
          { nPulse := pulseCount s.xport.gainSel, pIdx := 1, done := false, phase := .high, active := true }
        link := readyLink s.params.readyLevel wait s.link } := by
    rw [← hs1]
    simp [tick, hr, ht, seqStep, seqWaitReady, State.ready, drive, sampled, readyLink, startSequencer, arm]
  have hin : InPulse s1 j := by
    subst hs1'
    exact ⟨rfl, by simpa using hr, by simpa using ht, rfl, rfl⟩
  have h0 : CutAt s1 s.link [] s1 := by
    subst hs1'
    refine ⟨by simp [cutSamples, everyOther], readyLink s.params.readyLevel wait [], ?_, ?_⟩
    · rw [← readyLink_append]; rfl
    · simpa [readyLink] using ((Pulses.nil.samples wait (!s.params.readyLevel)).sample s.params.readyLevel).rise
  have hnp : (pulseCount s.xport.gainSel).toNat = 24 + extraPulses s.xport.gainSel := by
    cases s.xport.gainSel <;> rfl
  obtain ⟨t, hcut, hrun⟩ := run_cutEvents hin h0 levels (by
    subst hs1'
    show _ < 2 * (pulseCount s.xport.gainSel).toNat
    omega)
  obtain ⟨hstate, seg, hl, hpu⟩ := hcut
  have hparams : t.params = s.params := by rw [hstate, hs1']; simp
  obtain ⟨d, c, hpins⟩ : ∃ d c, t.pins = { s.pins with dout := d, pdSck := c } := by
    refine ⟨t.pins.dout, t.pins.pdSck, ?_⟩
    have := congrArg State.pins hstate
    rw [this, hs1']; simp
  have hctl : t.ctl = { s.ctl with armed := true, mon := .armed, start := s.pins.now } := by
    rw [hstate, hs1']; simp [arm, startSequencer, ht]
  have hcond : t.cond = s.cond := by rw [hstate, hs1']; simp
  have hport : t.port = s.port := by rw [hstate, hs1']; simp
  obtain ⟨ph, hxport⟩ : ∃ ph, t.xport =
      { s.xport with
        acc := (cutSamples levels).foldl shiftIn 0, raw := sentinel
        seq :=
          { active := true, nPulse := pulseCount s.xport.gainSel, phase := ph
            pIdx := BitVec.ofNat 5 (1 + levels.length / 2), done := false } } := by
    refine ⟨t.xport.seq.phase, ?_⟩
    have := congrArg State.xport hstate
    rw [this, hs1']; simp [arm, startSequencer, ht]
  have hte : t.eng = .watch j := by rw [hstate]; exact hin.eng
  have htr : t.pins.rst = false := by rw [hstate]; exact hin.rst
  have htd : t.xport.seq.done = false := by rw [hxport]
  simp only [Overdue, ht] at ho
  have hel : t.elapsed = 0 := by simp [State.elapsed, hpins, hctl]
  obtain ⟨hv, -⟩ := run_vainPolls (j := j) (.time ms :: .engine :: es) vain t hte htr htd
    (fun h => by rw [hel, hparams, Nat.zero_add]; exact hvain h) (by rw [hel]; omega)
  have hdead : (tick (.time ms) { t with pins.now := t.pins.now + BitVec.ofNat 32 vain.sum }).deadlineReached = true := by
    have hms : (vain.sum + ms) % 2 ^ 32 = vain.sum + ms := Nat.mod_eq_of_lt ho.2
    have hnow : t.pins.now + BitVec.ofNat 32 vain.sum + BitVec.ofNat 32 ms - t.ctl.start =
        BitVec.ofNat 32 (vain.sum + ms) := by
      simp only [hpins, hctl]
      rw [BitVec.add_assoc, ← BitVec.ofNat_add, BitVec.add_comm, BitVec.add_sub_cancel]
    simp only [State.deadlineReached, State.elapsed, tick_time, hnow, BitVec.toNat_ofNat, hms, hparams,
      decide_eq_true_eq]
    exact ho.1
  rw [hrun, hv, runWhile_cons _ _ _ _ (by simp [State.running, hte]),
    run_timingOutPoll (j := j) (by simpa using hte) (by simpa using htr) (by simpa using htd) hdead]
  refine ⟨⟨by simpa using hparams, ?_, ?_, by simpa using hcond, by simp [hport], by simp, rfl, by simp, by simp, rfl⟩,
    ⟨?_, ?_⟩, ?_, .drive false :: seg, ?_, hpu.fall⟩
  · simp [hpins]
  · simp [hctl]
  · simp [hxport]
  · simp [hctl]
  · simp [hport]; rfl
  · simp [hl]

end Sys2Proof.Machine
end

