-- ==== Sys2Proof/Laws/Commands.lean ====
section
/-! SUPPORT. The runs of the reading commands along a script, up to the use of the last sample. -/

namespace Sys2Proof.Machine

/-- A completed command takes no further event. -/
theorem runWhile_complete (v : Option Rat) (t : State) (es : List Event) :
    runWhile State.running es (complete v t) = { complete v t with events := es } :=
  runWhile_stop _ _ _ (by simp [State.running])

/-- A command with one session (R120). -/
theorem run_single {s : State} {a : Answer} {rest : List Event} (h : Scripted s [a] rest) (j : Job) :
    ∃ u : State, runCommand (readRaw j s) = runWhile State.running rest (useSample j a.value u) ∧
      u.cond = s.cond ∧ u.port = s.port ∧ SessionsFrame s [a] u := by
  refine ⟨sessionDone a j { s with eng := .arm j }, ?_, by simp, by simp,
    (SessionsFrame.one a j _).congr rfl rfl rfl rfl rfl rfl rfl rfl rfl rfl⟩
  rw [readRaw_up _ _ h.power]
  refine (congrArg (fun l => runWhile State.running l { s with eng := .arm j }) h.events).trans ?_
  have := run_session (s := { s with eng := .arm j }) (j := j) rfl h.rst a (h.inBudget a (by simp)) rest
  simpa using this

/-- A command with several sessions, from its first read to the use of the last sample (R122, R126). -/
theorem run_several {s : State} {as : List Answer} {rest : List Event} (h : Scripted s as rest) {j : Job}
    (hj : j.sums = true) (hlen : s.port.cnt.toNat = as.length) (hne : as ≠ []) (hs0 : s.port.sum = 0) :
    ∃ t : State,
      runCommand (readRaw j s) = runWhile State.running rest (useSample j (as.getLast hne).value t) ∧
      SessionsFrame s as t ∧ t.cond = s.cond ∧
      t.port = { s.port with sum := sumOf as.dropLast, cnt := 1 } := by
  have hpos := List.length_pos_of_ne_nil hne
  rw [readRaw_up _ _ h.power]
  have hev : s.events = as.dropLast.flatMap (session s.params s.xport.gainSel) ++
      (session s.params s.xport.gainSel (as.getLast hne) ++ rest) := by
    rw [h.events]
    conv_lhs => rw [← List.dropLast_append_getLast hne]
    simp
  obtain ⟨t, hrun, hfr, hte, htc, htp⟩ := run_summing hj
    (session s.params s.xport.gainSel (as.getLast hne) ++ rest) as.dropLast { s with eng := .arm j } rfl h.rst h.power
    (fun a ha => h.inBudget a (List.dropLast_subset _ ha))
    (by show _ < s.port.cnt.toNat; rw [hlen, List.length_dropLast]; omega)
  have hpg : t.params = s.params ∧ t.xport.gainSel = s.xport.gainSel ∧ t.pins.rst = false := by
    rcases hfr with ⟨_, rfl⟩ | ⟨hn, hf⟩
    · exact ⟨rfl, rfl, h.rst⟩
    · exact ⟨hf.params, hf.gainSel hn, by rw [hf.pins]; exact h.rst⟩
  refine ⟨sessionDone (as.getLast hne) j t, ?_, ?_, ?_, ?_⟩
  · refine (congrArg (fun l => runWhile State.running l { s with eng := .arm j }) hev).trans (hrun.trans ?_)
    have := run_session hte hpg.2.2 (as.getLast hne) (by rw [hpg.1]; exact h.inBudget _ (List.getLast_mem hne)) rest
    rw [hpg.1, hpg.2.1] at this
    exact this
  · have h1 := SessionsFrame.one (as.getLast hne) j t
    conv => arg 2; rw [← List.dropLast_append_getLast hne]
    rcases hfr with ⟨hd, rfl⟩ | ⟨hn, hf⟩
    · rw [hd]; exact h1.congr rfl rfl rfl rfl rfl rfl rfl rfl rfl rfl
    · have hf' : SessionsFrame s as.dropLast t := hf.congr rfl rfl rfl rfl rfl rfl rfl rfl rfl rfl
      exact hf'.append h1 hn (by simp)
  · rw [sessionDone_cond, htc]
  · rw [sessionDone_port, htp]
    simp only [hs0, hlen, List.length_dropLast]
    have : as.length - (as.length - 1) = 1 := by omega
    rw [this]; simp

theorem sumOf_dropLast {as : List Answer} (hne : as ≠ []) :
    sumOf as.dropLast + (as.getLast hne).value = sumOf as := by
  conv_rhs => rw [← List.dropLast_append_getLast hne]
  simp [sumOf]

/-- The mapping update of `SET_GAIN` (R113). -/
theorem selectGain_eq (g : Nat) (s : State) : selectGain g s = withGain (.setGain g) s := by
  by_cases h1 : g = 128 <;> by_cases h2 : g = 64 <;> by_cases h3 : g = 32 <;>
    simp [selectGain, withGain, gainOperand, gainAfterInstr, gainAfter, h1, h2, h3]

/-! ### A session cut in mid-frame -/

/-- A cut session after the whole sessions of its command (R90 to R92, R127): `u` is the state at its arming. -/
theorem ScriptedCut.after {s u : State} {j : Job} {as : List Answer} {wait ms : Nat} {levels : List Bool}
    {vain : List Nat} {rest : List Event} (h : ScriptedCut s as wait levels vain ms rest)
    (hu : (as = [] ∧ u.params = s.params ∧ u.pins = s.pins ∧ u.ctl = s.ctl ∧ u.xport = s.xport ∧ u.link = s.link) ∨
      (as ≠ [] ∧ SessionsFrame s as u))
    (he : u.eng = .arm j) (hc : u.cond = s.cond) (hp : u.port.cmdReg = s.port.cmdReg) :
    AfterCut s as.length levels rest
      (runWhile State.running (cutSession s.params wait levels vain ms ++ rest) u) := by
  have key : u.params = s.params ∧ u.xport.gainSel = s.xport.gainSel ∧
      u.pins = { s.pins with pdSck := u.pins.pdSck, dout := u.pins.dout } ∧
      (u.xport.rx = s.xport.rx ∧ u.xport.polls = s.xport.polls ∧ u.xport.xfer = s.xport.xfer) ∧
      u.ctl = { s.ctl with armed := u.ctl.armed, mon := u.ctl.mon, start := u.ctl.start } ∧
      ∃ seg, u.link = seg ++ s.link ∧ Pulses seg (as.length * (24 + extraPulses s.xport.gainSel)) false := by
    rcases hu with ⟨rfl, h1, h2, h3, h4, h5⟩ | ⟨hn, hf⟩
    · exact ⟨h1, by rw [h4], by rw [h2], by simp [h4], by rw [h3], [], by simpa using h5, by simpa using Pulses.nil⟩
    · obtain ⟨last, hl⟩ := Option.ne_none_iff_exists'.1 (by simpa using hn : as.getLast? ≠ none)
      have ht := hf.transport last hl
      simp only [TransportAfter, h.transport] at ht
      obtain ⟨-, -, -, -, h1, h2, h3, -⟩ := ht
      exact ⟨hf.params, hf.gainSel hn, by rw [hf.pins], ⟨h1, h2, h3⟩, by rw [hf.control], hf.pulses⟩
  obtain ⟨k1, k2, k3, ⟨k4, k5, k6⟩, k7, seg, k8, k9⟩ := key
  have hrst : u.pins.rst = false := by rw [k3]; exact h.scripted.rst
  have hnow : u.pins.now = s.pins.now := by rw [k3]
  obtain ⟨t, hrun, hto, htc, -, seg', hl, hpu⟩ := run_cut he hrst (by rw [k1]; exact h.transport) wait levels vain ms
    (by rw [k2]; exact h.short) (by rw [k1]; exact h.early) (by rw [k1]; exact h.overdue) rest
  rw [k1] at hrun
  rw [hrun]
  refine ⟨⟨hto.params.trans k1, ?_, ?_, hto.cond.trans hc, hto.command.trans hp, hto.result, hto.status, hto.busy,
    hto.eng, hto.events⟩, ⟨?_, htc.2.trans hnow⟩, seg' ++ seg, by rw [hl, k8, List.append_assoc], ?_⟩
  · have := hto.pins
    rwa [k3] at this
  · have := hto.control
    rwa [k7] at this
  · have hx : u.xport =
        { gainSel := s.xport.gainSel, acc := u.xport.acc, raw := u.xport.raw, seq := u.xport.seq
          rx := s.xport.rx, polls := s.xport.polls, xfer := s.xport.xfer } := by
      rw [← k2, ← k4, ← k5, ← k6]
    rw [htc.1, k2, hx]
  · rw [(k9.append hpu).count]

/-- A command whose first session is cut. -/
theorem ScriptedCut.first {s : State} {wait ms : Nat} {levels : List Bool} {vain : List Nat} {rest : List Event}
    (h : ScriptedCut s [] wait levels vain ms rest) (j : Job) :
    AfterCut s 0 levels rest (runCommand (readRaw j s)) := by
  rw [readRaw_up _ _ h.scripted.power]
  have hrun : runCommand { s with eng := .arm j } = _ :=
    congrArg (fun l => runWhile State.running l { s with eng := .arm j }) h.scripted.events
  rw [hrun]
  exact h.after (.inl ⟨rfl, rfl, rfl, rfl, rfl, rfl⟩) rfl rfl rfl

/-- A summing command one of whose sessions is cut (R122, R126, R127). -/
theorem ScriptedCut.summing {s : State} {as : List Answer} {wait ms : Nat} {levels : List Bool} {vain : List Nat}
    {rest : List Event} (h : ScriptedCut s as wait levels vain ms rest) {j : Job} (hj : j.sums = true) (x : Int)
    (c : BitVec 32) (hlt : as.length < c.toNat) :
    AfterCut s as.length levels rest
      (runCommand (readRaw j { s with port.sum := x, port.cnt := c })) := by
  rw [readRaw_up j { s with port.sum := x, port.cnt := c } h.scripted.power]
  obtain ⟨t, hrun, hfr, hte, htc, htp⟩ := run_summing hj (cutSession s.params wait levels vain ms ++ rest) as
    { s with port.sum := x, port.cnt := c, eng := .arm j } rfl h.scripted.rst h.scripted.power h.scripted.inBudget hlt
  have hrun' : runCommand { s with port.sum := x, port.cnt := c, eng := .arm j } = _ :=
    (congrArg (fun l => runWhile State.running l { s with port.sum := x, port.cnt := c, eng := .arm j })
      h.scripted.events).trans hrun
  refine (congrArg (AfterCut s as.length levels rest) hrun').mpr (h.after ?_ hte htc (by rw [htp]))
  rcases hfr with ⟨rfl, rfl⟩ | ⟨hn, hf⟩
  · exact .inl ⟨rfl, rfl, rfl, rfl, rfl, rfl⟩
  · exact .inr ⟨hn, hf.congr rfl rfl rfl rfl rfl rfl rfl rfl rfl rfl⟩

end Sys2Proof.Machine
end

