-- ==== Sys2Proof/Laws/Encoding.lean ====
section
/-! SUPPORT. The fields of a command word put together from its fields (R63, R64), and the bytes of a pattern (R42). -/

namespace Sys2Proof

@[simp] theorem opField_commandWord (op : BitVec 8) (a b : BitVec 32) : opField (commandWord op a b) = op := by
  apply BitVec.eq_of_getLsbD_eq
  intro i hi
  simp only [opField, commandWord, BitVec.getLsbD_append, BitVec.getLsbD_extractLsb']
  have h1 : ¬ 64 + i < 32 := by omega
  have h2 : ¬ 64 + i - 32 < 32 := by omega
  have h3 : 64 + i - 32 - 32 = i := by omega
  simp [hi, h1, h2, h3]

@[simp] theorem aField_commandWord (op : BitVec 8) (a b : BitVec 32) : aField (commandWord op a b) = a := by
  apply BitVec.eq_of_getLsbD_eq
  intro i hi
  simp only [aField, commandWord, BitVec.getLsbD_append, BitVec.getLsbD_extractLsb']
  simp [hi]

@[simp] theorem bField_commandWord (op : BitVec 8) (a b : BitVec 32) : bField (commandWord op a b) = b := by
  apply BitVec.eq_of_getLsbD_eq
  intro i hi
  simp only [bField, commandWord, BitVec.getLsbD_append, BitVec.getLsbD_extractLsb']
  simp [hi]

theorem toInt_ofInt_numerator (x : Int) (h1 : -(2 ^ 31) ≤ x) (h2 : x < 2 ^ 31) : (BitVec.ofInt 32 x).toInt = x := by
  rw [BitVec.toInt_ofInt, Int.bmod_eq_of_le] <;> omega

theorem toNat_ofNat_unsigned (n : Nat) (h : n < 2 ^ 32) : (BitVec.ofNat 32 n).toNat = n := by
  rw [BitVec.toNat_ofNat]; omega

end Sys2Proof
end

