-- ==== Sys2Proof/Laws/PerInstr.lean ====
section
/-! SUPPORT. One family over the instructions: the code of an instruction lies in its row of the opcode table. -/

namespace Sys2Proof.Laws

/-- Width, match and mask of an instruction's row in the opcode table (R57, R65). -/
def tableRow : Instr → Nat × Nat × Nat
  | .read => (72, 0x010000000000000000, 0xFF0000000000000000)
  | .readAverage _ => (72, 0x020000000000000000, 0xFF0000000000000000)
  | .readLowpass => (72, 0x030000000000000000, 0xFF0000000000000000)
  | .getValue => (72, 0x040000000000000000, 0xFF0000000000000000)
  | .getUnits => (72, 0x050000000000000000, 0xFF0000000000000000)
  | .tare _ => (72, 0x060000000000000000, 0xFF0000000000000000)
  | .setGain _ => (72, 0x070000000000000000, 0xFF0000000000000000)
  | .setScale _ _ => (72, 0x080000000000000000, 0xFF0000000000000000)
  | .setOffset _ _ => (72, 0x090000000000000000, 0xFF0000000000000000)
  | .setTimeConstant _ _ => (72, 0x0A0000000000000000, 0xFF0000000000000000)
  | .getTimeConstant => (72, 0x0B0000000000000000, 0xFF0000000000000000)
  | .powerDown => (72, 0x0C0000000000000000, 0xFF0000000000000000)
  | .powerUp => (72, 0x0D0000000000000000, 0xFF0000000000000000)
  | .txpat1 => (56, 0b10101010101010101010101010101010101010101010101010000000, 0xFFFFFFFFFFFFFF)
  | .txpat2 => (56, 0b10101010101010101010101010101010101010101010101010100000, 0xFFFFFFFFFFFFFF)
  | .txpat3 => (56, 0b10101010101010101010101010101010101010101010101010101000, 0xFFFFFFFFFFFFFF)

/-- Width and value of a code. -/
def codeBits : Code → Nat × Nat
  | .command w => (72, w.toNat)
  | .pattern w => (56, w.toNat)

namespace EncodedOpcode

/-- The code has the row's width and, under the row's mask, the row's match value, whatever the operands. -/
def Statement (i : Instr) : Prop :=
  (codeBits (encode i)).1 = (tableRow i).1 ∧
    (codeBits (encode i)).2 &&& (tableRow i).2.2 = (tableRow i).2.1

theorem commandWord_masked (op : BitVec 8) (a b : BitVec 32) :
    (commandWord op a b).toNat &&& 0xFF0000000000000000 = op.toNat <<< 64 := by
  have h : (commandWord op a b) &&& 0xFF0000000000000000#72 = (op.setWidth 72) <<< 64 := by
    apply BitVec.eq_of_getLsbD_eq
    intro i hi
    have hm : (0xFF0000000000000000#72).getLsbD i = decide (64 ≤ i) := by
      interval_cases i <;> rfl
    rw [BitVec.getLsbD_and, hm, BitVec.getLsbD_shiftLeft, BitVec.getLsbD_setWidth]
    by_cases h64 : 64 ≤ i
    · have := congrArg (fun v => v.getLsbD (i - 64)) (opField_commandWord op a b)
      simp only [opField, BitVec.getLsbD_extractLsb'] at this
      have h1 : i - 64 < 8 := by omega
      have h2 : 64 + (i - 64) = i := by omega
      simp only [h1, h2, decide_true, Bool.true_and] at this
      have h3 : decide (i < 64) = false := by simp; omega
      have h4 : decide (i - 64 < 72) = true := by simp; omega
      rw [this, h3, h4, decide_eq_true h64, decide_eq_true hi]
      simp
    · have h3 : i < 64 := by omega
      simp [h64, h3]
  have h2 := congrArg BitVec.toNat h
  rw [BitVec.toNat_and, BitVec.toNat_shiftLeft, BitVec.toNat_setWidth] at h2
  have hop := op.isLt
  rw [Nat.mod_eq_of_lt (by omega : op.toNat < 2 ^ 72), Nat.mod_eq_of_lt] at h2
  · exact h2
  · rw [Nat.shiftLeft_eq]; omega

theorem read : Statement .read := ⟨rfl, commandWord_masked _ _ _⟩
theorem readAverage (n : Nat) : Statement (.readAverage n) := ⟨rfl, commandWord_masked _ _ _⟩
theorem readLowpass : Statement .readLowpass := ⟨rfl, commandWord_masked _ _ _⟩
theorem getValue : Statement .getValue := ⟨rfl, commandWord_masked _ _ _⟩
theorem getUnits : Statement .getUnits := ⟨rfl, commandWord_masked _ _ _⟩
theorem tare (n : Nat) : Statement (.tare n) := ⟨rfl, commandWord_masked _ _ _⟩
theorem setGain (g : Nat) : Statement (.setGain g) := ⟨rfl, commandWord_masked _ _ _⟩
theorem setScale (num : Int) (den : Nat) : Statement (.setScale num den) := ⟨rfl, commandWord_masked _ _ _⟩
theorem setOffset (num : Int) (den : Nat) : Statement (.setOffset num den) := ⟨rfl, commandWord_masked _ _ _⟩
theorem setTimeConstant (num : Int) (den : Nat) : Statement (.setTimeConstant num den) :=
  ⟨rfl, commandWord_masked _ _ _⟩
theorem getTimeConstant : Statement .getTimeConstant := ⟨rfl, commandWord_masked _ _ _⟩
theorem powerDown : Statement .powerDown := ⟨rfl, commandWord_masked _ _ _⟩
theorem powerUp : Statement .powerUp := ⟨rfl, commandWord_masked _ _ _⟩
theorem txpat1 : Statement .txpat1 := by constructor <;> decide
theorem txpat2 : Statement .txpat2 := by constructor <;> decide
theorem txpat3 : Statement .txpat3 := by constructor <;> decide

end EncodedOpcode

end Sys2Proof.Laws
end

