-- ==== Sys2Proof/Tests/Slice0.lean ====
section
/-! SUPPORT. The model's own tests: ill-formed terms, words written from the spec's encodings, single steps with results
taken from spec/95_test_vectors.md (the vector is named before each), and for each statement with hypotheses a concrete
state and operands that meet them. -/

namespace Sys2Proof.Tests

open Sys2Proof.Machine

set_option Elab.async false

/-! ### Helpers -/

/-- The reset state of an instance with the values of R5, at `NOW` = 1000, with a script. -/
def block (t : Transport) (es : List Event) : State :=
  { State.resetWith (Params.standard t) true 1000 with events := es }

/-- What the ideal converter of spec/95 section 0 shows in a session whose data word is `v`. -/
def answer (v : Sample24) : Answer := { wait := 0, data := v, highs := v, tail := 0xFF }

/-- The script of one session per data word. -/
def reads (t : Transport) (g : GainSel) (vs : List Sample24) : List Event :=
  vs.flatMap fun v => session (Params.standard t) g (answer v)

/-- The script of a converter that never becomes ready. -/
def never (t : Transport) : List Event := silentSession (Params.standard t) 2 500

/-- A next state for which a test holds. -/
def ends (o : Host.Outcome State Fault Refusal) (p : State → Bool) : Bool :=
  match o with
  | .next t => p t
  | .fault _ => false
  | .refused _ => false

/-! ### WellFormed refuses ill-formed terms (R64) -/

theorem test_wf_average : (Instr.readAverage 4294967296).wf = false := by decide
theorem test_wf_tare : (Instr.tare 4294967296).wf = false := by decide
theorem test_wf_gain : (Instr.setGain 4294967296).wf = false := by decide
theorem test_wf_scale_numerator : (Instr.setScale 2147483648 1).wf = false := by decide
theorem test_wf_scale_negative : (Instr.setScale (-2147483649) 1).wf = false := by decide
theorem test_wf_scale_denominator : (Instr.setScale 1 4294967296).wf = false := by decide
theorem test_wf_offset : (Instr.setOffset (-2147483649) 1).wf = false := by decide
theorem test_wf_time_constant : (Instr.setTimeConstant 1 4294967296).wf = false := by decide

/-! ### Words written out from R63 to R65 and R57 (spec/95 section 2.8 and 2.9) -/

theorem test_decode_read : decodeTableWord 72 0x010000000000000000 = some .read := by decide
theorem test_decode_average :
    decodeTableWord 72 0x02FFFFFFFF00000000 = some (.readAverage 4294967295) := by decide
theorem test_decode_lowpass : decodeTableWord 72 0x030000000000000000 = some .readLowpass := by decide
theorem test_decode_value : decodeTableWord 72 0x040000000000000000 = some .getValue := by decide
theorem test_decode_units : decodeTableWord 72 0x050000000000000000 = some .getUnits := by decide
theorem test_decode_tare : decodeTableWord 72 0x060000000F00000000 = some (.tare 15) := by decide
theorem test_decode_gain : decodeTableWord 72 0x070000008000000000 = some (.setGain 128) := by decide
theorem test_decode_scale :
    decodeTableWord 72 0x0880000000FFFFFFFF = some (.setScale (-2147483648) 4294967295) := by decide
theorem test_decode_offset : decodeTableWord 72 0x09FFFFFFF900000002 = some (.setOffset (-7) 2) := by decide
theorem test_decode_time_constant :
    decodeTableWord 72 0x0A7FFFFFFF80000000 = some (.setTimeConstant 2147483647 2147483648) := by decide
theorem test_decode_get_time_constant :
    decodeTableWord 72 0x0BDEADBEEF12345678 = some .getTimeConstant := by decide
theorem test_decode_power_down : decodeTableWord 72 0x0C0000000000000000 = some .powerDown := by decide
theorem test_decode_power_up : decodeTableWord 72 0x0D0000000000000000 = some .powerUp := by decide
theorem test_decode_txpat1 :
    decodeTableWord 56 0b10101010101010101010101010101010101010101010101010000000 = some .txpat1 := by decide
theorem test_decode_txpat2 :
    decodeTableWord 56 0b10101010101010101010101010101010101010101010101010100000 = some .txpat2 := by decide
theorem test_decode_txpat3 :
    decodeTableWord 56 0b10101010101010101010101010101010101010101010101010101000 = some .txpat3 := by decide
theorem test_decode_reserved :
    decode (.command 0x0E0000000000000000) = .error (.reservedOpcode 0x0E) ∧
      decode (.command 0xFFDEADBEEF00000001) = .error (.reservedOpcode 0xFF) := by decide
theorem test_decode_no_pattern : decode (.pattern 0xAAAAAAAAAAAAAA) = .error .notAPattern := by decide

/-! ### Single steps -/

/-- A1 and P6: the read in full on `SHIFTREG`, ready at the third poll. -/
theorem test_read_shiftreg :
    ends (exec .read (block .shiftreg (session (Params.standard .shiftreg) .offset1
      { answer 0x123456 with wait := 2 }))) (fun t =>
      decide (t.port.result = some 1193046) && decide (t.xport.polls = 3) &&
        decide (t.xport.rx = #v[0x03, 0x0C, 0x0F, 0x30, 0x33, 0x3C, 0xFF]) && !t.pins.pdSck) = true := by
  decide +kernel

/-- A2 on `PULSEGEN`. -/
theorem test_read_pulsegen :
    ends (exec .read (block .pulsegen (reads .pulsegen .offset1 [0xFFFFFF]))) (fun t =>
      decide (t.port.result = some (-1)) && decide (t.xport.raw = 0x0FFFFFF) &&
        decide (t.xport.seq.pIdx = 25)) = true := by
  decide +kernel

/-- A4: the mean is not rounded. -/
theorem test_read_average :
    ends (exec (.readAverage 2) (block .shiftreg (reads .shiftreg .offset1 [1, 2]))) (fun t =>
      decide (t.port.result = some (3 / 2)) && decide (t.port.status = 0x00)) = true := by
  decide +kernel

/-- A8: the first failure ends the command. -/
theorem test_read_average_fails :
    ends (exec (.readAverage 3) (block .pulsegen (reads .pulsegen .offset1 [10] ++ never .pulsegen))) (fun t =>
      decide (t.port.result = none) && decide (t.port.status = 0x11)) = true := by
  decide +kernel

/-- A9. -/
theorem test_read_lowpass :
    ends (exec .readLowpass (block .pulsegen (reads .pulsegen .offset1 [1]))) (fun t =>
      decide (t.cond.filtered = 1 / 4) && decide (t.port.result = some (1 / 4))) = true := by
  decide +kernel

/-- A10. -/
theorem test_read_lowpass_fails :
    ends (exec .readLowpass { block .shiftreg (never .shiftreg) with cond.filtered := 7 }) (fun t =>
      decide (t.cond.filtered = 7) && decide (t.port.status = 0x11)) = true := by
  decide +kernel

/-- A11. -/
theorem test_get_value :
    ends (exec .getValue
      { block .shiftreg (reads .shiftreg .offset1 [201]) with cond.filtered := 100, cond.offset := 101 }) (fun t =>
      decide (t.cond.filtered = 501 / 4) && decide (t.port.result = some (97 / 4))) = true := by
  decide +kernel

/-- A13: a negative scale. -/
theorem test_get_units :
    ends (exec .getUnits
      { block .pulsegen (reads .pulsegen .offset1 [201]) with
        cond.filtered := 100, cond.offset := 101, cond.scale := -1 / 2 }) (fun t =>
      decide (t.port.result = some (-97 / 2))) = true := by
  decide +kernel

/-- A14. -/
theorem test_tare :
    ends (exec (.tare 3)
      { block .shiftreg (reads .shiftreg .offset1 [100, 104, 99]) with cond.offset := 5, cond.filtered := 9 })
      (fun t =>
      decide (t.cond.offset = 101) && decide (t.cond.filtered = 9) && decide (t.port.result = none) &&
        decide (t.port.status = 0x00)) = true := by
  decide +kernel

/-- A15. -/
theorem test_tare_fails :
    ends (exec (.tare 3)
      { block .pulsegen (reads .pulsegen .offset1 [100] ++ never .pulsegen) with cond.offset := 5 }) (fun t =>
      decide (t.cond.offset = 5) && decide (t.port.status = 0x11)) = true := by
  decide +kernel

/-- G1: both frames have 27 pulses. -/
theorem test_set_gain :
    ends (exec (.setGain 64) (block .shiftreg (reads .shiftreg .offset3 [500, 100]))) (fun t =>
      decide (t.xport.gainSel = .offset3) && decide (t.cond.filtered = 100) &&
        decide (risings false t.link.reverse = 54)) = true := by
  decide +kernel

/-- G4: any other gain keeps the mapping, and no failure is reported. -/
theorem test_set_gain_ignored :
    ends (exec (.setGain 77)
      { block .pulsegen (reads .pulsegen .offset2 [3, 4]) with xport.gainSel := .offset2 }) (fun t =>
      decide (t.xport.gainSel = .offset2) && decide (t.cond.filtered = 4) && decide (t.port.status = 0x00)) = true := by
  decide +kernel

/-- K5. -/
theorem test_set_scale :
    ends (exec (.setScale (-1) 2) (block .shiftreg [])) (fun t => decide (t.cond.scale = -1 / 2)) = true := by
  decide +kernel

/-- K3. -/
theorem test_set_scale_zero :
    ends (exec (.setScale 0 5) { block .shiftreg [] with cond.scale := 2 }) (fun t =>
      decide (t.cond.scale = 2) && decide (t.port.status = 0x23)) = true := by
  decide +kernel

/-- K7. -/
theorem test_set_offset :
    ends (exec (.setOffset (-7) 2) (block .shiftreg [])) (fun t => decide (t.cond.offset = -7 / 2)) = true := by
  decide +kernel

/-- K9. -/
theorem test_set_offset_no_rational :
    ends (exec (.setOffset 5 0) { block .shiftreg [] with cond.offset := 101 }) (fun t =>
      decide (t.cond.offset = 101) && decide (t.port.status = 0x23)) = true := by
  decide +kernel

/-- K15. -/
theorem test_set_time_constant :
    ends (exec (.setTimeConstant 2147483647 2147483648) (block .shiftreg [])) (fun t =>
      decide (t.cond.tc = 2147483647 / 2147483648)) = true := by
  decide +kernel

/-- K11: the end 1 is excluded. -/
theorem test_set_time_constant_one :
    ends (exec (.setTimeConstant 1 1) (block .shiftreg [])) (fun t =>
      decide (t.cond.tc = 1 / 4) && decide (t.port.status = 0x23)) = true := by
  decide +kernel

/-- K16. -/
theorem test_get_time_constant :
    ends (exec .getTimeConstant (block .shiftreg [])) (fun t => decide (t.port.result = some (1 / 4))) = true := by
  decide +kernel

/-- K17. -/
theorem test_power_down :
    ends (exec .powerDown (block .pulsegen [])) (fun t =>
      t.pins.pdSck && decide (t.ctl.power = .down) && decide (t.port.status = 0x00)) = true := by
  decide

/-- K19. -/
theorem test_power_up :
    ends (exec .powerUp { block .pulsegen [] with pins.pdSck := true, ctl.power := .down }) (fun t =>
      !t.pins.pdSck && decide (t.ctl.power = .up)) = true := by
  decide

/-- K21 and K22: a read while powered down, and the operand check before it. -/
theorem test_powered_down :
    ends (exec .read { block .pulsegen [] with pins.pdSck := true, ctl.power := .down }) (fun t =>
      decide (t.port.status = 0x24) && t.pins.pdSck && decide (t.link = [])) = true ∧
    ends (exec (.readAverage 0) { block .pulsegen [] with pins.pdSck := true, ctl.power := .down }) (fun t =>
      decide (t.port.status = 0x23)) = true := by
  decide

/-- Section 2.3: the row of `V` = `0x800000`, and the line low after each pattern. -/
theorem test_txpat1 :
    ends (exec .txpat1 (block .shiftreg (transferEvents (answer 0x800000)))) (fun t =>
      decide (t.xport.rx = #v[0xC0, 0, 0, 0, 0, 0, 0xFF]) && !t.pins.pdSck &&
        decide (risings false t.link.reverse = 25)) = true := by
  decide +kernel
theorem test_txpat2 :
    ends (exec .txpat2 (block .shiftreg (transferEvents (answer 0x7FFFFF)))) (fun t =>
      decide (t.xport.rx = #v[0x3F, 0xFF, 0xFF, 0xFF, 0xFF, 0xFF, 0xFF]) &&
        decide (risings false t.link.reverse = 26)) = true := by
  decide +kernel
theorem test_txpat3 :
    ends (exec .txpat3 (block .shiftreg (transferEvents (answer 0x000001)))) (fun t =>
      decide (t.xport.rx = #v[0, 0, 0, 0, 0, 0x03, 0xFF]) &&
        decide (risings false t.link.reverse = 27)) = true := by
  decide +kernel

/-- M1, M2, M3, M5, M6: one poll of the Monitor; the status tells which branch it took (`0x00` = none yet). -/
def polled (start now : Timer) (done : Bool) : State :=
  tick .engine
    { block .pulsegen [] with
      eng := .watch .read, pins.now := now, ctl.start := start, ctl.armed := true, ctl.mon := .armed
      xport.seq.done := done, xport.raw := if done then 5 else sentinel }

theorem test_monitor_polls :
    (polled 1000 1499 false).ctl.mon = .armed ∧ (polled 1000 1500 false).port.status = 0x11 ∧
    (polled 1000 1500 true).port.result = some 5 ∧ (polled 0xFFFFFF00 0x00000063 false).ctl.mon = .armed ∧
    (polled 0xFFFFFF00 0x000000F4 false).port.status = 0x11 := by
  decide +kernel

/-- T2: nine bits sampled, the tenth pulse cut by the timeout. -/
theorem test_stall_in_high :
    ends (exec .read (block .pulsegen ([.engine, .dout false, .seq] ++
      List.flatten (List.replicate 9 [.dout true, .seq, .seq]) ++ [.time 200, .engine, .time 300, .engine]))) (fun t =>
      decide (t.xport.acc = 0x0001FF) && decide (t.xport.seq.pIdx = 10) && !t.pins.pdSck &&
        decide (t.xport.raw = 0x1FFFFFF) && decide (t.port.status = 0x11) &&
        decide (risings false t.link.reverse = 10)) = true := by
  decide +kernel

/-- Section 2.3: mask and table. -/
theorem test_nibbles :
    rxNibble 0xAA = 0x0 ∧ rxNibble 0xFF = 0xF ∧ rxNibble 0x56 = 0xE ∧ rxNibble 0xAB = 0x1 ∧ rxNibble 0xC0 = 0x8 ∧
      rxNibble 0xE5 = 0xB := by decide

/-- Section 2.1. -/
theorem test_decode_sample :
    decodeSample 0x0800001 = .ok (-8388607) ∧ decodeSample 0x1000000 = .error .noResponse ∧
      encodeSample (-3) = 0xFFFFFD ∧ encodeSample (-8388608) = 0x800000 := by decide

/-- Section 2.9: a reserved opcode. -/
theorem test_reserved_opcode :
    ends (step { block .shiftreg [] with pins.cmd := 0x0E0000000000000000, pins.cmdValid := true }) (fun t =>
      decide (t.port.status = 0x25) && decide (t.port.cmdReg = 0x0E0000000000000000)) = true := by
  decide

/-- R5, R175: the first step after reset takes the placed word. -/
theorem test_with_fetch_word :
    ends (step (State.reset.withFetchWord 72 0x080000000200000001)) (fun t => decide (t.cond.scale = 2)) = true := by
  decide +kernel

/-! ### Witnesses: the hypotheses of each statement are met -/

theorem witness_DecodeInvertsEncode :
    (Instr.setScale (-2147483648) 4294967295).wf = true ∧ (Instr.tare 4294967295).wf = true := by decide

theorem witness_DecodedInstructionsAreWellFormed :
    decode (.command 0x0880000000FFFFFFFF) = .ok (.setScale (-2147483648) 4294967295) := by decide

theorem witness_UnusedFieldsAreIgnored :
    (opField 0x0B0000000000000000 = opField 0x0BDEADBEEF12345678 ∧
      opField 0x0B0000000000000000 ∈ [0x01, 0x03, 0x04, 0x05, 0x0B, 0x0C, 0x0D]) ∧
    (opField 0x070000004000000000 = opField 0x0700000040FFFFFFFF ∧
      opField 0x070000004000000000 ∈ [0x02, 0x06, 0x07] ∧
      aField 0x070000004000000000 = aField 0x0700000040FFFFFFFF) ∧
    opField 0x0A0000000100000004 ∈ [0x08, 0x09, 0x0A] := by decide

theorem witness_ReservedOpcodesSelectNoCommand :
    (opField 0x000000000000000000 = 0x00 ∧ 0x0E ≤ (opField 0x0E0000000000000000).toNat) ∧
      ¬ (opField 0x0D0000000000000000 = 0x00 ∨ 0x0E ≤ (opField 0x0D0000000000000000).toNat) := by decide

theorem witness_NibbleTablePacksTheEvenBits : (0x55 : Byte) &&& 0xAA = 0 := by decide

theorem witness_GainCodeTable : (0 : Nat) ≠ 128 ∧ (0 : Nat) ≠ 64 ∧ (0 : Nat) ≠ 32 := by decide

theorem witness_DecodeGivesTheSignedSample :
    (0x1FFFFFF : RawWord).getLsbD 24 = true ∧ (0x0FFFFFF : RawWord).getLsbD 24 = false ∧
      (0x0FFFFFF : RawWord).extractLsb' 0 24 = 0xFFFFFF := by decide

theorem witness_SampleRoundTrip :
    (-(2 ^ 23) ≤ (-8388608 : Int) ∧ (-8388608 : Int) ≤ 2 ^ 23 - 1) ∧
    (-(2 ^ 23) ≤ (8388607 : Int) ∧ (8388607 : Int) ≤ 2 ^ 23 - 1) ∧
    decodeSample (rawOf 5) = decodeSample (rawOf 5) := by decide

theorem witness_AccumulatorWeighsTheSampledBits : (List.replicate 24 true).length ≤ 24 := by decide

theorem witness_DroppingTheGainBits :
    1 ≤ 3 ∧ 3 ≤ 3 ∧ 27 ≤ 27 ∧ (bitsOf (0x123456 : Sample24)).length = 24 ∧ [true, true, true].length = 3 ∧
      26 < 24 + 3 ∧ 2 ≠ 3 := by decide

theorem witness_FilterStepLaws :
    (0 : Rat) < 1 / 4 ∧ (1 / 4 : Rat) < 1 ∧ (0 : Rat) ≠ 1 ∧ (1 : Rat) = 1 := by decide +kernel

theorem witness_SetScaleStoresANonZeroScale :
    ((0 : Nat) = 0 ∨ (1 : Int) = 0) ∧ ((5 : Nat) = 0 ∨ (0 : Int) = 0) ∧ ((1 : Nat) ≠ 0 ∧ (2 : Int) ≠ 0) := by decide

theorem witness_SetOffsetStoresAnyRational : (0 : Nat) = 0 ∧ (1 : Nat) ≠ 0 := by decide

theorem witness_SetTimeConstantStoresAnInnerValue :
    ((0 : Int) : Rat) / (1 : Nat) ≤ 0 ∧ 1 ≤ ((1 : Int) : Rat) / (1 : Nat) ∧
    ((10 : Nat) ≠ 0 ∧ 0 < ((1 : Int) : Rat) / (10 : Nat) ∧ ((1 : Int) : Rat) / (10 : Nat) < 1) := by decide +kernel

theorem witness_ConfigurationIgnoresPinsAndPower :
    Instr.setScale 2 1 ∈ [.setScale 2 1, .setOffset 2 1, .setTimeConstant 2 1, .getTimeConstant] ∧
    (block .shiftreg []).cond = { block .pulsegen [] with ctl.power := .down }.cond ∧
    (block .shiftreg []).port = { block .pulsegen [] with ctl.power := .down }.port := by decide +kernel

theorem witness_ReadsAreRefusedWhilePoweredDown :
    readsConverter .read = true ∧ Instr.wf (.tare 4294967295) = true ∧ { block .pulsegen [] with ctl.power := .down }.ctl.power = .down ∧
    passesChecks .read (block .pulsegen []) ∧ ¬ passesChecks (.readAverage 0) (block .pulsegen []) :=
  ⟨rfl, by decide, rfl, trivial, fun h => h rfl⟩

theorem witness_InvalidConfigurationComesFirst :
    { block .pulsegen [] with cond.scale := 0 }.cond.scale = 0 ∧
    ((0 : Int) ≤ 0 ∨ ((4 : Nat) : Int) ≤ 0) ∧ ((1 : Int) ≤ 0 ∨ ((1 : Nat) : Int) ≤ 1) := by decide +kernel

/-- A state just before arming. -/
def arming (t : Transport) : State := { block t [] with eng := .arm .read, port.busy := true }

theorem witness_ArmingInitialisesTheSession :
    (arming .pulsegen).eng = .arm .read ∧ (arming .pulsegen).pins.rst = false ∧
    (arming .pulsegen).params.transport = .pulsegen ∧ (arming .shiftreg).eng = .arm .read ∧
    (arming .shiftreg).pins.rst = false ∧ (arming .shiftreg).params.transport = .shiftreg := by decide

/-- An active sequencer in a given phase. -/
def sequencing (phase : Phase) (pIdx : BitVec 5) : State :=
  { block .pulsegen [] with xport.seq := { active := true, nPulse := 25, phase := phase, pIdx := pIdx, done := false } }

theorem witness_SequencerSteps :
    ((block .pulsegen []).xport.seq.active = false ∧ (block .shiftreg []).params.transport = .shiftreg ∧
      { sequencing .high 3 with pins.rst := true }.pins.rst = true) ∧
    (∀ phase pIdx, (sequencing phase pIdx).pins.rst = false ∧
      (sequencing phase pIdx).params.transport = .pulsegen ∧ (sequencing phase pIdx).xport.seq.active = true ∧
      (sequencing phase pIdx).xport.seq.phase = phase ∧ (sequencing phase pIdx).pins.dout ≠ false ∧
      (sequencing phase pIdx).params.readyLevel = false) ∧
    { sequencing .waitReady 0 with pins.dout := false }.pins.dout = false ∧
    (sequencing .high 24).xport.seq.pIdx.toNat ≤ 24 ∧ 24 < (sequencing .high 25).xport.seq.pIdx.toNat ∧
    (sequencing .low 24).xport.seq.pIdx.toNat < (sequencing .low 24).xport.seq.nPulse.toNat ∧
    (sequencing .low 25).xport.seq.pIdx = (sequencing .low 25).xport.seq.nPulse := by
  refine ⟨by decide, fun _ _ => ⟨rfl, rfl, rfl, rfl, by show true ≠ false; decide, rfl⟩, ?_⟩
  decide

/-- A Monitor loop at a given elapsed time. -/
def watching (elapsed : Timer) (done : Bool) : State :=
  { block .pulsegen [] with
    eng := .watch .read, pins.now := 1000 + elapsed, ctl.start := 1000
    xport.seq.done := done, xport.raw := if done then rawOf 5 else sentinel }

theorem witness_MonitorPoll :
    (∀ e d, (watching e d).eng = .watch .read ∧ (watching e d).pins.rst = false ∧
      (watching e d).xport.seq.done = d) ∧
    (watching 0 true).xport.raw = rawOf 5 ∧
    (watching 500 false).params.deadlineMs ≤ ((watching 500 false).pins.now - (watching 500 false).ctl.start).toNat ∧
    ((watching 499 false).pins.now - (watching 499 false).ctl.start).toNat < (watching 499 false).params.deadlineMs := by
  refine ⟨fun _ _ => ⟨rfl, rfl, rfl⟩, ?_⟩
  decide

/-- A ready-poll loop after a number of polls. -/
def polling (polls : Nat) (dout : Bool) : State :=
  { block .shiftreg [] with eng := .poll .read, xport.polls := polls, pins.dout := dout }

theorem witness_ReadyPoll :
    (∀ n d, (polling n d).eng = .poll .read ∧ (polling n d).pins.rst = false) ∧
    ((polling 499 false).xport.polls < (polling 499 false).params.pollBudget ∧
      (polling 499 false).pins.dout = (polling 499 false).params.readyLevel) ∧
    (polling 499 true).pins.dout ≠ (polling 499 true).params.readyLevel ∧
    (polling 500 true).params.pollBudget ≤ (polling 500 true).xport.polls := by
  refine ⟨fun _ _ => ⟨rfl, rfl⟩, ?_⟩
  decide

/-- A wait for a transfer. -/
def transferring (x : Option Xfer) : State := { block .shiftreg [] with eng := .transfer .read, xport.xfer := x }

theorem witness_TransferIsAwaitedAndDecoded :
    (transferring none).eng = .transfer .read ∧ (transferring none).pins.rst = false ∧
    (transferring none).xport.xfer = none ∧
    (transferring (some { tx := txpat .offset1, slot := 55 })).xport.xfer ≠ none := by decide

theorem witness_OnlyItsBoundOrResetEndsASession :
    ((watching 500 false).eng.inSession = true ∧ (tick .engine (watching 500 false)).eng.inSession = false) ∧
    ((polling 500 true).eng.inSession = true ∧ (tick .engine (polling 500 true)).eng.inSession = false) ∧
    (tick .engine (transferring none)).eng.inSession = false ∧
    (tick (.rst true) (watching 0 false)).eng.inSession = false := by decide +kernel

theorem witness_TransferRunsItsPattern :
    (block .shiftreg ((Vector.replicate 56 true).toList.flatMap fun d => [.dout d, .xfer])).params.transport =
      .shiftreg ∧
    (block .shiftreg ((Vector.replicate 56 true).toList.flatMap fun d => [.dout d, .xfer])).pins.rst = false ∧
    (block .shiftreg ((Vector.replicate 56 true).toList.flatMap fun d => [.dout d, .xfer])).events =
      (Vector.replicate 56 true).toList.flatMap (fun d => [.dout d, .xfer]) ++ [] := by
  refine ⟨rfl, rfl, ?_⟩
  simp [block]

theorem witness_PatternsNeedThePeripheral : (block .pulsegen []).params.transport = .pulsegen := by decide

theorem scripted_block (t : Transport) (vs : List Sample24) :
    Scripted (block t (reads t .offset1 vs)) (vs.map answer) [] where
  events := by cases t <;> simp [block, reads, State.resetWith, Params.standard, Config.gainReset, List.flatMap_map]
  inBudget := by
    intro a ha
    obtain ⟨v, -, rfl⟩ := List.mem_map.1 ha
    cases t <;> simp [Answer.inBudget, answer, block, State.resetWith, Params.standard]
  rst := rfl
  power := rfl

theorem witness_ReadReturnsTheSample :
    Scripted (block .pulsegen (reads .pulsegen .offset1 [0x800000])) [answer 0x800000] [] ∧
    Scripted (block .shiftreg (reads .shiftreg .offset1 [0x7FFFFF])) [answer 0x7FFFFF] [] :=
  ⟨scripted_block .pulsegen [0x800000], scripted_block .shiftreg [0x7FFFFF]⟩

theorem witness_ReadAverageReturnsTheMean :
    0 < 2 ∧ 2 < 2 ^ 32 ∧ [answer 1, answer 2].length = 2 ∧
    Scripted (block .shiftreg (reads .shiftreg .offset1 [1, 2])) [answer 1, answer 2] [] :=
  ⟨by decide, by decide, rfl, scripted_block .shiftreg [1, 2]⟩

theorem witness_ReadLowpassStepsTheFilter :
    Scripted (block .pulsegen (reads .pulsegen .offset1 [1])) [answer 1] [] ∧
    (1 / 4 : Rat) = (block .pulsegen []).cond.filtered +
      (block .pulsegen []).cond.tc * ((answer 1).value - (block .pulsegen []).cond.filtered) :=
  ⟨scripted_block .pulsegen [1], by decide +kernel⟩

theorem witness_GetValueSubtractsTheOffset :
    Scripted (block .shiftreg (reads .shiftreg .offset1 [1])) [answer 1] [] ∧
    (1 / 4 : Rat) = (block .shiftreg []).cond.filtered +
      (block .shiftreg []).cond.tc * ((answer 1).value - (block .shiftreg []).cond.filtered) :=
  ⟨scripted_block .shiftreg [1], by decide +kernel⟩

theorem witness_GetUnitsDividesByTheScale :
    Scripted (block .shiftreg (reads .shiftreg .offset1 [1])) [answer 1] [] ∧
    (block .shiftreg (reads .shiftreg .offset1 [1])).cond.scale ≠ 0 ∧
    (1 / 4 : Rat) = (block .shiftreg []).cond.filtered +
      (block .shiftreg []).cond.tc * ((answer 1).value - (block .shiftreg []).cond.filtered) :=
  ⟨scripted_block .shiftreg [1], by decide +kernel, by decide +kernel⟩

theorem witness_TareStoresTheMean :
    0 < 1 ∧ 1 < 2 ^ 32 ∧ [answer 7].length = 1 ∧
    Scripted (block .pulsegen (reads .pulsegen .offset1 [7])) [answer 7] [] :=
  ⟨by decide, by decide, rfl, scripted_block .pulsegen [7]⟩

theorem witness_SetGainSelectsAndSeeds :
    Scripted (withGain (.setGain 128) (block .pulsegen (reads .pulsegen .offset1 [500, 100])))
      [answer 500, answer 100] [] ∧
    Scripted (withGain (.setGain 77) (block .shiftreg (reads .shiftreg .offset1 [3, 4]))) [answer 3, answer 4] [] :=
  ⟨scripted_block .pulsegen [500, 100], scripted_block .shiftreg [3, 4]⟩

/-- A block whose converter answers a few reads and is then silent. -/
def failing (t : Transport) (vs : List Sample24) : State := block t (reads t .offset1 vs ++ never t)

theorem scripted_silent (t : Transport) (vs : List Sample24) :
    ScriptedSilent (failing t vs) (vs.map answer) 2 500 [] where
  scripted :=
    { events := by
        cases t <;>
          simp [failing, block, reads, never, State.resetWith, Params.standard, Config.gainReset, List.flatMap_map]
      inBudget := by
        intro a ha
        obtain ⟨v, -, rfl⟩ := List.mem_map.1 ha
        cases t <;> simp [Answer.inBudget, answer, failing, block, State.resetWith, Params.standard]
      rst := rfl
      power := rfl }
  overdue := by cases t <;> simp [Overdue, failing, block, State.resetWith, Params.standard]
  low := rfl

theorem witness_SilentConverterTimesOut :
    readsConverter .getUnits = true ∧ passesChecks .getUnits (failing .pulsegen []) ∧
    (∀ n, Instr.getUnits = .readAverage n ∨ Instr.getUnits = .tare n → n < 2 ^ 32) ∧
    ScriptedSilent (withGain .getUnits (failing .pulsegen [])) [] 2 500 [] ∧
    (readsConverter (.tare 4294967295) = true ∧ passesChecks (.tare 4294967295) (failing .shiftreg []) ∧
      ScriptedSilent (withGain (.tare 4294967295) (failing .shiftreg [])) [] 2 500 []) := by
  refine ⟨rfl, ?_, by simp, scripted_silent .pulsegen [], rfl, ?_, scripted_silent .shiftreg []⟩
  · show (failing .pulsegen []).cond.scale ≠ 0
    decide +kernel
  · show (4294967295 : Nat) ≠ 0
    decide

/-- A block whose converter answers a few reads, and whose sequencer then stops after the given steps of the next frame,
with one poll of the Monitor in vain. -/
def cutting (vs : List Sample24) (levels : List Bool) : State :=
  block .pulsegen (reads .pulsegen .offset1 vs ++ cutSession (Params.standard .pulsegen) 0 levels [100] 400)

theorem scripted_cut (vs : List Sample24) (levels : List Bool) (h : levels.length < 50) :
    ScriptedCut (cutting vs levels) (vs.map answer) 0 levels [100] 400 [] where
  scripted :=
    { events := by
        simp [cutting, block, reads, State.resetWith, Params.standard, Config.gainReset, List.flatMap_map]
      inBudget := fun _ _ => by simp [Answer.inBudget, cutting, block, State.resetWith, Params.standard]
      rst := rfl
      power := rfl }
  transport := rfl
  short := h
  early := fun _ => show (100 : Nat) < 500 by decide
  overdue := by simp [Overdue, cutting, block, State.resetWith, Params.standard]
  low := rfl

/-- The second clause is met by the runs of T2 (stalled in the high phase of pulse 10 of the first frame) and of P8
(stalled after pulse 12 of the second frame), and one step before a frame is whole. -/
theorem witness_LaterReadFailureEndsTheCommand :
    ((∀ n, Instr.readAverage 3 = .readAverage n ∨ Instr.readAverage 3 = .tare n → n < 2 ^ 32) ∧
      [answer 10].length < readCount (.readAverage 3) ∧ (∃ n, Instr.readAverage 3 = .readAverage n) ∧
      ScriptedSilent (withGain (.readAverage 3) (failing .pulsegen [10])) [answer 10] 2 500 []) ∧
    ((∀ n, Instr.setGain 128 = .readAverage n ∨ Instr.setGain 128 = .tare n → n < 2 ^ 32) ∧
      [answer 500].length < readCount (.setGain 128) ∧
      ScriptedSilent (withGain (.setGain 128) (failing .shiftreg [500])) [answer 500] 2 500 []) ∧
    (readsConverter .read = true ∧ passesChecks .read (cutting [] (List.replicate 18 true)) ∧
      ScriptedCut (withGain .read (cutting [] (List.replicate 18 true))) [] 0 (List.replicate 18 true) [100] 400 []) ∧
    (readsConverter (.tare 3) = true ∧ passesChecks (.tare 3) (cutting [60] (List.replicate 23 false)) ∧
      ScriptedCut (withGain (.tare 3) (cutting [60] (List.replicate 23 false))) [answer 60] 0
        (List.replicate 23 false) [100] 400 []) ∧
    ScriptedCut (withGain .read (cutting [] (List.replicate 49 true))) [] 0 (List.replicate 49 true) [100] 400 [] :=
  ⟨⟨by simp, by decide, ⟨3, rfl⟩, scripted_silent .pulsegen [10]⟩,
    ⟨by simp, by decide, scripted_silent .shiftreg [500]⟩,
    ⟨rfl, trivial, scripted_cut [] _ (by decide)⟩,
    ⟨rfl, by show (3 : Nat) ≠ 0; decide, scripted_cut [60] _ (by decide)⟩, scripted_cut [] _ (by decide)⟩

/-- R31, P3: a session whose polls run out leaves nothing of an earlier session in `RX`. -/
theorem test_silent_clears_rx :
    ends (exec .read { failing .shiftreg [] with xport.rx := #v[1, 2, 3, 4, 5, 6, 7] }) (fun t =>
      decide (t.xport.rx = #v[0, 0, 0, 0, 0, 0, 0]) && decide (t.xport.polls = 500) &&
        decide (t.port.status = 0x11)) = true := by
  decide +kernel

/-- P8: the second session of `TARE 3` stops after twelve pulses. -/
theorem test_tare_cut :
    ends (exec (.tare 3) { cutting [60] (List.replicate 23 false) with cond.offset := 5, cond.filtered := 50 }) (fun t =>
      decide (t.port.status = 0x11) && decide (t.port.result = none) && decide (t.cond.offset = 5) &&
        decide (t.xport.seq.pIdx = 12) && !t.pins.pdSck && decide (t.xport.raw = 0x1FFFFFF) &&
        decide (risings false t.link.reverse = 37)) = true := by
  decide +kernel

theorem sound_block (t : Transport) (es : List Event) : Sound (block t es) :=
  (sound_resetWith (Params.standard t) true 1000).setEvents es

theorem inv_block (t : Transport) (es : List Event) : Inv (block t es) := ⟨sound_block t es, rfl⟩

theorem witness_NoPartialWork :
    isCommand .read = true ∧ Sound (failing .shiftreg []) ∧ (failing .shiftreg []).eng = .idle ∧
    Undisturbed (failing .shiftreg []) ∧
    (∃ t, exec .read (failing .shiftreg []) = .next t ∧ t.eng = .idle ∧ t.port.status ≠ 0x00) ∧
    ∃ t, exec .read (block .pulsegen [.engine]) = .next t ∧ t.eng ≠ .idle := by
  refine ⟨rfl, sound_block .shiftreg _, rfl, ⟨rfl, ?_⟩, ⟨_, rfl, ?_, ?_⟩, _, rfl, ?_⟩ <;> decide +kernel

theorem witness_StepRunsTheDecodedInstruction :
    ({ block .shiftreg [] with pins.cmd := 0x0C0000000000000000, pins.cmdValid := true }.pins.rst = false ∧
      { block .shiftreg [] with pins.cmd := 0x0C0000000000000000, pins.cmdValid := true }.xport.xfer = none ∧
      { block .shiftreg [] with pins.cmd := 0x0C0000000000000000, pins.cmdValid := true }.port.busy = false ∧
      decode (.command 0x0C0000000000000000) = .ok .powerDown) ∧
    ((transferring (some { tx := txpat .offset2, slot := 0 })).xport.xfer = some { tx := txpat .offset2, slot := 0 } ∧
      decode (.pattern (patternWord (txpat .offset2))) = .ok .txpat2) ∧
    ({ transferring (some { tx := txpat .offset2, slot := 1 }) with events := [.xfer] }.events = [.xfer] ∧
      (⟨1, by decide⟩ : Fin 56) ≠ 0) ∧
    ((arming .pulsegen).xport.xfer = none ∧ (arming .pulsegen).port.busy = true ∧ (arming .pulsegen).events = []) ∧
    ((block .pulsegen [.engine]).xport.xfer = none ∧ (block .pulsegen [.engine]).pins.cmdValid = false ∧
      (block .pulsegen [.engine]).events = [.engine]) := by decide

/-- The invariant holds in a state in which a command runs. -/
theorem inv_arming (t : Transport) : Inv (arming t) := by
  refine ⟨?_, rfl⟩
  have h := sound_resetWith (Params.standard t) true 1000
  exact ⟨h.1, h.2, h.3, h.4, h.5, h.6, h.7, fun _ => rfl, ⟨⟨rfl, rfl⟩, rfl, rfl⟩, fun j hj => by cases hj; trivial⟩

theorem witness_CommandPortAcceptsOnlyWhenIdle :
    (Inv (block .shiftreg []) ∧ (block .shiftreg []).pins.rst = false ∧ (block .shiftreg []).port.busy = false) ∧
    (Inv (arming .pulsegen) ∧ (arming .pulsegen).pins.rst = false ∧ (arming .pulsegen).port.busy = true) :=
  ⟨⟨inv_block .shiftreg [], rfl, rfl⟩, inv_arming .pulsegen, rfl, rfl⟩

/-- A block to which a word is presented. -/
def presented (w : CommandWord) : State := tick (.present w) (block .shiftreg [])

theorem witness_ReservedOpcodeFails :
    (∀ w, Inv (presented w) ∧ (presented w).pins.rst = false ∧ (presented w).port.busy = false ∧
      (presented w).pins.cmdValid = true) ∧
    opField (presented 0).pins.cmd = 0x00 ∧ 0x0E ≤ (opField (presented 0x0E0000000000000000).pins.cmd).toNat :=
  ⟨fun _ => ⟨(inv_block .shiftreg []).tick _, rfl, rfl, rfl⟩, by decide, by decide⟩

theorem witness_ResetLoadsEveryRegister : { arming .pulsegen with pins.rst := true }.pins.rst = true := by decide

theorem witness_ResetAbandonsTheCommand :
    { watching 3 false with events := [.rst true] }.eng ≠ .idle ∧
    { watching 3 false with events := [.rst true] }.events = .rst true :: [] := by decide

theorem witness_StepKeepsInvariant :
    (Inv (presented 0x0C0000000000000000) ∧ ∃ t, step (presented 0x0C0000000000000000) = .next t) ∧
    (Inv (arming .pulsegen) ∧ ∃ t, step (arming .pulsegen) = .next t) :=
  ⟨⟨(inv_block .shiftreg []).tick _, _, rfl⟩, inv_arming .pulsegen, _, rfl⟩

theorem witness_TheBlockNeverHalts : Inv (block .pulsegen []) ∧ Inv (arming .shiftreg) :=
  ⟨inv_block _ _, inv_arming _⟩

theorem witness_IdleBetweenCommands :
    (Inv (block .pulsegen []) ∧ (block .pulsegen []).port.busy = false) ∧
    (Inv (tick .engine (arming .shiftreg)) ∧ (tick .engine (arming .shiftreg)).ctl.armed = true) ∧
    (Inv (raise .poweredDown (block .pulsegen [])) ∧
      statusClass (raise .poweredDown (block .pulsegen [])).port.status ≠ 0) :=
  ⟨⟨inv_block _ _, rfl⟩, ⟨(inv_arming .shiftreg).tick _, rfl⟩, by
    have h := sound_resetWith (Params.standard .pulsegen) true 1000
    exact ⟨⟨h.1, h.2, h.3, .inr ⟨.poweredDown, rfl⟩, fun _ => rfl, h.6, h.7, h.8, h.9, h.10⟩, rfl⟩, by decide⟩

theorem witness_NoResponseNeverArises :
    Inv { block .pulsegen [] with port.status := 0x12 } ∧
    ∃ t, step { block .pulsegen [] with port.status := 0x12 } = .next t ∧ t.port.status = 0x12 := by
  have h := sound_resetWith (Params.standard .pulsegen) true 1000
  exact ⟨⟨⟨h.1, h.2, h.3, .inr ⟨.noResponse, rfl⟩, fun _ => rfl, h.6, h.7, h.8, h.9, h.10⟩, rfl⟩, _, rfl, rfl⟩

theorem witness_ParametersAreFixed : ∃ t, step (presented 0x0C0000000000000000) = .next t := ⟨_, rfl⟩

theorem witness_RunningSumFits :
    (Instr.tare 2 = .readAverage 2 ∨ Instr.tare 2 = .tare 2) ∧ 0 < 2 ∧ 2 < 2 ^ 32 ∧ Sound (failing .shiftreg [10]) ∧
    (failing .shiftreg [10]).eng = .idle ∧ ∃ t, exec (.tare 2) (failing .shiftreg [10]) = .next t :=
  ⟨.inr rfl, by decide, by decide, sound_block .shiftreg _, rfl, _, rfl⟩

theorem witness_OnlyTheNamedCommandsWriteARegister :
    Sound (block .shiftreg (reads .shiftreg .offset1 [1])) ∧ (block .shiftreg (reads .shiftreg .offset1 [1])).eng = .idle ∧
    Undisturbed (block .shiftreg (reads .shiftreg .offset1 [1])) ∧
    ∃ t, exec .read (block .shiftreg (reads .shiftreg .offset1 [1])) = .next t :=
  ⟨sound_block _ _, rfl, ⟨rfl, by decide +kernel⟩, _, rfl⟩

theorem witness_ReadReportsTheSampledBits :
    Sound (block .pulsegen (reads .pulsegen .offset1 [1])) ∧ (block .pulsegen (reads .pulsegen .offset1 [1])).eng = .idle ∧
    (block .pulsegen (reads .pulsegen .offset1 [1])).ctl.power = .up ∧
    Undisturbed (block .pulsegen (reads .pulsegen .offset1 [1])) ∧
    ∃ t, exec .read (block .pulsegen (reads .pulsegen .offset1 [1])) = .next t ∧ t.eng = .idle ∧
      t.port.status = 0x00 :=
  ⟨sound_block _ _, rfl, rfl, ⟨rfl, by decide +kernel⟩, _, rfl, by decide +kernel, by decide +kernel⟩

theorem witness_VariantsAgree :
    readsConverter (.readAverage 2) = true ∧ readCount (.readAverage 2) < 2 ^ 32 ∧
    passesChecks (.readAverage 2) (block .pulsegen (reads .pulsegen .offset1 [1, 2])) ∧
    (block .pulsegen (reads .pulsegen .offset1 [1, 2])).cond = (block .shiftreg (reads .shiftreg .offset1 [1, 2])).cond ∧
    (block .pulsegen (reads .pulsegen .offset1 [1, 2])).xport.gainSel =
      (block .shiftreg (reads .shiftreg .offset1 [1, 2])).xport.gainSel ∧
    [answer 1, answer 2].length = readCount (.readAverage 2) ∧
    Scripted (withGain (.readAverage 2) (block .pulsegen (reads .pulsegen .offset1 [1, 2]))) [answer 1, answer 2] [] ∧
    Scripted (withGain (.readAverage 2) (block .shiftreg (reads .shiftreg .offset1 [1, 2]))) [answer 1, answer 2] [] :=
  ⟨rfl, by decide, by show (2 : Nat) ≠ 0; decide, rfl, rfl, rfl, scripted_block .pulsegen [1, 2],
    scripted_block .shiftreg [1, 2]⟩

/-- A Monitor loop over a converter that is not ready, with the timer stopped. -/
def hanging : State :=
  { watching 499 false with
    xport.seq := { active := true, nPulse := 25, phase := .waitReady, pIdx := 0, done := false }
    events := [.engine, .seq, .seq, .engine] }

theorem witness_StoppedTimerHangs :
    hanging.eng = .watch .read ∧ hanging.params.transport = .pulsegen ∧ hanging.pins.rst = false ∧
    hanging.xport.seq.phase = .waitReady ∧ hanging.xport.seq.done = false ∧
    hanging.pins.dout ≠ hanging.params.readyLevel ∧
    (hanging.pins.now - hanging.ctl.start).toNat < hanging.params.deadlineMs ∧
    (∀ e ∈ hanging.events, e = .engine ∨ e = .seq) := by decide

theorem witness_AssembledLinesDecodeBack :
    assembleLine "SET_OFFSET -7/2".toList = some (some (.command (.setOffset (-7) 2))) := by decide +kernel

/-- spec/30_encoding.md R70, R71: the worked line, the decimal fraction, and the pseudo-instructions. -/
theorem test_assemble_known_lines :
    assembleLine "SET_TIME_CONSTANT 0.25".toList = some (some (.command (.setTimeConstant 1 4))) ∧
    assembleLine "read_average 0x10 ; sixteen".toList = some (some (.command (.readAverage 16))) ∧
    assembleLine "TARE".toList = some (some (.command (.tare 15))) ∧
    assembleLine "SET_TIME_CONSTANT".toList = some (some (.command .getTimeConstant)) := by decide +kernel

theorem test_assemble_words :
    (AsmItem.command (.setScale 2 1)).word = some 0x080000000200000001 ∧
    (AsmItem.init 64).events = [.rst true, .rst false, .present 0x070000004000000000] := by decide +kernel

end Sys2Proof.Tests
end

section
/-! PROOFS. The family `00_scope.md`: the build parameters are fixed for the life of a block (R4, R32), and the
clock-pattern rows where there is no transfer peripheral (R4, R16). One lemma per operation says that it keeps
the field `params`; `step` is assembled from them. -/

namespace Sys2Proof.Machine

/-! ### `PatternsNeedThePeripheral` -/

/-- The `PULSEGEN` variant transfers no bytes at all (R4, R16). -/
theorem transferPattern_pulsegen (tx : Vector Byte 7) (s : State) (h : s.params.transport = .pulsegen) :
    transferPattern tx s = .refused .noTransferPeripheral := by
  simp [transferPattern, h]

/-- The row of a mapping transfers that mapping's pattern (R57). -/
theorem exec_patternInstr (g : GainSel) (s : State) : exec (patternInstr g) s = transferPattern (txpat g) s := by
  cases g <;> rfl

/-- Settles O33: every pattern row is a transfer, and the `PULSEGEN` variant refuses every transfer. -/
theorem patternsNeedThePeripheral : Obligations.PatternsNeedThePeripheral := by
  intro g s h
  rw [exec_patternInstr, transferPattern_pulsegen _ s h]

/-! ### What ENGINE keeps -/

@[simp] theorem averageLoop_params (n : Nat) (s : State) : (averageLoop n s).params = s.params := by
  unfold averageLoop; split <;> simp

@[simp] theorem tareLoop_params (n : Nat) (s : State) : (tareLoop n s).params = s.params := by
  unfold tareLoop; split <;> simp

@[simp] theorem useSample_params (j : Job) (x : Int) (s : State) : (useSample j x s).params = s.params := by
  cases j with
  | average n => exact averageLoop_params n (addSample x s)
  | tare n => exact tareLoop_params n (addSample x s)
  | discard => exact readRaw_params .seed s
  | read | lowpass | value | units | seed => rfl

@[simp] theorem sessionCompleted_params (j : Job) (s : State) : (sessionCompleted j s).params = s.params := by
  unfold sessionCompleted; split <;> simp

@[simp] theorem engineArm_params (j : Job) (s : State) : (engineArm j s).params = s.params := by
  unfold engineArm; split <;> simp

@[simp] theorem monitorPoll_params (j : Job) (s : State) : (monitorPoll j s).params = s.params := by
  unfold monitorPoll
  split
  · simp
  · split <;> simp

@[simp] theorem readyPoll_params (j : Job) (s : State) : (readyPoll j s).params = s.params := by
  unfold readyPoll
  split
  · dsimp only; split <;> simp
  · simp

@[simp] theorem transferWait_params (j : Job) (s : State) : (transferWait j s).params = s.params := by
  unfold transferWait; split <;> simp

@[simp] theorem engineStep_params (s : State) : (engineStep s).params = s.params := by
  unfold engineStep; split <;> simp

/-! ### What SEQ and XFER keep -/

@[simp] theorem seqWaitReady_params (s : State) : (seqWaitReady s).params = s.params := by
  unfold seqWaitReady; split <;> simp

@[simp] theorem seqHigh_params (s : State) : (seqHigh s).params = s.params := by
  unfold seqHigh; dsimp only; split <;> simp

@[simp] theorem seqLow_params (s : State) : (seqLow s).params = s.params := by
  unfold seqLow
  split
  · simp
  · split <;> simp

@[simp] theorem seqStep_params (s : State) : (seqStep s).params = s.params := by
  unfold seqStep
  split
  · split <;> simp
  · rfl

@[simp] theorem xferSlot_params (x : Xfer) (s : State) : (xferSlot x s).params = s.params := by
  unfold xferSlot; dsimp only; split <;> simp

@[simp] theorem xferStep_params (s : State) : (xferStep s).params = s.params := by
  unfold xferStep; split <;> simp

/-! ### What an event and a run along the events keep -/

@[simp] theorem present_params (w : CommandWord) (s : State) : (present w s).params = s.params := by
  unfold present; split <;> rfl

@[simp] theorem underReset_params (s : State) : (underReset s).params = s.params := rfl

/-- No event changes a build parameter; a reset rebuilds the state from the parameters it finds (R175). -/
@[simp] theorem tick_params (e : Event) (s : State) : (tick e s).params = s.params := by
  cases e with
  | dout b => rfl
  | time ms => rfl
  | present w => exact present_params w s
  | rst b => cases b <;> rfl
  | engine => simp only [tick]; split <;> simp
  | seq => simp only [tick]; split <;> simp
  | xfer => simp only [tick]; split <;> simp

@[simp] theorem nextEvent_params (s : State) : (nextEvent s).params = s.params := by
  unfold nextEvent; split <;> simp

@[simp] theorem runWhile_params (p : State → Bool) (es : List Event) (s : State) :
    (runWhile p es s).params = s.params :=
  runWhile_keeps p (fun u => u.params = s.params) (fun _ _ h => h)
    (fun e u h _ => (tick_params e u).trans h) es s rfl

@[simp] theorem runCommand_params (s : State) : (runCommand s).params = s.params :=
  runWhile_params _ _ s

@[simp] theorem runTransfer_params (s : State) : (runTransfer s).params = s.params :=
  runWhile_params _ _ s

/-! ### What an instruction keeps -/

@[simp] theorem selectGain_params (g : Nat) (s : State) : (selectGain g s).params = s.params := by
  unfold selectGain; split <;> rfl

theorem transferPattern_params {tx : Vector Byte 7} {s t : State} (h : transferPattern tx s = .next t) :
    t.params = s.params := by
  unfold transferPattern at h
  split at h <;> cases h
  simp

/-- No instruction changes a build parameter. -/
theorem exec_params {i : Instr} {s t : State} (h : exec i s = .next t) : t.params = s.params := by
  cases i with
  | txpat1 | txpat2 | txpat3 => exact transferPattern_params h
  | read | readLowpass | getValue | setGain g => cases h; simp
  | readAverage n | tare n | getUnits => cases h; split <;> simp
  | setOffset num den => cases h; split <;> simp
  | setScale num den | setTimeConstant num den =>
    cases h
    split
    · simp
    · split <;> simp
  | getTimeConstant | powerDown | powerUp => cases h; rfl

/-! ### `ParametersAreFixed` -/

@[simp] theorem take_params (c : Code) (s : State) : (take c s).params = s.params := by
  cases c <;> rfl

@[simp] theorem reject_params (c : Code) (s : State) : (reject c s).params = s.params := by
  cases c with
  | command w => rfl
  | pattern p => exact nextEvent_params s

/-- Settles O54, along the branches of `step`: reset, an instruction, a rejected code, the next event. -/
theorem parametersAreFixed : Obligations.ParametersAreFixed := by
  intro s t h
  unfold step at h
  split at h
  · cases h; simp
  · split at h
    · split at h
      · exact (exec_params h).trans (take_params _ s)
      · cases h; exact reject_params _ s
    · cases h; exact nextEvent_params s

end Sys2Proof.Machine
end

section
/-! PROOFS. The family `10_state.md`, first part: every step keeps the invariant (R17, R18, R22 to R25, R61, R67, R80,
R130, R159). An event keeps it already (Laws/Invariant.lean); what is added here are the instructions. A command runs
from the quiet block that accepted it, and a pattern row is the transfer the engine has issued. -/

namespace Sys2Proof.Machine

/-! ### What the machine takes up -/

/-- A command word is taken up only while `BUSY` = 0 (R72). -/
theorem fetch_command_not_busy {s : State} {w : CommandWord} (h : fetch s = some (.command w)) :
    s.port.busy = false := by
  unfold fetch at h
  split at h
  · split at h <;> cases h
  · split at h
    · simp_all
    · cases h

/-- A pattern taken up is an issued transfer none of whose slots has run (R96). -/
theorem fetch_pattern_issued {s : State} {p : PatternWord} (h : fetch s = some (.pattern p)) :
    ∃ tx, s.xport.xfer = some { tx := tx, slot := 0 } ∧ p = patternWord tx := by
  unfold fetch at h
  split at h
  · rename_i x hx
    obtain ⟨tx, k⟩ := x
    split at h
    · rename_i hk
      cases hk; cases h
      exact ⟨tx, hx, rfl⟩
    · cases h
  · split at h <;> cases h

/-- A command word decodes to a host command (R65). -/
theorem decodeCommand_isCommand {w : CommandWord} {i : Instr} (h : decodeCommand w = .ok i) :
    isCommand i = true := by
  unfold decodeCommand at h
  split at h <;> cases h <;> rfl

/-- A pattern word decodes to the row of the mapping whose pattern it is (R57). -/
theorem decodePattern_patternInstr {p : PatternWord} {i : Instr} (h : decodePattern p = .ok i) :
    ∃ g, i = patternInstr g ∧ p = patternWord (txpat g) := by
  unfold decodePattern at h
  split at h
  · cases h; exact ⟨.offset1, rfl, ‹_›⟩
  · split at h
    · cases h; exact ⟨.offset2, rfl, ‹_›⟩
    · split at h
      · cases h; exact ⟨.offset3, rfl, ‹_›⟩
      · cases h

/-- The three patterns differ (R57). -/
theorem patternWord_txpat_inj {g g' : GainSel} (h : patternWord (txpat g) = patternWord (txpat g')) : g = g' := by
  revert h
  cases g <;> cases g' <;> decide

/-! ### Commands -/

theorem Quiet.inv_complete {s : State} (h : Quiet s) (v : Option Rat) : Inv (Machine.complete v s) :=
  ⟨h.complete v, rfl⟩

theorem Quiet.inv_raise {s : State} (h : Quiet s) (c : Failure) : Inv (Machine.raise c s) :=
  ⟨h.raise c, rfl⟩

theorem Quiet.inv_readRaw {s : State} (h : Quiet s) (hb : s.port.busy = true) (j : Job) (hj : JobSound j s) :
    Inv (Machine.readRaw j s) :=
  ⟨h.readRaw j hj, BusySound.readRaw j hb⟩

theorem Inv.runCommand {s : State} (h : Inv s) : Inv (runCommand s) := h.runWhile _ _

theorem Inv.runTransfer {s : State} (h : Inv s) : Inv (runTransfer s) := h.runWhile _ _

/-- A quiet block does not depend on the mapping. -/
theorem Quiet.selectGain {s : State} (h : Quiet s) (g : Nat) : Quiet (selectGain g s) := by
  rw [selectGain_eq]
  exact ⟨h.1, h.2, h.3, h.4, h.5, h.6, h.7, h.8, h.9, h.10⟩

@[simp] theorem selectGain_port (g : Nat) (s : State) : (selectGain g s).port = s.port := by
  rw [selectGain_eq]; rfl

/-- The line is high exactly while powered down (R139, R140). -/
theorem Quiet.setPower {s : State} (h : Quiet s) (p : Power) :
    Quiet { drive (decide (p = .down)) s with ctl.power := p } := by
  obtain ⟨hoff, hx, -⟩ : TransportSound { s with eng := .idle } := h.transport
  exact ⟨h.1, h.2, h.3, h.4, h.5, h.6, h.7, fun hne => absurd rfl hne, ⟨hoff, hx, rfl⟩, h.10⟩

/-- The working registers before the first sample (R122, R126). -/
theorem sumSound_initial (n : Nat) (s : State) (h : BitVec.ofNat 32 n ≠ 0) :
    SumSound n { s with port.sum := 0, port.cnt := BitVec.ofNat 32 n } :=
  ⟨h, (BitVec.toNat_ofNat ..).trans_le (Nat.mod_le ..), by simp⟩

theorem Quiet.inv_averageLoop {s : State} (h : Quiet s) (hb : s.port.busy = true) (n : Nat) :
    Inv (averageLoop n { s with port.sum := 0, port.cnt := BitVec.ofNat 32 n }) := by
  have hq := h.setSum 0 (BitVec.ofNat 32 n)
  unfold averageLoop
  split
  · exact hq.inv_complete _
  · exact hq.inv_readRaw hb (.average n) (sumSound_initial n s ‹_›)

theorem Quiet.inv_tareLoop {s : State} (h : Quiet s) (hb : s.port.busy = true) (n : Nat) :
    Inv (tareLoop n { s with port.sum := 0, port.cnt := BitVec.ofNat 32 n }) := by
  have hq := h.setSum 0 (BitVec.ofNat 32 n)
  unfold tareLoop
  split
  · exact (hq.setCond _ (by exact h.scale_ne_zero) (by exact h.tc_range)).inv_complete _
  · exact hq.inv_readRaw hb (.tare n) (sumSound_initial n s ‹_›)

/-- A command that runs from an accepted word reaches the invariant, wherever its events leave it. -/
theorem Quiet.inv_exec {i : Instr} {s t : State} (h : Quiet s) (hb : s.port.busy = true)
    (hi : isCommand i = true) (he : exec i s = .next t) : Inv t := by
  cases i with
  | read => cases he; exact (h.inv_readRaw hb .read trivial).runCommand
  | readLowpass => cases he; exact (h.inv_readRaw hb .lowpass trivial).runCommand
  | getValue => cases he; exact (h.inv_readRaw hb .value trivial).runCommand
  | getUnits =>
    cases he
    split
    · exact h.inv_raise _
    · exact (h.inv_readRaw hb .units trivial).runCommand
  | readAverage n =>
    cases he
    split
    · exact h.inv_raise _
    · exact (h.inv_averageLoop hb n).runCommand
  | tare n =>
    cases he
    split
    · exact h.inv_raise _
    · exact (h.inv_tareLoop hb n).runCommand
  | setGain g =>
    cases he
    exact ((h.selectGain g).inv_readRaw (by simpa using hb) .discard trivial).runCommand
  | setScale num den =>
    cases he
    split
    · exact h.inv_raise _
    · split
      · exact h.inv_raise _
      · exact (h.setCond _ ‹_› (by exact h.tc_range)).inv_complete _
  | setOffset num den =>
    cases he
    split
    · exact h.inv_raise _
    · exact (h.setCond _ (by exact h.scale_ne_zero) (by exact h.tc_range)).inv_complete _
  | setTimeConstant num den =>
    cases he
    split
    · exact h.inv_raise _
    · split
      · exact (h.setCond _ (by exact h.scale_ne_zero) ‹_›).inv_complete _
      · exact h.inv_raise _
  | getTimeConstant => cases he; exact h.inv_complete _
  | powerDown => cases he; exact (h.setPower .down).inv_complete _
  | powerUp => cases he; exact (h.setPower .up).inv_complete _
  | txpat1 | txpat2 | txpat3 => cases hi

/-! ### Pattern rows -/

/-- A transfer that is carried out runs along the events (R96). -/
theorem transferPattern_next {tx : Vector Byte 7} {s t : State} (h : transferPattern tx s = .next t) :
    t = runTransfer (issueTransfer tx s) := by
  unfold transferPattern at h
  split at h <;> cases h
  rfl

/-- In a sound block only the pattern of the mapping is ever in transfer (R96). -/
theorem Sound.xfer_tx {s : State} (h : Sound s) {x : Xfer} (hx : s.xport.xfer = some x) :
    x.tx = txpat s.xport.gainSel := by
  have ht := h.transport
  unfold TransportSound at ht
  split at ht <;> simp_all

/-- The row of the pattern the engine has issued carries out that transfer. -/
theorem Inv.exec_pattern {s t : State} (h : Inv s) {tx : Vector Byte 7} {g : GainSel}
    (hx : s.xport.xfer = some { tx := tx, slot := 0 }) (hp : patternWord tx = patternWord (txpat g))
    (he : exec (patternInstr g) s = .next t) : Inv t := by
  have htx : tx = txpat s.xport.gainSel := h.sound.xfer_tx hx
  have hg : s.xport.gainSel = g := patternWord_txpat_inj (htx ▸ hp)
  have hissued : issueTransfer (txpat g) s = s := by
    rw [← hg, ← htx]; unfold issueTransfer; rw [← hx]
  rw [exec_patternInstr] at he
  rw [transferPattern_next he, hissued]
  exact h.runTransfer

/-! ### `StepKeepsInvariant` -/

theorem Inv.nextEvent {s : State} (h : Inv s) : Inv (nextEvent s) := by
  unfold Machine.nextEvent
  split
  · exact h
  · exact (h.tick _).setEvents _

theorem inv_underReset (s : State) : Inv (underReset s) := ⟨sound_underReset s, rfl⟩

/-- Acceptance of a word keeps a quiet block quiet (R72). -/
theorem Inv.quiet_accept {s : State} (h : Inv s) (hb : s.port.busy = false) : Quiet (accept s) := by
  have hq : Quiet s := h.sound.quiet (h.idle hb)
  exact ⟨hq.1, hq.2, hq.3, hq.4, hq.5, hq.6, hq.7, hq.8, hq.9, hq.10⟩

/-- An instruction taken up keeps the invariant. -/
theorem Inv.exec_take {s t : State} (h : Inv s) {c : Code} {i : Instr} (hf : fetch s = some c)
    (hd : decode c = .ok i) (he : exec i (take c s) = .next t) : Inv t := by
  cases c with
  | command w =>
    exact (h.quiet_accept (fetch_command_not_busy hf)).inv_exec rfl (decodeCommand_isCommand hd) he
  | pattern p =>
    obtain ⟨tx, hx, rfl⟩ := fetch_pattern_issued hf
    obtain ⟨g, rfl, hp⟩ := decodePattern_patternInstr hd
    exact h.exec_pattern hx hp he

/-- A code that is no instruction keeps the invariant. -/
theorem Inv.reject {s : State} (h : Inv s) {c : Code} (hf : fetch s = some c) : Inv (reject c s) := by
  cases c with
  | command w => exact (h.quiet_accept (fetch_command_not_busy hf)).inv_raise _
  | pattern p => exact h.nextEvent

/-- Settles O50, along the branches of `step`: reset, an instruction, a rejected code, the next event. -/
theorem stepKeepsInvariant : Obligations.StepKeepsInvariant := by
  intro s t h hs
  unfold step at hs
  split at hs
  · cases hs; exact (inv_underReset s).nextEvent
  · split at hs
    · split at hs
      · exact h.exec_take ‹_› ‹_› hs
      · cases hs; exact h.reject ‹_›
    · cases hs; exact h.nextEvent

end Sys2Proof.Machine
end

section
/-! PROOFS. The family `10_state.md`, second part: which instructions write each persistent register (R12, R20 to R24).
A command in the middle of its run is confined to the registers its rule names; the confinement holds where the run
begins, and every event but a reset keeps it. -/

namespace Sys2Proof.Machine

/-! ### What an instruction may write -/

/-- Which of the persistent registers may be written. `GAINSEL` is not among them: `SET_GAIN` writes it before its run
begins, and no run writes it (R113). -/
structure WriteSet where
  filtered : Bool := false
  offset : Bool := false
  scale : Bool := false
  tc : Bool := false
  power : Bool := false

/-- The registers the rule of an instruction names (R20 to R24). -/
def writesOf : Instr → WriteSet
  | .readLowpass => { filtered := true }
  | .getValue => { filtered := true }
  | .getUnits => { filtered := true }
  | .setGain _ => { filtered := true }
  | .tare _ => { offset := true }
  | .setOffset _ _ => { offset := true }
  | .setScale _ _ => { scale := true }
  | .setTimeConstant _ _ => { tc := true }
  | .powerDown => { power := true }
  | .powerUp => { power := true }
  | .read => {}
  | .readAverage _ => {}
  | .getTimeConstant => {}
  | .txpat1 => {}
  | .txpat2 => {}
  | .txpat3 => {}

/-- The registers the use of a sample may write, in this read or in a later one of the same command (R121 to R126). -/
def Job.writes : Job → WriteSet
  | .read => {}
  | .average _ => {}
  | .lowpass => { filtered := true }
  | .value => { filtered := true }
  | .units => { filtered := true }
  | .tare _ => { offset := true }
  | .discard => { filtered := true }
  | .seed => { filtered := true }

theorem writesOf_filtered {i : Instr} (hf : i ∉ [.readLowpass, .getValue, .getUnits]) (hg : ∀ g, i ≠ .setGain g) :
    (writesOf i).filtered = false := by
  cases i with
  | readLowpass | getValue | getUnits => simp at hf
  | setGain g => exact absurd rfl (hg g)
  | _ => rfl

theorem writesOf_offset {i : Instr} (ht : ∀ n, i ≠ .tare n) (ho : ∀ p q, i ≠ .setOffset p q) :
    (writesOf i).offset = false := by
  cases i with
  | tare n => exact absurd rfl (ht n)
  | setOffset p q => exact absurd rfl (ho p q)
  | _ => rfl

theorem writesOf_scale {i : Instr} (hs : ∀ p q, i ≠ .setScale p q) : (writesOf i).scale = false := by
  cases i with
  | setScale p q => exact absurd rfl (hs p q)
  | _ => rfl

theorem writesOf_tc {i : Instr} (ht : ∀ p q, i ≠ .setTimeConstant p q) : (writesOf i).tc = false := by
  cases i with
  | setTimeConstant p q => exact absurd rfl (ht p q)
  | _ => rfl

theorem writesOf_power {i : Instr} (hd : i ≠ .powerDown) (hu : i ≠ .powerUp) : (writesOf i).power = false := by
  cases i with
  | powerDown => exact absurd rfl hd
  | powerUp => exact absurd rfl hu
  | _ => rfl

/-! ### Confinement -/

section

variable {w : WriteSet} {s u v : State}

/-- Between `s` and `u` no persistent register outside `w` was written, and a command that stands in a read in `u` is
reading for a job whose write set is `w`, so that the rest of its run writes none outside `w` either. -/
structure Confined (w : WriteSet) (s u : State) : Prop where
  filtered : w.filtered = false → u.cond.filtered = s.cond.filtered
  offset : w.offset = false → u.cond.offset = s.cond.offset
  scale : w.scale = false → u.cond.scale = s.cond.scale
  tc : w.tc = false → u.cond.tc = s.cond.tc
  power : w.power = false → u.ctl.power = s.ctl.power
  gainSel : u.xport.gainSel = s.xport.gainSel
  job : ∀ j, u.eng.job = some j → j.writes = w

/-- A command that has not read yet. -/
theorem Confined.start (w : WriteSet) {s : State} (h : s.eng = .idle) : Confined w s s :=
  ⟨fun _ => rfl, fun _ => rfl, fun _ => rfl, fun _ => rfl, fun _ => rfl, rfl, fun j hj => by
    rw [h] at hj; cases hj⟩

/-- Only the registers and the engine's job matter to confinement. -/
theorem Confined.congr (h : Confined w s u) (hc : v.cond = u.cond) (hp : v.ctl.power = u.ctl.power)
    (hg : v.xport.gainSel = u.xport.gainSel) (hj : ∀ j, v.eng.job = some j → j.writes = w) : Confined w s v :=
  ⟨by rw [hc]; exact h.filtered, by rw [hc]; exact h.offset, by rw [hc]; exact h.scale, by rw [hc]; exact h.tc,
    by rw [hp]; exact h.power, hg.trans h.gainSel, hj⟩

theorem Confined.complete (h : Confined w s u) (r : Option Rat) : Confined w s (complete r u) :=
  h.congr rfl rfl rfl nofun

theorem Confined.raise (h : Confined w s u) (c : Failure) : Confined w s (raise c u) :=
  h.congr rfl rfl rfl nofun

theorem Confined.readRaw (h : Confined w s u) {j : Job} (hj : j.writes = w) : Confined w s (readRaw j u) := by
  rcases readRaw_cases j u with ⟨-, he⟩ | ⟨-, he⟩ <;> rw [he]
  · exact h.raise _
  · exact h.congr rfl rfl rfl fun k hk => by cases hk; exact hj

theorem Confined.setFiltered (h : Confined w s u) (hw : w.filtered = true) (x : Rat) :
    Confined w s { u with cond.filtered := x } :=
  ⟨fun hn => by simp [hw] at hn, h.offset, h.scale, h.tc, h.power, h.gainSel, h.job⟩

theorem Confined.setOffset (h : Confined w s u) (hw : w.offset = true) (x : Rat) :
    Confined w s { u with cond.offset := x } :=
  ⟨h.filtered, fun hn => by simp [hw] at hn, h.scale, h.tc, h.power, h.gainSel, h.job⟩

theorem Confined.setScale (h : Confined w s u) (hw : w.scale = true) (x : Rat) :
    Confined w s { u with cond.scale := x } :=
  ⟨h.filtered, h.offset, fun hn => by simp [hw] at hn, h.tc, h.power, h.gainSel, h.job⟩

theorem Confined.setTc (h : Confined w s u) (hw : w.tc = true) (x : Rat) :
    Confined w s { u with cond.tc := x } :=
  ⟨h.filtered, h.offset, h.scale, fun hn => by simp [hw] at hn, h.power, h.gainSel, h.job⟩

theorem Confined.setPower (h : Confined w s u) (hw : w.power = true) (b : Bool) (p : Power) :
    Confined w s { drive b u with ctl.power := p } :=
  ⟨h.filtered, h.offset, h.scale, h.tc, fun hn => by simp [hw] at hn, h.gainSel, h.job⟩

/-! ### The steps of ENGINE -/

theorem Confined.averageLoop (h : Confined w s u) {n : Nat} (hj : (Job.average n).writes = w) :
    Confined w s (averageLoop n u) := by
  unfold Machine.averageLoop
  split
  · exact h.complete _
  · exact h.readRaw hj

theorem Confined.tareLoop (h : Confined w s u) {n : Nat} (hj : (Job.tare n).writes = w) :
    Confined w s (tareLoop n u) := by
  unfold Machine.tareLoop
  split
  · exact (h.setOffset (by rw [← hj]; rfl) _).complete _
  · exact h.readRaw hj

theorem Confined.useSample (h : Confined w s u) {j : Job} (hj : j.writes = w) (x : Int) :
    Confined w s (useSample j x u) := by
  subst hj
  cases j with
  | read => exact h.complete _
  | lowpass | value | units | seed => exact (h.setFiltered rfl _).complete _
  | discard => exact h.readRaw rfl
  | average n => exact (h.congr rfl rfl rfl h.job : Confined _ s (addSample x u)).averageLoop rfl
  | tare n => exact (h.congr rfl rfl rfl h.job : Confined _ s (addSample x u)).tareLoop rfl

theorem Confined.sessionCompleted (h : Confined w s u) {j : Job} (hj : j.writes = w) :
    Confined w s (sessionCompleted j u) := by
  unfold Machine.sessionCompleted
  split
  · exact h.useSample hj _
  · exact h.raise _

theorem Confined.engineArm (h : Confined w s u) {j : Job} (hj : j.writes = w) :
    Confined w s (engineArm j u) := by
  have hk : ∀ k, some j = some k → k.writes = w := fun k e => by cases e; exact hj
  unfold Machine.engineArm
  split
  · exact h.congr (by simp) (by simp) (by simp) hk
  · exact h.congr (by simp) (by simp) (by simp) hk

theorem Confined.monitorPoll (h : Confined w s u) {j : Job} (hj : j.writes = w) :
    Confined w s (monitorPoll j u) := by
  have hend (m : Mon) : Confined w s (endSession (deactivate { u with ctl.mon := m })) :=
    h.congr rfl rfl rfl h.job
  unfold Machine.monitorPoll
  split
  · exact (hend _).sessionCompleted hj
  · split
    · exact (hend _).raise _
    · exact h

theorem Confined.readyPoll (h : Confined w s u) {j : Job} (hj : j.writes = w) :
    Confined w s (readyPoll j u) := by
  unfold Machine.readyPoll
  split
  · dsimp only
    split
    · exact h.congr rfl rfl rfl fun k hk => by cases hk; exact hj
    · exact h.congr rfl rfl rfl h.job
  · exact (h.congr rfl rfl rfl h.job : Confined w s (endSession { u with ctl.mon := .timedOut })).raise _

theorem Confined.transferWait (h : Confined w s u) {j : Job} (hj : j.writes = w) :
    Confined w s (transferWait j u) := by
  unfold Machine.transferWait
  split
  · exact h
  · refine Confined.sessionCompleted ?_ hj
    exact h.congr rfl rfl rfl h.job

theorem Confined.engineStep (h : Confined w s u) : Confined w s (engineStep u) := by
  have hj := h.job
  unfold Machine.engineStep
  split <;> rename_i he
  · exact h
  · exact h.engineArm (hj _ (by rw [he]; rfl))
  · exact h.monitorPoll (hj _ (by rw [he]; rfl))
  · exact h.readyPoll (hj _ (by rw [he]; rfl))
  · exact h.transferWait (hj _ (by rw [he]; rfl))

/-! ### The steps of SEQ and XFER -/

theorem Confined.seqStep (h : Confined w s u) : Confined w s (seqStep u) := by
  have hkeep : (Machine.seqStep u).cond = u.cond ∧ (Machine.seqStep u).ctl = u.ctl ∧
      (Machine.seqStep u).xport.gainSel = u.xport.gainSel := by
    unfold Machine.seqStep seqWaitReady seqHigh seqLow
    repeat' split
    all_goals exact ⟨rfl, rfl, rfl⟩
  obtain ⟨hc, hp, hg⟩ := hkeep
  exact h.congr hc (by rw [hp]) hg (by simpa using h.job)

theorem Confined.xferStep (h : Confined w s u) : Confined w s (xferStep u) := by
  unfold Machine.xferStep
  split
  · unfold xferSlot
    dsimp only
    split <;> exact h.congr rfl rfl rfl h.job
  · exact h

/-! ### Runs -/

/-- Every event but a reset keeps a command confined. -/
theorem Confined.tick (h : Confined w s u) {e : Event} (he : e ≠ .rst true) : Confined w s (tick e u) := by
  cases e with
  | dout b => exact h.congr rfl rfl rfl h.job
  | time ms => exact h.congr rfl rfl rfl h.job
  | present c =>
    simp only [tick_present, present]
    split
    · exact h
    · exact h.congr rfl rfl rfl h.job
  | rst b =>
    cases b
    · exact h.congr rfl rfl rfl h.job
    · exact absurd rfl he
  | engine =>
    simp only [Machine.tick]
    split
    · exact h
    · exact h.engineStep
  | seq =>
    simp only [Machine.tick]
    split
    · exact h.seqStep
    · exact h
  | xfer =>
    simp only [Machine.tick]
    split
    · exact h.xferStep
    · exact h

theorem Confined.runWhile (p : State → Bool) {es : List Event} (hes : Event.rst true ∉ es) (h : Confined w s u) :
    Confined w s (runWhile p es u) := by
  induction es generalizing u with
  | nil => exact h.congr rfl rfl rfl h.job
  | cons e es ih =>
    rw [List.mem_cons, not_or] at hes
    obtain ⟨he, hes⟩ := hes
    cases hp : p u
    · rw [runWhile_stop p _ u hp]; exact h.congr rfl rfl rfl h.job
    · rw [runWhile_cons p e es u hp]; exact ih hes (h.tick (Ne.symm he))

theorem Confined.runCommand (h : Confined w s u) (hu : Event.rst true ∉ u.events) :
    Confined w s (runCommand u) :=
  h.runWhile _ hu

theorem Confined.runRead (h : Confined w s u) {j : Job} (hj : j.writes = w) (hu : Event.rst true ∉ u.events) :
    Confined w s (Machine.runCommand (Machine.readRaw j u)) :=
  (h.readRaw hj).runCommand (by rw [readRaw_events]; exact hu)

/-- A transfer is no command: it writes no persistent register (R96). -/
theorem transferPattern_confined {tx : Vector Byte 7} {t : State} (hs : s.eng = .idle)
    (hu : Event.rst true ∉ s.events) (h : transferPattern tx s = .next t) : Confined w s t := by
  rw [transferPattern_next h]
  exact Confined.runWhile _ hu ((Confined.start w hs).congr rfl rfl rfl (Confined.start w hs).job)

@[simp] theorem averageLoop_events (n : Nat) (s : State) : (averageLoop n s).events = s.events := by
  unfold averageLoop; split <;> simp

@[simp] theorem tareLoop_events (n : Nat) (s : State) : (tareLoop n s).events = s.events := by
  unfold tareLoop; split <;> simp

@[simp] theorem withGain_events (i : Instr) (s : State) : (withGain i s).events = s.events := rfl

/-- Every instruction is confined to the registers its rule names, counted from the mapping it selects. -/
theorem exec_confined {i : Instr} {t : State} (hs : s.eng = .idle) (hu : Event.rst true ∉ s.events)
    (he : exec i s = .next t) : Confined (writesOf i) (withGain i s) t := by
  have h : Confined (writesOf i) (withGain i s) (withGain i s) := Confined.start _ hs
  cases i with
  | read | readLowpass | getValue => cases he; exact h.runRead rfl hu
  | getUnits =>
    cases he
    split
    · exact h.raise _
    · exact h.runRead rfl hu
  | setGain g => cases he; rw [selectGain_eq]; exact h.runRead rfl hu
  | readAverage n =>
    cases he
    split
    · exact h.raise _
    · refine Confined.runCommand (Confined.averageLoop ?_ rfl) (by simpa using hu)
      exact h.congr rfl rfl rfl h.job
  | tare n =>
    cases he
    split
    · exact h.raise _
    · refine Confined.runCommand (Confined.tareLoop ?_ rfl) (by simpa using hu)
      exact h.congr rfl rfl rfl h.job
  | setScale num den =>
    cases he
    split
    · exact h.raise _
    · split
      · exact h.raise _
      · exact (h.setScale rfl _).complete _
  | setOffset num den =>
    cases he
    split
    · exact h.raise _
    · exact (h.setOffset rfl _).complete _
  | setTimeConstant num den =>
    cases he
    split
    · exact h.raise _
    · split
      · exact (h.setTc rfl _).complete _
      · exact h.raise _
  | getTimeConstant => cases he; exact h.complete _
  | powerDown | powerUp => cases he; exact (h.setPower rfl _ _).complete _
  | txpat1 | txpat2 | txpat3 => exact transferPattern_confined hs hu he

end

/-! ### `OnlyTheNamedCommandsWriteARegister` -/

/-- Settles O56: every instruction is confined to the registers its rule names. -/
theorem onlyTheNamedCommandsWriteARegister : Obligations.OnlyTheNamedCommandsWriteARegister := by
  intro i s t _ hs ⟨_, hu⟩ he
  have h := exec_confined hs hu he
  exact ⟨fun hf hg => h.filtered (writesOf_filtered hf hg), fun ht ho => h.offset (writesOf_offset ht ho),
    fun hs => h.scale (writesOf_scale hs), fun ht => h.tc (writesOf_tc ht), h.gainSel,
    fun hd hu => h.power (writesOf_power hd hu)⟩

end Sys2Proof.Machine
end

section
/-! PROOFS. The family `20_memory.md`: `READ` reports the bits sampled in its session (R41, R55, R80, R85, R97). What the
link record of the session holds is stated for each position of the engine (`Recorded`) and kept by every event but a
reset; at the completion it is the claim (`Reported`). -/

namespace Sys2Proof.Machine

/-! ### Samples along the link record -/

theorem highSamples_append (l m : List LinkAccess) :
    ∀ c, highSamples c (l ++ m) = highSamples c l ++ highSamples (clockAfter c l) m := by
  induction l with
  | nil => intro c; rfl
  | cons x l ih =>
    intro c
    cases x with
    | drive b => exact ih b
    | sample d => cases c <;> simp [highSamples, clockAfter, ih]

/-- The record of a `PULSEGEN` session in flight, newest first: `n` pulses have begun, the clock stands at `level`, and
the `k` samples taken while it was high are the accumulator (R84, R85). -/
structure PulseRecord (acc : Sample24) (seg : List LinkAccess) (n : Nat) (level : Bool) (k : Nat) : Prop
    extends Pulses seg n level where
  length : (highSamples false seg.reverse).length = k
  assembled : acc = assembled (highSamples false seg.reverse)

section

variable {acc : Sample24} {seg : List LinkAccess} {n k : Nat} {level : Bool}

theorem PulseRecord.nil : PulseRecord 0 [] 0 false 0 := ⟨Pulses.nil, rfl, rfl⟩

theorem PulseRecord.look (h : PulseRecord acc seg n false k) (d : Bool) :
    PulseRecord acc (.sample d :: seg) n false k := by
  have hs : highSamples false (LinkAccess.sample d :: seg).reverse = highSamples false seg.reverse := by
    simp [highSamples_append, h.clock, highSamples]
  exact ⟨h.toPulses.sample d, by rw [hs]; exact h.length, by rw [hs]; exact h.assembled⟩

theorem PulseRecord.dataBit (h : PulseRecord acc seg n true k) (d : Bool) :
    PulseRecord (shiftIn acc d) (.sample d :: seg) n true (k + 1) := by
  have hs : highSamples false (LinkAccess.sample d :: seg).reverse = highSamples false seg.reverse ++ [d] := by
    simp [highSamples_append, h.clock, highSamples]
  refine ⟨h.toPulses.sample d, by rw [hs]; simp [h.length], ?_⟩
  rw [hs, h.assembled]
  simp [Machine.assembled]

theorem highSamples_drive (b : Bool) (seg : List LinkAccess) :
    highSamples false (LinkAccess.drive b :: seg).reverse = highSamples false seg.reverse := by
  simp [highSamples_append, highSamples]

theorem PulseRecord.fall (h : PulseRecord acc seg n level k) : PulseRecord acc (.drive false :: seg) n false k :=
  ⟨h.toPulses.fall, by rw [highSamples_drive]; exact h.length, by rw [highSamples_drive]; exact h.assembled⟩

theorem PulseRecord.rise (h : PulseRecord acc seg n false k) :
    PulseRecord acc (.drive true :: seg) (n + 1) true k :=
  ⟨h.toPulses.rise, by rw [highSamples_drive]; exact h.length, by rw [highSamples_drive]; exact h.assembled⟩

end

/-- The pulse count of a frame as a number (R55, R56). -/
theorem toNat_pulseCount (g : GainSel) : (pulseCount g).toNat = 24 + extraPulses g := by
  cases g <;> rfl

/-! ### The record of a transfer and the receive buffer -/

/-- The accesses of the given slots of a transfer, oldest first, where `f` tells the sample of each slot (R96). -/
def slotRecord (tx : Vector Byte 7) (f : Fin 56 → Bool) (slots : List (Fin 56)) : List LinkAccess :=
  slots.flatMap fun k => [.drive (slotLevel tx k), .sample (f k)]

theorem slotRecord_cons (tx : Vector Byte 7) (f : Fin 56 → Bool) (k : Fin 56) (ks : List (Fin 56)) :
    slotRecord tx f (k :: ks) = .drive (slotLevel tx k) :: .sample (f k) :: slotRecord tx f ks := rfl

/-- One more slot: its sample is in the receive buffer, and the earlier ones are still there (R43, R96). -/
theorem slotRecord_storeSlot (tx rx : Vector Byte 7) (k : Fin 56) (d : Bool) :
    slotRecord tx (rxSlot (storeSlot rx k d)) ((List.finRange 56).take (k.val + 1)) =
      slotRecord tx (rxSlot rx) ((List.finRange 56).take k.val) ++ [.drive (slotLevel tx k), .sample d] := by
  have hearlier : slotRecord tx (rxSlot (storeSlot rx k d)) ((List.finRange 56).take k.val) =
      slotRecord tx (rxSlot rx) ((List.finRange 56).take k.val) := by
    refine List.flatMap_congr fun m hm => ?_
    have hne : m ≠ k := by
      rintro rfl
      obtain ⟨i, hi, hmi⟩ := List.mem_take_iff_getElem.1 hm
      have : i = m.val := by simpa using congrArg Fin.val hmi
      omega
    rw [rxSlot_storeSlot, if_neg hne]
  have htake : (List.finRange 56).take (k.val + 1) = (List.finRange 56).take k.val ++ [k] := by
    rw [List.take_succ_eq_append_getElem (by simp)]
    simp
  rw [htake, ← hearlier]
  simp [slotRecord, rxSlot_storeSlot]

/-- The samples of the low slots (R58). -/
theorem lowSamples_slotRecord (tx : Vector Byte 7) (f : Fin 56 → Bool) (ks : List (Fin 56)) (rest : List LinkAccess)
    (hrest : ∀ c, lowSamples c rest = []) :
    ∀ c, lowSamples c (slotRecord tx f ks ++ rest) = (ks.filter fun k => !slotLevel tx k).map f := by
  induction ks with
  | nil => exact hrest
  | cons k ks ih =>
    intro c
    rw [slotRecord_cons]
    cases h : slotLevel tx k <;> simp [lowSamples, ih, h]

/-- The pulses of a transfer depend on the pattern alone (R57). -/
theorem risings_slotRecord (tx : Vector Byte 7) (f : Fin 56 → Bool) (ks : List (Fin 56)) :
    ∀ c, risings c (slotRecord tx f ks) = risings c (slotRecord tx (fun _ => false) ks) := by
  induction ks with
  | nil => intro c; rfl
  | cons k ks ih => intro c; simp [slotRecord_cons, risings, ih]

theorem risings_slotRecord_pattern (g : GainSel) :
    risings false (slotRecord (txpat g) (fun _ => false) (List.finRange 56)) = 24 + extraPulses g := by
  cases g <;> decide

/-- The first 24 low slots of every pattern are the data slots (R57, R58). -/
theorem lowSlots_pattern (g : GainSel) :
    ((List.finRange 56).filter fun k => !slotLevel (txpat g) k).take 24 = (List.finRange 24).map dataSlot := by
  cases g <;> decide

/-- The data bits a receive buffer holds, first pulse first (R43, R58). -/
def rxData (rx : Vector Byte 7) : List Bool := (List.finRange 24).map fun p => rxSlot rx (dataSlot p)

theorem rxData_length (rx : Vector Byte 7) : (rxData rx).length = 24 := by simp [rxData]

/-- The decoded receive buffer is its data bits, the first in bit 23 (R60, R97). -/
theorem assembled_rxData (rx : Vector Byte 7) : assembled (rxData rx) = decodeRx rx := by
  apply BitVec.eq_of_getLsbD_eq
  intro i hi
  have h := getLsbD_decodeRx rx ⟨23 - i, by omega⟩
  have hi' : 23 - (23 - i) = i := by omega
  simp only [hi'] at h
  rw [h, assembled, getLsbD_foldl_shiftIn _ _ _ hi, dif_pos (by simpa [rxData] using hi)]
  simp [rxData]

/-- The record of a `SHIFTREG` session whose transfer is over, oldest first: the ready polls, the 56 slots with their
samples in the receive buffer, and the line back at rest (R94, R96). -/
def transferRecord (g : GainSel) (rx : Vector Byte 7) (polls : List LinkAccess) : List LinkAccess :=
  polls ++ (slotRecord (txpat g) (rxSlot rx) (List.finRange 56) ++ [.drive false])

theorem dataSamples_transferRecord (g : GainSel) (rx : Vector Byte 7) {polls : List LinkAccess}
    (hp : ∀ a ∈ polls, a.isSample = true) : dataSamples .shiftreg (transferRecord g rx polls) = rxData rx := by
  have hdrop : (transferRecord g rx polls).dropWhile LinkAccess.isSample =
      slotRecord (txpat g) (rxSlot rx) (List.finRange 56) ++ [.drive false] := by
    rw [transferRecord, List.dropWhile_append_of_pos hp, List.finRange_succ, slotRecord_cons]
    rfl
  rw [dataSamples, hdrop, lowSamples_slotRecord _ _ _ _ (fun _ => rfl), ← List.map_take, lowSlots_pattern, List.map_map]
  rfl

theorem risings_samples {polls : List LinkAccess} (hp : ∀ a ∈ polls, a.isSample = true) (c : Bool) :
    risings c polls = 0 ∧ clockAfter c polls = c := by
  induction polls with
  | nil => exact ⟨rfl, rfl⟩
  | cons a polls ih =>
    rw [List.forall_mem_cons] at hp
    cases a with
    | drive b => cases hp.1
    | sample d => exact ih hp.2

theorem risings_transferRecord (g : GainSel) (rx : Vector Byte 7) {polls : List LinkAccess}
    (hp : ∀ a ∈ polls, a.isSample = true) : risings false (transferRecord g rx polls) = 24 + extraPulses g := by
  obtain ⟨hr, hc⟩ := risings_samples hp false
  rw [transferRecord, risings_append, hr, hc, risings_append, risings_slotRecord, risings_slotRecord_pattern]
  simp [risings]

/-! ### The record at each position of the engine -/

/-- The claim about a `READ` that completed with `OK` in `u`, where `seg` is the record of its session. -/
def Reported (u : State) (seg : List LinkAccess) : Prop :=
  (dataSamples u.params.transport seg.reverse).length = 24 ∧
    u.xport.raw = rawOf (assembled (dataSamples u.params.transport seg.reverse)) ∧
    u.port.result = some ((sampleOf (assembled (dataSamples u.params.transport seg.reverse)) : Int) : Rat) ∧
    risings false seg.reverse = 24 + extraPulses u.xport.gainSel

/-- The record of a `PULSEGEN` session at each position of the sequencer (R83 to R88). -/
def SequencerRecorded (u : State) (seg : List LinkAccess) : Prop :=
  match u.xport.seq.phase with
  | .off => True
  | .waitReady => PulseRecord u.xport.acc seg 0 false 0
  | .high => PulseRecord u.xport.acc seg u.xport.seq.pIdx.toNat true (min (u.xport.seq.pIdx.toNat - 1) 24)
  | .low => PulseRecord u.xport.acc seg u.xport.seq.pIdx.toNat false (min u.xport.seq.pIdx.toNat 24)
  | .done => PulseRecord u.xport.acc seg u.xport.seq.pIdx.toNat false (min u.xport.seq.pIdx.toNat 24)

/-- The record of a `SHIFTREG` session that has issued its transfer, in progress or over (R96). -/
def TransferRecorded (u : State) (seg : List LinkAccess) : Prop :=
  ∃ polls : List LinkAccess, (∀ a ∈ polls, a.isSample = true) ∧
    match u.xport.xfer with
    | some x => seg.reverse = polls ++ slotRecord x.tx (rxSlot u.xport.rx) ((List.finRange 56).take x.slot.val)
    | none => seg.reverse = transferRecord u.xport.gainSel u.xport.rx polls

/-- What `seg`, the record since the command began, newest first, holds at each position of the engine. -/
def Recorded (u : State) (seg : List LinkAccess) : Prop :=
  match u.eng with
  | .idle => u.port.status = statusOk → Reported u seg
  | .arm j => j = .read ∧ seg = []
  | .watch j => j = .read ∧ SequencerRecorded u seg
  | .poll j => j = .read ∧ ∀ a ∈ seg, a.isSample = true
  | .transfer j => j = .read ∧ TransferRecorded u seg

/-- A `READ` under way, or ended, in a sound block: `base` is the link record before it began. -/
structure Reading (base : List LinkAccess) (u : State) : Prop where
  sound : Sound u
  recorded : ∃ seg, u.link = seg ++ base ∧ Recorded u seg

/-! ### The steps of ENGINE -/

/-- The end of `READ`: the sample is decoded from `RAW` and becomes the result (R120, R121). -/
theorem sessionCompleted_read {u : State} {acc : Sample24} (h : u.xport.raw = rawOf acc) :
    sessionCompleted .read u = complete (some ((sampleOf acc : Int) : Rat)) u := by
  simp only [sessionCompleted, h, decodeSample_rawOf]
  rfl

theorem sessionCompleted_recorded {u : State} {seg : List LinkAccess}
    (hlen : (dataSamples u.params.transport seg.reverse).length = 24)
    (hraw : u.xport.raw = rawOf (assembled (dataSamples u.params.transport seg.reverse)))
    (hpulses : risings false seg.reverse = 24 + extraPulses u.xport.gainSel) :
    (sessionCompleted .read u).link = u.link ∧ Recorded (sessionCompleted .read u) seg := by
  rw [sessionCompleted_read hraw]
  exact ⟨rfl, fun _ => ⟨hlen, hraw, rfl, hpulses⟩⟩

/-- A failed `READ` claims nothing (R158). -/
theorem raise_recorded (c : Failure) (u : State) (seg : List LinkAccess) : Recorded (raise c u) seg :=
  fun h => by cases c <;> cases h

section

variable {base seg : List LinkAccess} {u : State} {j : Job}

theorem engineArm_recorded (he : u.eng = .arm j) (hl : u.link = seg ++ base) (h : Recorded u seg) :
    (engineArm j u).link = seg ++ base ∧ Recorded (engineArm j u) seg := by
  simp only [Recorded, he] at h
  obtain ⟨rfl, rfl⟩ := h
  unfold engineArm
  split
  · exact ⟨by simpa using hl, by simpa [Recorded, SequencerRecorded] using PulseRecord.nil⟩
  · exact ⟨by simpa using hl, by simp [Recorded]⟩

/-- A sequencer that has finished stands in `Done`, at the last pulse of the frame (R88). -/
theorem Sound.sequencer_finished (hs : Sound u) (he : u.eng = .watch j) (hd : u.xport.seq.done = true) :
    u.xport.seq.phase = .done ∧ u.xport.seq.pIdx.toNat = 24 + extraPulses u.xport.gainSel ∧
      u.xport.raw = rawOf u.xport.acc := by
  have ht := hs.transport
  simp only [TransportSound, he, SequencerSound] at ht
  obtain ⟨-, -, -, hn, hph⟩ := ht
  cases hp : u.xport.seq.phase <;> simp only [hp, hd] at hph
  case done => exact ⟨rfl, by rw [hph.1, hn, toNat_pulseCount], hph.2.2.2⟩
  all_goals simp at hph

theorem monitorPoll_recorded (hs : Sound u) (he : u.eng = .watch j) (hl : u.link = seg ++ base)
    (h : Recorded u seg) :
    ∃ seg', (monitorPoll j u).link = seg' ++ base ∧ Recorded (monitorPoll j u) seg' := by
  unfold monitorPoll
  split
  · rename_i hd
    obtain ⟨hphase, hidx, hraw⟩ := hs.sequencer_finished he hd
    have ht := hs.transport
    simp only [TransportSound, he] at ht
    simp only [Recorded, he, SequencerRecorded, hphase, hidx] at h
    obtain ⟨rfl, h⟩ := h
    have hfall : PulseRecord u.xport.acc (.drive false :: seg) (24 + extraPulses u.xport.gainSel) false 24 := by
      simpa using h.fall
    have hdata : dataSamples u.params.transport (LinkAccess.drive false :: seg).reverse =
        highSamples false (LinkAccess.drive false :: seg).reverse := by rw [ht.1]; rfl
    obtain ⟨hlink, hrec⟩ := sessionCompleted_recorded (seg := .drive false :: seg)
      (u := endSession (deactivate { u with ctl.mon := .completed }))
      ((congrArg List.length hdata).trans hfall.length)
      (hraw.trans (congrArg rawOf (hfall.assembled.trans (congrArg assembled hdata.symm)))) hfall.count
    exact ⟨.drive false :: seg, by rw [hlink]; simp [hl], hrec⟩
  · split
    · exact ⟨.drive false :: seg, by simp [hl], raise_recorded _ _ _⟩
    · exact ⟨seg, hl, h⟩

theorem readyPoll_recorded (he : u.eng = .poll j) (hl : u.link = seg ++ base) (h : Recorded u seg) :
    ∃ seg', (readyPoll j u).link = seg' ++ base ∧ Recorded (readyPoll j u) seg' := by
  unfold readyPoll
  split
  · simp only [Recorded, he] at h
    obtain ⟨rfl, h⟩ := h
    have hall : ∀ a ∈ .sample u.pins.dout :: seg, a.isSample = true := List.forall_mem_cons.2 ⟨rfl, h⟩
    refine ⟨.sample u.pins.dout :: seg, ?_⟩
    dsimp only
    split
    · refine ⟨by simp [hl], rfl, (LinkAccess.sample u.pins.dout :: seg).reverse, ?_, ?_⟩
      · exact fun a ha => hall a (List.mem_reverse.1 ha)
      · simp [slotRecord]
    · exact ⟨by simp [hl], by simpa only [Recorded, sampled_eng, he, true_and] using hall⟩
  · exact ⟨seg, hl, raise_recorded _ _ _⟩

theorem transferWait_recorded (hs : Sound u) (he : u.eng = .transfer j) (hl : u.link = seg ++ base)
    (h : Recorded u seg) :
    (transferWait j u).link = seg ++ base ∧ Recorded (transferWait j u) seg := by
  unfold transferWait
  split
  · exact ⟨hl, h⟩
  · rename_i hx
    have ht := hs.transport
    simp only [TransportSound, he] at ht
    simp only [Recorded, he, TransferRecorded, hx] at h
    obtain ⟨rfl, polls, hp, hrec⟩ := h
    have hdata : dataSamples u.params.transport seg.reverse = rxData u.xport.rx := by
      rw [ht.1, hrec, dataSamples_transferRecord _ _ hp]
    have hacc := assembled_rxData u.xport.rx
    rw [← hdata] at hacc
    obtain ⟨hlink, hrec⟩ := sessionCompleted_recorded (seg := seg)
      (u := endSession
        { u with
          xport.acc := decodeRx u.xport.rx, xport.raw := rawOf (decodeRx u.xport.rx), ctl.mon := .completed })
      ((congrArg List.length hdata).trans (rxData_length _)) (congrArg rawOf hacc.symm)
      (by rw [hrec]; exact risings_transferRecord _ _ hp)
    exact ⟨hlink.trans hl, hrec⟩

/-! ### The steps of SEQ and XFER -/

/-- A sequencer that is active is watched by the Monitor (R80, R92). -/
theorem Sound.watched (hs : Sound u) (ha : u.xport.seq.active = true) :
    ∃ j, u.eng = .watch j ∧ SequencerSound u := by
  have ht := hs.transport
  cases he : u.eng <;> simp only [TransportSound, SequencerOff, he, ha] at ht
  case watch j => exact ⟨j, rfl, ht.2.2.2⟩
  all_goals simp at ht

theorem seqWaitReady_recorded (hp : u.xport.seq.phase = .waitReady) (hl : u.link = seg ++ base)
    (h : SequencerRecorded u seg) :
    ∃ seg', (seqWaitReady u).link = seg' ++ base ∧ SequencerRecorded (seqWaitReady u) seg' := by
  have hlook : PulseRecord u.xport.acc (.sample u.pins.dout :: seg) 0 false 0 := by
    simp only [SequencerRecorded, hp] at h
    exact h.look _
  unfold seqWaitReady
  split
  · exact ⟨.drive true :: .sample u.pins.dout :: seg, by simp [hl], hlook.rise⟩
  · exact ⟨.sample u.pins.dout :: seg, by simp [hl], by simpa only [SequencerRecorded, sampled_xport, hp] using hlook⟩

theorem seqHigh_recorded (hp : u.xport.seq.phase = .high) (hpos : 1 ≤ u.xport.seq.pIdx.toNat)
    (hl : u.link = seg ++ base) (h : SequencerRecorded u seg) :
    ∃ seg', (seqHigh u).link = seg' ++ base ∧ SequencerRecorded (seqHigh u) seg' := by
  simp only [SequencerRecorded, hp] at h
  unfold seqHigh
  dsimp only
  split
  · rename_i h24
    have hk : min (u.xport.seq.pIdx.toNat - 1) 24 + 1 = min u.xport.seq.pIdx.toNat 24 := by omega
    have hdata := (h.dataBit u.pins.dout).fall
    rw [hk] at hdata
    exact ⟨.drive false :: .sample u.pins.dout :: seg, by simp [hl], hdata⟩
  · rename_i h24
    have hk : min (u.xport.seq.pIdx.toNat - 1) 24 = min u.xport.seq.pIdx.toNat 24 := by omega
    have hextra := h.fall
    rw [hk] at hextra
    exact ⟨.drive false :: seg, by simp [hl], hextra⟩

theorem seqLow_recorded (hp : u.xport.seq.phase = .low) (hl : u.link = seg ++ base)
    (h : SequencerRecorded u seg) :
    ∃ seg', (seqLow u).link = seg' ++ base ∧ SequencerRecorded (seqLow u) seg' := by
  have hrec := h
  simp only [SequencerRecorded, hp] at hrec
  unfold seqLow
  split
  · have hnext : (u.xport.seq.pIdx + 1).toNat = u.xport.seq.pIdx.toNat + 1 := by
      have := u.xport.seq.nPulse.isLt
      rw [BitVec.toNat_add]
      simp
      omega
    have hk : min ((u.xport.seq.pIdx + 1).toNat - 1) 24 = min u.xport.seq.pIdx.toNat 24 := by
      rw [hnext, Nat.add_sub_cancel]
    have hrise := hrec.rise
    rw [← hnext, ← hk] at hrise
    exact ⟨.drive true :: seg, by simp [hl], hrise⟩
  · split
    · exact ⟨seg, hl, hrec⟩
    · exact ⟨seg, hl, h⟩

theorem seqStep_recorded (hs : Sound u) (hl : u.link = seg ++ base) (h : Recorded u seg) :
    ∃ seg', (seqStep u).link = seg' ++ base ∧ Recorded (seqStep u) seg' := by
  cases hact : u.xport.seq.active
  · have hoff : seqStep u = u := by simp [seqStep, hact]
    rw [hoff]
    exact ⟨seg, hl, h⟩
  · obtain ⟨j, he, -, hph⟩ := hs.watched hact
    simp only [Recorded, seqStep_eng, he] at h ⊢
    obtain ⟨hj, hrec⟩ := h
    have hstep : ∃ seg', (seqStep u).link = seg' ++ base ∧ SequencerRecorded (seqStep u) seg' := by
      simp only [seqStep, hact, if_true]
      split <;> rename_i hp
      · exact seqWaitReady_recorded hp hl hrec
      · simp only [hp] at hph
        exact seqHigh_recorded hp hph.1 hl hrec
      · exact seqLow_recorded hp hl hrec
      · exact ⟨seg, hl, hrec⟩
      · exact ⟨seg, hl, hrec⟩
    obtain ⟨seg', hl', hrec'⟩ := hstep
    exact ⟨seg', hl', hj, hrec'⟩

/-- A transfer in progress is awaited by the engine and sends the pattern of the mapping (R96). -/
theorem Sound.transferred (hs : Sound u) {x : Xfer} (hx : u.xport.xfer = some x) :
    (∃ j, u.eng = .transfer j) ∧ x.tx = txpat u.xport.gainSel := by
  have ht := hs.transport
  cases he : u.eng <;> simp only [TransportSound, he, hx] at ht
  case transfer j => exact ⟨⟨j, rfl⟩, ht.2.2.2⟩
  all_goals simp at ht

theorem xferStep_recorded (hs : Sound u) (hl : u.link = seg ++ base) (h : Recorded u seg) :
    ∃ seg', (xferStep u).link = seg' ++ base ∧ Recorded (xferStep u) seg' := by
  unfold xferStep
  split
  case h_2 => exact ⟨seg, hl, h⟩
  rename_i x hx
  obtain ⟨⟨j, he⟩, htx⟩ := hs.transferred hx
  simp only [Recorded, he, TransferRecorded, hx] at h
  obtain ⟨hj, polls, hp, hrec⟩ := h
  have hstore := slotRecord_storeSlot x.tx u.xport.rx x.slot u.pins.dout
  unfold xferSlot
  dsimp only
  split
  · rename_i k hk
    have hkv : k.val = x.slot.val + 1 := by
      unfold nextSlot at hk
      split at hk <;> cases hk
      rfl
    refine ⟨.sample u.pins.dout :: .drive (slotLevel x.tx x.slot) :: seg, by simp [hl], ?_⟩
    simp only [Recorded, sampled_eng, drive_eng, he, TransferRecorded]
    refine ⟨hj, polls, hp, ?_⟩
    rw [hkv, hstore]
    simp [hrec]
  · rename_i hk
    have hkv : x.slot.val + 1 = 56 := by
      unfold nextSlot at hk
      split at hk
      · cases hk
      · omega
    refine ⟨.drive false :: .sample u.pins.dout :: .drive (slotLevel x.tx x.slot) :: seg, by simp [hl], ?_⟩
    simp only [Recorded, sampled_eng, drive_eng, he, TransferRecorded]
    refine ⟨hj, polls, hp, ?_⟩
    rw [hkv, List.take_of_length_le (by simp)] at hstore
    simp only [transferRecord, drive_xport, sampled_xport, ← htx, hstore]
    simp [hrec]

theorem engineStep_recorded (hs : Sound u) (hl : u.link = seg ++ base) (h : Recorded u seg) :
    ∃ seg', (engineStep u).link = seg' ++ base ∧ Recorded (engineStep u) seg' := by
  unfold engineStep
  split <;> rename_i he
  · exact ⟨seg, hl, h⟩
  · exact ⟨seg, engineArm_recorded he hl h⟩
  · exact monitorPoll_recorded hs he hl h
  · exact readyPoll_recorded he hl h
  · exact ⟨seg, transferWait_recorded hs he hl h⟩

end

/-! ### Runs -/

/-- Every event but a reset keeps what the record holds. -/
theorem Reading.tick {base : List LinkAccess} {u : State} (h : Reading base u) {e : Event} (hne : e ≠ .rst true) :
    Reading base (tick e u) := by
  refine ⟨h.sound.tick e, ?_⟩
  obtain ⟨hs, seg, hl, hrec⟩ := h
  cases e with
  | dout b | time ms => exact ⟨seg, hl, hrec⟩
  | present w =>
    rw [tick_present, present]
    split <;> exact ⟨seg, hl, hrec⟩
  | rst b =>
    cases b
    · exact ⟨seg, hl, hrec⟩
    · exact absurd rfl hne
  | engine =>
    simp only [Machine.tick]
    split
    · exact ⟨seg, hl, hrec⟩
    · exact engineStep_recorded hs hl hrec
  | seq =>
    simp only [Machine.tick]
    split
    · exact seqStep_recorded hs hl hrec
    · exact ⟨seg, hl, hrec⟩
  | xfer =>
    simp only [Machine.tick]
    split
    · exact xferStep_recorded hs hl hrec
    · exact ⟨seg, hl, hrec⟩

theorem Reading.setEvents {base : List LinkAccess} {u : State} (h : Reading base u) (es : List Event) :
    Reading base { u with events := es } := ⟨h.sound.setEvents es, h.recorded⟩

/-- What every event but a reset keeps, a run without a reset keeps, when the field `events` does not matter to it. -/
theorem runWhile_keeps_undisturbed (p : State → Bool) (P : State → Prop)
    (hevents : ∀ s es, P s → P { s with events := es }) (htick : ∀ e s, e ≠ .rst true → P s → P (Machine.tick e s)) :
    ∀ (es : List Event) (s : State), Event.rst true ∉ es → P s → P (runWhile p es s) := by
  intro es
  induction es with
  | nil => intro s _ h; exact hevents s [] h
  | cons e es ih =>
    intro s hes h
    rw [List.mem_cons, not_or] at hes
    cases hp : p s
    · rw [runWhile_stop p _ s hp]; exact hevents s _ h
    · rw [runWhile_cons p e es s hp]; exact ih _ hes.2 (htick e s (Ne.symm hes.1) h)

/-- A powered block that begins a `READ` has recorded nothing yet (R81). -/
theorem Reading.start {s : State} (hs : Sound s) (he : s.eng = .idle) (hp : s.ctl.power = .up) :
    Reading s.link (readRaw .read s) := by
  refine ⟨(hs.quiet he).readRaw _ trivial, [], by simp, ?_⟩
  rw [readRaw_up _ _ hp]
  exact ⟨rfl, rfl⟩

/-! ### `ReadReportsTheSampledBits` -/

/-- Settles O57: the record of the session is kept by every event along the run, and at the completion it is the claim,
since no step changes the variant and a `READ` does not change the mapping. -/
theorem readReportsTheSampledBits : Obligations.ReadReportsTheSampledBits := by
  intro s t hs he hp ⟨_, hu⟩ hexec ht hstatus
  have hparams : t.params = s.params := exec_params hexec
  have hgain : t.xport.gainSel = s.xport.gainSel := (exec_confined he hu hexec).gainSel
  have hread : Reading s.link t := by
    cases hexec
    exact runWhile_keeps_undisturbed _ (Reading s.link) (fun _ es h => h.setEvents es)
      (fun _ _ hne h => h.tick hne) _ _ (by rw [readRaw_events]; exact hu) (Reading.start hs he hp)
  obtain ⟨-, seg, hl, hrec⟩ := hread
  simp only [Recorded, ht] at hrec
  have hreported := hrec hstatus
  rw [Reported, hparams, hgain] at hreported
  exact ⟨seg, hl, hreported⟩

end Sys2Proof.Machine
end

section
/-! PROOFS. The family `30_encoding.md`, first part: the command word, the pattern word and the assembled line (R57, R63 to
R66, R70). Each format reads its operands from the fields `A` and `B`, so one lemma per format says what a field can hold
and what it gives back. -/

namespace Sys2Proof.Machine

/-! ### The operands of a word (R64) -/

@[simp] theorem unsignedOperand_commandWord (op : BitVec 8) (a b : BitVec 32) :
    unsignedOperand (commandWord op a b) = a.toNat := by
  simp [unsignedOperand]

@[simp] theorem numeratorOperand_commandWord (op : BitVec 8) (a b : BitVec 32) :
    numeratorOperand (commandWord op a b) = a.toInt := by
  simp [numeratorOperand]

@[simp] theorem denominatorOperand_commandWord (op : BitVec 8) (a b : BitVec 32) :
    denominatorOperand (commandWord op a b) = b.toNat := by
  simp [denominatorOperand]

theorem wfUnsigned_iff (n : Nat) : wfUnsigned n = true ↔ n < 2 ^ 32 := by
  simp [wfUnsigned]

theorem wfRational_iff (num : Int) (den : Nat) :
    wfRational num den = true ↔ (-(2 ^ 31) ≤ num ∧ num < 2 ^ 31) ∧ den < 2 ^ 32 := by
  simp [wfRational]

/-- Whatever the word, its field `A` holds an operand of format `U`. -/
@[simp] theorem wfUnsigned_unsignedOperand (w : CommandWord) : wfUnsigned (unsignedOperand w) = true :=
  (wfUnsigned_iff _).2 (aField w).isLt

/-- Whatever the word, its fields `A` and `B` hold an operand of format `Q`. -/
@[simp] theorem wfRational_operands (w : CommandWord) :
    wfRational (numeratorOperand w) (denominatorOperand w) = true :=
  (wfRational_iff _ _).2 ⟨⟨BitVec.le_toInt (aField w), BitVec.toInt_lt⟩, (bField w).isLt⟩

/-! ### `DecodeInvertsEncode` -/

/-- The round trip, format by format: an operand that fits its field comes back from it (R64, R65). -/
theorem decode_encode {i : Instr} (h : i.wf = true) : decode (encode i) = .ok i := by
  cases i with
  | read | readLowpass | getValue | getUnits | getTimeConstant | powerDown | powerUp =>
    simp [encode, encodeN, decode, decodeCommand]
  | readAverage n | tare n | setGain n =>
    have hn : (BitVec.ofNat 32 n).toNat = n := toNat_ofNat_unsigned n ((wfUnsigned_iff n).1 h)
    simp [encode, encodeU, decode, decodeCommand, hn, -BitVec.toNat_ofNat]
  | setScale num den | setOffset num den | setTimeConstant num den =>
    obtain ⟨⟨hlow, hhigh⟩, hfits⟩ := (wfRational_iff num den).1 h
    have hnum : (BitVec.ofInt 32 num).toInt = num := toInt_ofInt_numerator num hlow hhigh
    have hden : (BitVec.ofNat 32 den).toNat = den := toNat_ofNat_unsigned den hfits
    simp [encode, encodeQ, decode, decodeCommand, hnum, hden, -BitVec.toNat_ofNat, -BitVec.toInt_ofInt]
  | txpat1 | txpat2 | txpat3 => decide

/-- Settles O1: the round trip, for every instruction. -/
theorem decodeInvertsEncode : Obligations.DecodeInvertsEncode := fun _ h => decode_encode h

/-! ### `DecodedInstructionsAreWellFormed` -/

theorem decodeCommand_wf {w : CommandWord} {i : Instr} (h : decodeCommand w = .ok i) : i.wf = true := by
  unfold decodeCommand at h
  split at h <;> cases h <;> simp [Instr.wf]

theorem patternInstr_wf (g : GainSel) : (patternInstr g).wf = true := by
  cases g <;> rfl

/-- Settles O2: the operands of a command are those its word holds, and a pattern has none. -/
theorem decodedInstructionsAreWellFormed : Obligations.DecodedInstructionsAreWellFormed := by
  intro c i h
  cases c with
  | command w => exact decodeCommand_wf h
  | pattern p =>
    obtain ⟨g, rfl, -⟩ := decodePattern_patternInstr h
    exact patternInstr_wf g

/-! ### `UnusedFieldsAreIgnored` -/

/-- Settles O3, format by format: the decoder reads the opcode and the operands of the format, and these agree. -/
theorem unusedFieldsAreIgnored : Obligations.UnusedFieldsAreIgnored := by
  intro w v hop hfields
  simp only [List.mem_cons, List.not_mem_nil, or_false] at hfields
  obtain hn | ⟨hu, ha⟩ | ⟨hq, ha, hb⟩ := hfields
  · obtain h | h | h | h | h | h | h := hn <;> simp [decodeCommand, ← hop, h]
  · have hoperand : unsignedOperand w = unsignedOperand v := congrArg BitVec.toNat ha
    obtain h | h | h := hu <;> simp [decodeCommand, ← hop, h, hoperand]
  · have hnum : numeratorOperand w = numeratorOperand v := congrArg BitVec.toInt ha
    have hden : denominatorOperand w = denominatorOperand v := congrArg BitVec.toNat hb
    obtain h | h | h := hq <;> simp [decodeCommand, ← hop, h, hnum, hden]

/-! ### `ReservedOpcodesSelectNoCommand` -/

/-- Settles O4, along the arms of the decoder: the opcodes 1 to 13 each select a command, and the last arm is reached by
exactly the others. -/
theorem reservedOpcodesSelectNoCommand : Obligations.ReservedOpcodesSelectNoCommand := by
  intro w
  have hzero : opField w = 0x00 ↔ (opField w).toNat = 0 := BitVec.toNat_inj.symm
  rw [hzero]
  unfold decodeCommand
  split
  case h_14 =>
    simp only [imp_false, true_iff] at *
    omega
  all_goals exact iff_of_false nofun (by omega)

/-! ### `KnownWordsDecode` -/

/-- Settles O5: the decoder evaluates each of the eight words. -/
theorem knownWordsDecode : Obligations.KnownWordsDecode := by
  unfold Obligations.KnownWordsDecode
  decide

/-! ### `AssembledLinesDecodeBack` -/

/-- The code of a host command is a command word (R63, R65). -/
theorem encode_command {i : Instr} (h : isCommand i = true) : ∃ w, encode i = .command w := by
  cases i with
  | txpat1 | txpat2 | txpat3 => cases h
  | _ => exact ⟨_, rfl⟩

theorem assembleBare_isCommand {m : List Char} {a : AsmItem} (h : assembleBare m = some a) :
    isCommand a.instr = true := by
  unfold assembleBare at h
  split_ifs at h <;> cases h <;> rfl

theorem assembleOperand_isCommand {m x : List Char} {a : AsmItem} (h : assembleOperand m x = some a) :
    isCommand a.instr = true := by
  unfold assembleOperand at h
  split_ifs at h <;>
    · obtain ⟨_, -, rfl⟩ := Option.map_eq_some_iff.1 h
      rfl

/-- A line assembles to a host command whose operands fit their fields, and to nothing else (R64, R70). -/
theorem assembleLine_isCommand_wf {line : List Char} {a : AsmItem} (h : assembleLine line = some (some a)) :
    isCommand a.instr = true ∧ a.instr.wf = true := by
  obtain ⟨hitem, hwf⟩ := Option.filter_eq_some_iff.1 h
  refine ⟨?_, by simpa using hwf⟩
  split at hitem
  · cases hitem
  · obtain ⟨_, hbare, ⟨⟩⟩ := Option.map_eq_some_iff.1 hitem
    exact assembleBare_isCommand hbare
  · obtain ⟨_, hoperand, ⟨⟩⟩ := Option.map_eq_some_iff.1 hitem
    exact assembleOperand_isCommand hoperand
  · cases hitem

/-- Settles O60: the round trip of the instruction that the line assembles to. -/
theorem assembledLinesDecodeBack : Obligations.AssembledLinesDecodeBack := by
  intro line a h
  obtain ⟨hcommand, hwf⟩ := assembleLine_isCommand_wf h
  obtain ⟨w, hw⟩ := encode_command hcommand
  have hdecode : decode (encode a.instr) = .ok a.instr := decode_encode hwf
  rw [hw] at hdecode
  exact ⟨w, by simp [AsmItem.word, hw], hdecode⟩

end Sys2Proof.Machine
end

section
/-! PROOFS. The family `30_encoding.md`, second part: the gain table, the clock patterns and their transfer, the receive
buffer and the sentinel (R56 to R61, R96, R97, R111, R113). -/

namespace Sys2Proof.Machine

/-! ### `GainCodeTable` -/

/-- Settles O9: the table row by row, and no row for any other gain. -/
theorem gainCodeTable : Obligations.GainCodeTable := by
  refine ⟨⟨rfl, rfl, rfl⟩, ?_, ⟨rfl, rfl, rfl⟩, ⟨rfl, rfl, rfl⟩, ⟨rfl, rfl, rfl⟩⟩
  intro g h128 h64 h32
  simp [gainOperand, h128, h64, h32]

/-! ### `ClockPatternsSpellTheirFrames` -/

/-- Settles O6: the 56 slots of each of the three patterns. -/
theorem clockPatternsSpellTheirFrames : Obligations.ClockPatternsSpellTheirFrames := by
  intro g
  cases g <;> decide

/-! ### `NibbleTablePacksTheEvenBits` -/

/-- Entry `k` of the nibble table holds `k` (R59). -/
theorem lut_toFin : ∀ k : BitVec 4, lut[k.toFin] = k := by decide

/-- The nibble of a masked byte is the index of its entry (R59). -/
theorem pack_eq_lutIndex (m : Byte) : pack m = lutIndex m := lut_toFin _

/-- The masked byte of an entry: odd bits 0, even bits those of the entry (R59). -/
theorem spread_bits : ∀ k : BitVec 4, spread k &&& 0xAA = 0 ∧ lutIndex (spread k) = k ∧
    ∀ i : Fin 4, (spread k).getLsbD (2 * i.val) = k.getLsbD i.val := by decide

/-- Settles O7: the table is the identity on the index, and the index is the even bits. -/
theorem nibbleTablePacksTheEvenBits : Obligations.NibbleTablePacksTheEvenBits := by
  refine ⟨fun m _ => pack_eq_lutIndex m, fun k => ?_⟩
  obtain ⟨hodd, hindex, heven⟩ := spread_bits k
  exact ⟨lut_toFin k, hodd, (pack_eq_lutIndex _).trans hindex, heven⟩

/-! ### `ReceiveBufferHoldsTheSample` -/

/-- The last byte holds no data slot and is not read (R60). -/
theorem decodeRx_set_last (rx : Vector Byte 7) (b : Byte) : decodeRx (rx.set 6 b) = decodeRx rx := by
  simp [decodeRx]

/-- Settles O8: the bits of the decoded pattern one by one, and the byte the decoding leaves out. -/
theorem receiveBufferHoldsTheSample : Obligations.ReceiveBufferHoldsTheSample :=
  ⟨getLsbD_decodeRx, decodeRx_set_last⟩

/-! ### `SentinelIsNoSample` -/

/-- The control bit tells the sentinel from every captured word (R61). -/
theorem rawOf_ne_sentinel (acc : Sample24) : rawOf acc ≠ sentinel := by
  intro h
  have hnr : rawNr (rawOf acc) = rawNr sentinel := congrArg rawNr h
  rw [rawNr_rawOf] at hnr
  cases hnr

/-- Settles O12: the sentinel has the control bit set, a captured word has it clear. -/
theorem sentinelIsNoSample : Obligations.SentinelIsNoSample :=
  ⟨rfl, rfl, rfl, fun acc => ⟨rawOf_ne_sentinel acc, rawNr_rawOf acc, rawData_rawOf acc⟩,
    decodeSample_rawOf 0xFFFFFF⟩

/-! ### `TransferRunsItsPattern` -/

/-- The accesses of the slots from slot `k` on are the record of those slots (R96). -/
theorem slotAccesses_eq_slotRecord (tx : Vector Byte 7) (f : Fin 56 → Bool) (ds : List Bool) :
    ∀ (k : Nat) (_ : k + ds.length = 56), (∀ (i : Nat) (_ : i < ds.length), ds[i] = f ⟨k + i, by omega⟩) →
      slotAccesses tx ds k = slotRecord tx f ((List.finRange 56).drop k) := by
  induction ds with
  | nil =>
    intro k hk _
    rw [List.drop_eq_nil_of_le (by simpa using hk.ge)]
    rfl
  | cons d ds ih =>
    intro k hk hf
    rw [List.length_cons] at hk
    have hk56 : k < 56 := by omega
    have hdrop : (List.finRange 56).drop k = ⟨k, hk56⟩ :: (List.finRange 56).drop (k + 1) := by
      rw [List.drop_eq_getElem_cons (by simpa using hk56)]
      simp
    have hd : d = f ⟨k, hk56⟩ := hf 0 (by simp)
    have hds := ih (k + 1) (by omega) fun i hi => by
      have hnext := hf (i + 1) (by simpa using hi)
      simpa [Nat.add_assoc, Nat.add_comm 1] using hnext
    rw [hdrop, slotRecord_cons, slotAccesses, dif_pos hk56, hds, hd]
    rfl

theorem slotAccesses_slots (tx : Vector Byte 7) (slots : Vector Bool 56) :
    slotAccesses tx slots.toList 0 = slotRecord tx (fun k => slots[k]) (List.finRange 56) :=
  slotAccesses_eq_slotRecord tx _ slots.toList 0 (by simp) fun i _ => by simp

/-- Of levels shown one after another the last one stays. -/
theorem foldl_last_level (ds : List Bool) (b : Bool) : ds.foldl (fun _ d => d) b = ds.getLastD b := by
  induction ds generalizing b with
  | nil => rfl
  | cons d ds ih => rw [List.foldl_cons, ih, List.getLastD_cons]

theorem getLastD_slots (slots : Vector Bool 56) (b : Bool) : slots.toList.getLastD b = slots[55] := by
  simp [List.getLastD_eq_getLast?, List.getLast?_eq_getElem?]

/-- A pattern row runs all its slots and stops before the events that follow them (R96). -/
theorem exec_patternInstr_slots (g : GainSel) {s : State} (slots : Vector Bool 56) {rest : List Event}
    (ht : s.params.transport = .shiftreg) (hr : s.pins.rst = false)
    (hevents : s.events = slots.toList.flatMap (fun d => [.dout d, .xfer]) ++ rest) :
    exec (patternInstr g) s = .next { slotsDone (txpat g) slots.toList 0 s with events := rest } := by
  rw [exec_patternInstr, transferPattern, ht]
  simp only [runTransfer, issueTransfer_events, hevents]
  rw [run_slots State.transferring (txpat g) rest slots.toList 0 (by omega) (issueTransfer _ s) (by simp) hr ht rfl
      (fun _ _ h => h),
    runWhile_stop _ _ _ rfl]
  rfl

/-- Settles O32: the run slot by slot; its record is one drive and one sample per slot, and the pattern alone decides its
pulses. -/
theorem transferRunsItsPattern : Obligations.TransferRunsItsPattern := by
  intro g s slots rest ht hr hevents
  refine ⟨rxAfter slots.toList 0 s.xport.rx, .drive false :: slotLink (txpat g) slots.toList 0 [], ?_, fun k => ?_,
    ?_, ?_⟩
  · rw [exec_patternInstr_slots g slots ht hr hevents, slotsDone, foldl_last_level, getLastD_slots, List.cons_append,
      ← slotLink_append, List.nil_append]
  · rw [rxSlot_rxAfter slots.toList 0 _ k (by simp)]
    simp
  · rw [List.reverse_cons, slotLink_reverse, slotAccesses_slots]
    rfl
  · simpa using (transfer_pulses g slots.toList (by simp) Pulses.nil).count

end Sys2Proof.Machine
end

section
/-! PROOFS. The family `30_encoding.md`, third part: the command port and what a step takes up (R48, R72, R96). -/

namespace Sys2Proof.Machine

/-! ### What the machine takes up -/

theorem fetch_command {s : State} (hx : s.xport.xfer = none) (hb : s.port.busy = false)
    (hv : s.pins.cmdValid = true) : fetch s = some (.command s.pins.cmd) := by
  simp [fetch, hx, hb, hv]

theorem fetch_pattern {s : State} {tx : Vector Byte 7} (hx : s.xport.xfer = some { tx := tx, slot := 0 }) :
    fetch s = some (.pattern (patternWord tx)) := by
  simp [fetch, hx]

theorem fetch_none {s : State} (hslot : ∀ x, s.xport.xfer = some x → x.slot ≠ 0)
    (hport : s.xport.xfer = none → s.port.busy = true ∨ s.pins.cmdValid = false) : fetch s = none := by
  unfold fetch
  split
  · rw [if_neg (hslot _ ‹_›)]
  · obtain h | h := hport ‹_› <;> simp [h]

/-- Outside reset a code taken up runs its instruction. -/
theorem step_fetched {s : State} {c : Code} {i : Instr} (hr : s.pins.rst = false) (hf : fetch s = some c)
    (hd : decode c = .ok i) : step s = exec i (take c s) := by
  simp [step, hr, hf, hd]

/-- Outside reset, with nothing to take up, the next event happens. -/
theorem step_unfetched {s : State} (hr : s.pins.rst = false) (hf : fetch s = none) :
    step s = .next (nextEvent s) := by
  simp [step, hr, hf]

/-- A presented word runs its command in the block that accepted it (R72). -/
theorem step_command {s : State} {i : Instr} (hr : s.pins.rst = false) (hx : s.xport.xfer = none)
    (hb : s.port.busy = false) (hv : s.pins.cmdValid = true) (hd : decode (.command s.pins.cmd) = .ok i) :
    step s = exec i (accept s) :=
  step_fetched hr (fetch_command hx hb hv) hd

/-! ### `StepRunsTheDecodedInstruction` -/

/-- Settles O44, along the branches of `fetch`. -/
theorem stepRunsTheDecodedInstruction : Obligations.StepRunsTheDecodedInstruction := by
  intro s hr
  refine ⟨fun i hx hb hv hd => ?_, fun i tx hx hd => ?_, fun hslot hport => ?_⟩
  · exact step_command hr hx hb hv hd
  · exact step_fetched hr (fetch_pattern hx) hd
  · rw [step_unfetched hr (fetch_none hslot hport)]
    constructor
    · intro h; simp [nextEvent, h]
    · intro e es h; simp [nextEvent, h]

/-! ### `CommandPortAcceptsOnlyWhenIdle` -/

theorem present_idle (w : CommandWord) {s : State} (hb : s.port.busy = false) (hr : s.pins.rst = false) :
    present w s = { s with pins.cmd := w, pins.cmdValid := true } := by
  simp [present, hb, hr]

theorem present_busy (w : CommandWord) {s : State} (hb : s.port.busy = true) : present w s = s := by
  simp [present, hb]

/-- No transfer is in progress between commands. -/
theorem Sound.xfer_eq_none {s : State} (h : Sound s) (he : s.eng = .idle) : s.xport.xfer = none := by
  have ht := h.transport
  rw [TransportSound, he] at ht
  obtain ⟨-, hx, -⟩ := ht
  exact hx

/-- Settles O45: the state the command runs in is the block that accepted the presented word; no transfer comes before the
word, since the block is idle. -/
theorem commandPortAcceptsOnlyWhenIdle : Obligations.CommandPortAcceptsOnlyWhenIdle := by
  intro s w h hr
  refine ⟨fun hb => ⟨accept (present w s), ?_⟩, present_busy w⟩
  have he : s.eng = .idle := h.idle hb
  have hx : s.xport.xfer = none := h.sound.xfer_eq_none he
  rw [tick_present, present_idle w hb hr]
  exact ⟨rfl, he, rfl, rfl, rfl, rfl, rfl, rfl, rfl, rfl, rfl, fun i hd => step_command hr hx hb rfl hd⟩

end Sys2Proof.Machine
end

section
/-! PROOFS. The family `40_transport.md`, first part: the accumulator as a number (R85), and the accumulator
that takes the extra pulses too (R102). -/

namespace Sys2Proof.Machine

/-! ### Bits read as a binary number -/

/-- The number that bits stand for, the first one most significant (R41). -/
def bitsValue (bits : List Bool) : Nat := bits.foldl (fun n d => 2 * n + d.toNat) 0

theorem foldl_bitsValue (bits : List Bool) :
    ∀ n, bits.foldl (fun n d => 2 * n + d.toNat) n = n * 2 ^ bits.length + bitsValue bits := by
  induction bits with
  | nil => intro n; simp [bitsValue]
  | cons d bits ih =>
    intro n
    have hd : bitsValue (d :: bits) = (2 * 0 + d.toNat) * 2 ^ bits.length + bitsValue bits := ih _
    rw [List.foldl_cons, ih, hd, List.length_cons, Nat.pow_succ]
    ring

theorem bitsValue_cons (d : Bool) (bits : List Bool) :
    bitsValue (d :: bits) = d.toNat * 2 ^ bits.length + bitsValue bits := by
  rw [bitsValue, List.foldl_cons, foldl_bitsValue, Nat.mul_zero, Nat.zero_add]

theorem bitsValue_append (bits extra : List Bool) :
    bitsValue (bits ++ extra) = bitsValue bits * 2 ^ extra.length + bitsValue extra := by
  rw [bitsValue, List.foldl_append, foldl_bitsValue extra]
  rfl

theorem bitsValue_lt (bits : List Bool) : bitsValue bits < 2 ^ bits.length := by
  induction bits with
  | nil => exact Nat.one_pos
  | cons d bits ih =>
    have hd : d.toNat * 2 ^ bits.length ≤ 1 * 2 ^ bits.length := Nat.mul_le_mul_right _ d.toNat_le
    rw [bitsValue_cons, List.length_cons, Nat.pow_succ]
    omega

/-- The number as the sum of the weights of its bits. -/
theorem bitsValue_eq_sum (bits : List Bool) :
    bitsValue bits = ∑ k : Fin bits.length, (bits[k]).toNat * 2 ^ (bits.length - 1 - k.val) := by
  induction bits with
  | nil => rfl
  | cons d bits ih =>
    have hweight : ∀ k : Fin bits.length, (d :: bits).length - 1 - k.succ.val = bits.length - 1 - k.val := by
      intro k
      simp only [List.length_cons, Fin.val_succ]
      omega
    rw [bitsValue_cons, ih]
    refine Eq.trans ?_ (Fin.sum_univ_succ _).symm
    simp only [hweight]
    rfl

/-- Bits shifted into an accumulator are read as a number, modulo its width (R85). -/
theorem toNat_foldl_shiftIn {w : Nat} (bits : List Bool) :
    ∀ acc : BitVec w, (bits.foldl shiftIn acc).toNat = (acc.toNat * 2 ^ bits.length + bitsValue bits) % 2 ^ w := by
  induction bits with
  | nil => intro acc; simp [bitsValue, Nat.mod_eq_of_lt acc.isLt]
  | cons d bits ih =>
    intro acc
    have harith : (2 * acc.toNat + d.toNat) * 2 ^ bits.length + bitsValue bits =
        acc.toNat * 2 ^ (d :: bits).length + bitsValue (d :: bits) := by
      rw [bitsValue_cons, List.length_cons, Nat.pow_succ]
      ring
    rw [List.foldl_cons, ih, toNat_shiftIn, ← harith, Nat.add_mod, Nat.mod_mul_mod, ← Nat.add_mod]

/-- An empty accumulator with room for every bit holds their number. -/
theorem toNat_foldl_shiftIn_zero {w : Nat} {bits : List Bool} (h : bits.length ≤ w) :
    (bits.foldl shiftIn (0 : BitVec w)).toNat = bitsValue bits := by
  have hlt : bitsValue bits < 2 ^ w := (bitsValue_lt bits).trans_le (Nat.pow_le_pow_right Nat.two_pos h)
  simp [toNat_foldl_shiftIn, Nat.mod_eq_of_lt hlt]

/-! ### `AccumulatorWeighsTheSampledBits` -/

/-- Settles O13: the shift is doubling and adding, and up to 24 bits none is lost. -/
theorem accumulatorWeighsTheSampledBits : Obligations.AccumulatorWeighsTheSampledBits :=
  ⟨toNat_shiftIn, fun bits h => (toNat_foldl_shiftIn_zero h).trans (bitsValue_eq_sum bits)⟩

/-! ### `DroppingTheGainBits` -/

/-- With room for all its bits, the wide accumulator is `ACC * 2^g` and the bits of the `g` extra pulses (R102). -/
theorem toNat_wide {w : Nat} {data extra : List Bool} (hw : data.length + extra.length ≤ w)
    (hdata : data.length = 24) :
    ((data ++ extra).foldl shiftIn (0 : BitVec w)).toNat =
      (data.foldl shiftIn (0 : Sample24)).toNat * 2 ^ extra.length + bitsValue extra := by
  rw [toNat_foldl_shiftIn_zero (by simpa using hw), toNat_foldl_shiftIn_zero hdata.le, bitsValue_append]

/-- The samples of a data word with only its first bit set. -/
def loneBit : List Bool := true :: List.replicate 23 false

theorem toNat_loneBit : (loneBit.foldl shiftIn (0 : Sample24)).toNat = 2 ^ 23 := by decide

theorem bitsValue_zeros (g : Nat) : bitsValue (List.replicate g false) = 0 := by
  induction g with
  | zero => rfl
  | succ g ih => rw [List.replicate_succ, bitsValue_cons, ih]; simp

/-- A right shift by `h` bits undoes a left shift by `g` only when the two are equal. -/
theorem shift_back_ne {g h : Nat} (hne : h ≠ g) : 2 ^ 23 * 2 ^ g / 2 ^ h ≠ 2 ^ 23 := by
  rw [← Nat.pow_add]
  by_cases hle : h ≤ 23 + g
  · rw [Nat.pow_div hle Nat.two_pos]
    intro heq
    have := Nat.pow_right_injective (Nat.le_refl 2) heq
    omega
  · rw [Nat.div_eq_of_lt (Nat.pow_lt_pow_right Nat.one_lt_two (by omega))]
    exact (Nat.two_pow_pos 23).ne

/-- Settles O14: the wide accumulator as a number, divided by `2^g`; where it is too narrow or shifted otherwise, the
data word with only its first bit set is a counterexample. -/
theorem droppingTheGainBits : Obligations.DroppingTheGainBits := by
  intro g hg1 hg3
  refine ⟨fun w data extra hw hdata hextra => ?_, fun w hw => ?_, fun w h hw hne => ?_⟩
  · have hbig := toNat_wide (w := w) (data := data) (extra := extra) (by omega) hdata
    have he := bitsValue_lt extra
    rw [hextra] at hbig he
    refine ⟨he, hbig, ?_⟩
    rw [BitVec.toNat_ushiftRight, hbig, Nat.shiftRight_eq_div_pow, Nat.mul_comm,
      Nat.mul_add_div (Nat.two_pow_pos g), Nat.div_eq_of_lt he, Nat.add_zero]
  · refine ⟨loneBit, List.replicate g false, rfl, by simp, ne_of_lt ?_⟩
    rw [toNat_loneBit, BitVec.toNat_ushiftRight, Nat.shiftRight_eq_div_pow, Nat.div_lt_iff_lt_mul (Nat.two_pow_pos g),
      ← Nat.pow_add]
    exact (BitVec.isLt _).trans_le (Nat.pow_le_pow_right Nat.two_pos (by omega))
  · refine ⟨loneBit, List.replicate g false, rfl, by simp, ?_⟩
    rw [BitVec.toNat_ushiftRight, toNat_wide (by simp [loneBit]; omega) rfl, toNat_loneBit, bitsValue_zeros,
      List.length_replicate, Nat.add_zero, Nat.shiftRight_eq_div_pow]
    exact shift_back_ne hne

end Sys2Proof.Machine
end

section
/-! PROOFS. The family `40_transport.md`, second part: the single steps of the engine and of the sequencer (R81 to R98),
and the events that end a session (R100). -/

namespace Sys2Proof.Machine

section

variable {s : State} {j : Job}

/-! ### The step of ENGINE at each of its positions -/

theorem tick_engine_arm (hr : s.pins.rst = false) (he : s.eng = .arm j) : tick .engine s = engineArm j s := by
  rw [tick_engine s hr, engineStep, he]

theorem tick_engine_watch (hr : s.pins.rst = false) (he : s.eng = .watch j) : tick .engine s = monitorPoll j s := by
  rw [tick_engine s hr, engineStep, he]

theorem tick_engine_poll (hr : s.pins.rst = false) (he : s.eng = .poll j) : tick .engine s = readyPoll j s := by
  rw [tick_engine s hr, engineStep, he]

theorem tick_engine_transfer (hr : s.pins.rst = false) (he : s.eng = .transfer j) :
    tick .engine s = transferWait j s := by
  rw [tick_engine s hr, engineStep, he]

/-! ### What decides a poll -/

theorem ready_iff : s.ready = true ↔ s.pins.dout = s.params.readyLevel := beq_iff_eq

theorem deadlineReached_iff :
    s.deadlineReached = true ↔ s.params.deadlineMs ≤ (s.pins.now - s.ctl.start).toNat := decide_eq_true_iff

/-- A poll of the Monitor before completion and before the deadline changes nothing (R91). -/
theorem monitorPoll_waits (hd : s.xport.seq.done = false)
    (ht : (s.pins.now - s.ctl.start).toNat < s.params.deadlineMs) : monitorPoll j s = s := by
  have hdead : ¬ s.deadlineReached = true := by rw [deadlineReached_iff]; omega
  simp [monitorPoll, hd, hdead]

/-- A poll of the Monitor at the deadline, the sequencer not having finished (R91 to R93). -/
theorem monitorPoll_timesOut (hd : s.xport.seq.done = false)
    (ht : s.params.deadlineMs ≤ (s.pins.now - s.ctl.start).toNat) :
    monitorPoll j s = raise .sensorTimeout (endSession (deactivate { s with ctl.mon := .timedOut })) := by
  simp [monitorPoll, hd, deadlineReached_iff.2 ht]

/-- A poll of the Monitor after the pulse train, whatever the time (R91 to R93). -/
theorem monitorPoll_completes (hd : s.xport.seq.done = true) :
    monitorPoll j s = sessionCompleted j (endSession (deactivate { s with ctl.mon := .completed })) := by
  simp [monitorPoll, hd]

/-- A completed session hands over the sample of the captured word (R88, R97, R110). -/
theorem sessionCompleted_rawOf {acc : Sample24} (h : s.xport.raw = rawOf acc) :
    sessionCompleted j s = useSample j (sampleOf acc) s := by
  simp only [sessionCompleted, h, decodeSample_rawOf]

/-- A ready poll within the budget that finds the converter ready (R94, R96). -/
theorem readyPoll_issues (hb : s.xport.polls < s.params.pollBudget) (hd : s.pins.dout = s.params.readyLevel) :
    readyPoll j s =
      { issueTransfer (txpat s.xport.gainSel) { sampled s with xport.polls := s.xport.polls + 1 } with
        eng := .transfer j } := by
  simp [readyPoll, hb, ready_iff.2 hd]

/-- A ready poll within the budget that does not (R94). -/
theorem readyPoll_goesOn (hb : s.xport.polls < s.params.pollBudget) (hd : s.pins.dout ≠ s.params.readyLevel) :
    readyPoll j s = { sampled s with xport.polls := s.xport.polls + 1 } := by
  have hready : ¬ s.ready = true := mt ready_iff.1 hd
  simp [readyPoll, hb, hready]

/-- The step after the last poll of the budget (R95). -/
theorem readyPoll_timesOut (hb : s.params.pollBudget ≤ s.xport.polls) :
    readyPoll j s = raise .sensorTimeout (endSession { s with ctl.mon := .timedOut }) := by
  simp [readyPoll, Nat.not_lt.2 hb]

/-- While a transfer runs the engine waits (R96). -/
theorem transferWait_waits (hx : s.xport.xfer ≠ none) : transferWait j s = s := by
  obtain ⟨x, hx⟩ := Option.ne_none_iff_exists'.1 hx
  simp [transferWait, hx]

/-- After the transfer the receive buffer is decoded and its sample used (R93, R97, R98). -/
theorem transferWait_completes (hx : s.xport.xfer = none) :
    transferWait j s =
      useSample j (sampleOf (decodeRx s.xport.rx))
        (endSession
          { s with
            xport.acc := decodeRx s.xport.rx, xport.raw := rawOf (decodeRx s.xport.rx), ctl.mon := .completed }) := by
  rw [transferWait, hx]
  exact sessionCompleted_rawOf rfl

/-! ### The steps of SEQ -/

/-- The sequencer has no step outside a session, on the other variant, or under reset (R4, R82, R175). -/
theorem tick_seq_disabled
    (h : s.xport.seq.active = false ∨ s.params.transport = .shiftreg ∨ s.pins.rst = true) : tick .seq s = s := by
  simp only [tick]
  split
  · rename_i hr ht
    have ha : s.xport.seq.active = false := by simpa [hr, ht] using h
    simp [seqStep, ha]
  · rfl

theorem seqStep_waitReady (ha : s.xport.seq.active = true) (hp : s.xport.seq.phase = .waitReady) :
    seqStep s = seqWaitReady s := by
  rw [seqStep, if_pos ha, hp]

theorem seqStep_high (ha : s.xport.seq.active = true) (hp : s.xport.seq.phase = .high) : seqStep s = seqHigh s := by
  rw [seqStep, if_pos ha, hp]

theorem seqStep_low (ha : s.xport.seq.active = true) (hp : s.xport.seq.phase = .low) : seqStep s = seqLow s := by
  rw [seqStep, if_pos ha, hp]

/-- In `Off` and `Done` the sequencer has no step (R82, R88). -/
theorem seqStep_rests (ha : s.xport.seq.active = true) (hp : s.xport.seq.phase = .off ∨ s.xport.seq.phase = .done) :
    seqStep s = s := by
  rw [seqStep, if_pos ha]
  obtain hp | hp := hp <;> rw [hp]

theorem seqWaitReady_rises (hd : s.pins.dout = s.params.readyLevel) :
    seqWaitReady s = drive true { sampled s with xport.seq.pIdx := 1, xport.seq.phase := .high } := by
  simp [seqWaitReady, ready_iff.2 hd]

theorem seqWaitReady_looks (hd : s.pins.dout ≠ s.params.readyLevel) : seqWaitReady s = sampled s := by
  have hready : ¬ s.ready = true := mt ready_iff.1 hd
  simp [seqWaitReady, hready]

/-- The shift of a data bit, as arithmetic modulo the width of `ACC` (R85). -/
theorem shiftIn_eq_ofNat (acc : Sample24) (d : Bool) : shiftIn acc d = BitVec.ofNat 24 (2 * acc.toNat + d.toNat) :=
  BitVec.eq_of_toNat_eq ((toNat_shiftIn acc d).trans (BitVec.toNat_ofNat _ _).symm)

theorem seqHigh_samples (hi : s.xport.seq.pIdx.toNat ≤ 24) :
    seqHigh s =
      drive false
        { sampled s with xport.acc := shiftIn s.xport.acc s.pins.dout, xport.seq.phase := .low } := by
  simp only [seqHigh, if_pos hi]

theorem seqHigh_falls (hi : 24 < s.xport.seq.pIdx.toNat) :
    seqHigh s = drive false { s with xport.seq.phase := .low } := by
  simp only [seqHigh, if_neg (Nat.not_le.2 hi)]

theorem seqLow_rises (hi : s.xport.seq.pIdx.toNat < s.xport.seq.nPulse.toNat) :
    seqLow s = drive true { s with xport.seq.pIdx := s.xport.seq.pIdx + 1, xport.seq.phase := .high } := by
  simp only [seqLow, if_pos hi]

theorem seqLow_finishes (hi : s.xport.seq.pIdx = s.xport.seq.nPulse) :
    seqLow s =
      { s with xport.raw := rawOf s.xport.acc, xport.seq.done := true, xport.seq.phase := .done } := by
  have hlt : ¬ s.xport.seq.pIdx.toNat < s.xport.seq.nPulse.toNat := by rw [hi]; omega
  simp only [seqLow, if_neg hlt, if_pos hi]

end

/-! ### `ArmingInitialisesTheSession` -/

/-- Settles O26, variant by variant. -/
theorem armingInitialisesTheSession : Obligations.ArmingInitialisesTheSession := by
  intro s j he hr
  rw [tick_engine_arm hr he]
  constructor
  · intro ht
    simp only [engineArm, arm, ht]
    rfl
  · intro ht
    simp only [engineArm, arm, ht]
    rfl

/-! ### `SequencerSteps` -/

/-- Settles O27, phase by phase. -/
theorem sequencerSteps : Obligations.SequencerSteps := by
  refine ⟨fun _ => tick_seq_disabled, fun s hr ht ha => ?_⟩
  rw [tick_seq s hr ht]
  refine ⟨fun hp => ?_, fun hp => ?_, fun hp => ?_, seqStep_rests ha⟩
  · rw [seqStep_waitReady ha hp]
    exact ⟨seqWaitReady_rises, seqWaitReady_looks⟩
  · rw [seqStep_high ha hp, ← shiftIn_eq_ofNat]
    exact ⟨seqHigh_samples, seqHigh_falls⟩
  · rw [seqStep_low ha hp]
    exact ⟨seqLow_rises, seqLow_finishes⟩

/-! ### `MonitorPoll`, `ReadyPoll`, `TransferIsAwaitedAndDecoded` -/

/-- Settles O28: completion is tested first, then the deadline. (`monitorPoll` alone is the model's step.) -/
theorem monitorPoll_obligation : Obligations.MonitorPoll := by
  intro s j he hr
  rw [tick_engine_watch hr he]
  refine ⟨fun hd d hraw => ?_, monitorPoll_timesOut, monitorPoll_waits⟩
  rw [monitorPoll_completes hd]
  exact sessionCompleted_rawOf hraw

/-- Settles O29: the budget is tested first, then the level of `DOUT`. (`readyPoll` alone is the model's step.) -/
theorem readyPoll_obligation : Obligations.ReadyPoll := by
  intro s j he hr
  rw [tick_engine_poll hr he]
  exact ⟨readyPoll_issues, readyPoll_goesOn, readyPoll_timesOut⟩

/-- Settles O30: the engine waits until no transfer is in progress. -/
theorem transferIsAwaitedAndDecoded : Obligations.TransferIsAwaitedAndDecoded := by
  intro s j he hr
  rw [tick_engine_transfer hr he]
  exact ⟨transferWait_waits, transferWait_completes⟩

/-! ### `OnlyItsBoundOrResetEndsASession` -/

/-- No step of another agent, and no input but the assertion of reset, moves the engine (R48, R100). -/
theorem tick_eng {e : Event} (hengine : e ≠ .engine) (hrst : e ≠ .rst true) (s : State) : (tick e s).eng = s.eng := by
  cases e with
  | dout b | time ms => rfl
  | present w => rw [tick_present, present]; split <;> rfl
  | rst b =>
    cases b
    · rfl
    · exact absurd rfl hrst
  | engine => exact absurd rfl hengine
  | seq => simp only [tick]; split <;> simp
  | xfer => simp only [tick]; split <;> simp

/-- Settles O31: only the engine's own step can end a session, and the steps short of its end stay in it. -/
theorem onlyItsBoundOrResetEndsASession : Obligations.OnlyItsBoundOrResetEndsASession := by
  intro s e hin hout
  by_cases hrst : e = .rst true
  · exact .inl hrst
  by_cases hengine : e = .engine
  case neg => rw [tick_eng hengine hrst, hin] at hout; cases hout
  subst hengine
  have hr : s.pins.rst = false := by
    cases hr : s.pins.rst
    · rfl
    · rw [tick, if_pos hr, hin] at hout; cases hout
  refine .inr ⟨rfl, ?_⟩
  cases he : s.eng with
  | idle | arm j => rw [he] at hin; cases hin
  | watch j =>
    rw [tick_engine_watch hr he] at hout
    by_contra hbound
    obtain ⟨hd, ht⟩ := not_or.1 hbound
    rw [monitorPoll_waits (Bool.eq_false_of_not_eq_true hd) (Nat.not_le.1 ht), hin] at hout
    cases hout
  | poll j =>
    rw [tick_engine_poll hr he] at hout
    by_contra hbound
    have hb := Nat.not_le.1 hbound
    by_cases hd : s.pins.dout = s.params.readyLevel
    · rw [readyPoll_issues hb hd] at hout; cases hout
    · rw [readyPoll_goesOn hb hd] at hout
      exact Bool.noConfusion (hin.symm.trans hout)
  | transfer j =>
    rw [tick_engine_transfer hr he] at hout
    by_contra hbound
    rw [transferWait_waits hbound, hin] at hout
    cases hout

end Sys2Proof.Machine
end

section
/-! PROOFS. The family `40_transport.md`, third part: the two variants agree (R99). What a reading command leaves in the
conditioner and as its result, when every one of its sessions completes, depends on the samples and on the conditioner
registers alone. -/

namespace Sys2Proof.Machine

/-! ### The outcome of a completed reading command -/

/-- The conditioner registers after a reading command that has read the samples `xs` (R113, R121 to R126). -/
def condAfter (i : Instr) (xs : List Int) (c : ConditionerRegs) : ConditionerRegs :=
  match i with
  | .readLowpass | .getValue | .getUnits =>
    { c with filtered := filterStep c.filtered c.tc (widen (xs.getLastD 0)) }
  | .tare n => { c with offset := mean xs.sum n }
  | .setGain _ => { c with filtered := widen (xs.getLastD 0) }
  | _ => c

/-- The result of a reading command that has read the samples `xs` and left the conditioner registers `c` (R121 to
R126). -/
def resultAfter (i : Instr) (xs : List Int) (c : ConditionerRegs) : Option Rat :=
  match i with
  | .read => some (widen (xs.getLastD 0))
  | .readAverage n => some (mean xs.sum n)
  | .readLowpass => some c.filtered
  | .getValue => some (tared c.filtered c.offset)
  | .getUnits => some (scaled c.filtered c.offset c.scale)
  | _ => none

/-- The outcome of a reading command, begun in `s`, that made one session per answer. -/
structure CompletedRead (i : Instr) (s : State) (as : List Answer) (rest : List Event) (t : State) : Prop
    extends AfterSessions (withGain i s) as rest t where
  cond : t.cond = condAfter i (as.map Answer.value) s.cond
  result : t.port.result = resultAfter i (as.map Answer.value) t.cond
  status : t.port.status = statusOk

section

variable {s : State} {as : List Answer} {rest : List Event}

/-- A command completed by the use of its last sample takes none of the events that follow its script. -/
theorem CompletedRead.of_complete {i : Instr} {u : State} {v : Option Rat}
    (hrun : exec i s = .next (runWhile State.running rest (complete v u)))
    (hframe : SessionsFrame (withGain i s) as u) (hcond : u.cond = condAfter i (as.map Answer.value) s.cond)
    (hresult : v = resultAfter i (as.map Answer.value) u.cond) :
    ∃ t, exec i s = .next t ∧ CompletedRead i s as rest t := by
  rw [runWhile_complete] at hrun
  exact ⟨_, hrun, hframe.after v rest, hcond, hresult, rfl⟩

/-! ### The commands with one session -/

theorem read_completes {a : Answer} (h : Scripted s [a] rest) :
    ∃ t, exec .read s = .next t ∧ CompletedRead .read s [a] rest t := by
  obtain ⟨u, hrun, hc, -, hframe⟩ := run_single h .read
  exact CompletedRead.of_complete (congrArg _ hrun) hframe hc rfl

/-- The write of `FILTERED` is outside the frame of a session. -/
theorem SessionsFrame.filterSample {u : State} (h : SessionsFrame s as u) (x : Int) :
    SessionsFrame s as (filterSample x u) :=
  h.congr rfl rfl rfl rfl rfl rfl rfl rfl rfl rfl

theorem filterSample_cond_of_eq {u : State} (h : u.cond = s.cond) (x : Int) :
    (filterSample x u).cond =
      { s.cond with filtered := filterStep s.cond.filtered s.cond.tc (widen x) } := by
  rw [filterSample_cond, h]

theorem readLowpass_completes {a : Answer} (h : Scripted s [a] rest) :
    ∃ t, exec .readLowpass s = .next t ∧ CompletedRead .readLowpass s [a] rest t := by
  obtain ⟨u, hrun, hc, -, hframe⟩ := run_single h .lowpass
  exact CompletedRead.of_complete (congrArg _ hrun) (hframe.filterSample a.value)
    (filterSample_cond_of_eq hc a.value) rfl

theorem getValue_completes {a : Answer} (h : Scripted s [a] rest) :
    ∃ t, exec .getValue s = .next t ∧ CompletedRead .getValue s [a] rest t := by
  obtain ⟨u, hrun, hc, -, hframe⟩ := run_single h .value
  exact CompletedRead.of_complete (congrArg _ hrun) (hframe.filterSample a.value)
    (filterSample_cond_of_eq hc a.value) rfl

theorem getUnits_completes {a : Answer} (h : Scripted s [a] rest) (hscale : s.cond.scale ≠ 0) :
    ∃ t, exec .getUnits s = .next t ∧ CompletedRead .getUnits s [a] rest t := by
  obtain ⟨u, hrun, hc, -, hframe⟩ := run_single h .units
  exact CompletedRead.of_complete (congrArg _ ((if_neg hscale).trans hrun)) (hframe.filterSample a.value)
    (filterSample_cond_of_eq hc a.value) rfl

/-! ### The commands that sum their samples -/

/-- A summing command, from the clearing of its working registers to the use of its last sample `x` (R122, R126). -/
theorem run_summed (h : Scripted s as rest) {j : Job} (hj : j.sums = true) (hne : as ≠ [])
    (hlt : as.length < 2 ^ 32) :
    ∃ (u : State) (x : Int),
      runCommand (readRaw j { s with port.sum := 0, port.cnt := BitVec.ofNat 32 as.length }) =
        runWhile State.running rest (useSample j x u) ∧
      SessionsFrame s as u ∧ u.cond = s.cond ∧ u.port.cnt = 1 ∧ u.port.sum + x = sumOf as := by
  have hscript : Scripted { s with port.sum := 0, port.cnt := BitVec.ofNat 32 as.length } as rest :=
    ⟨h.events, h.inBudget, h.rst, h.power⟩
  obtain ⟨u, hrun, hframe, hc, hport⟩ := run_several hscript hj (toNat_ofNat_unsigned _ hlt) hne rfl
  refine ⟨u, _, hrun, hframe.congr rfl rfl rfl rfl rfl rfl rfl rfl rfl rfl, hc, by rw [hport], ?_⟩
  rw [hport]
  exact sumOf_dropLast hne

/-- The number of reads still to make is not 0 when a summing command begins (R122, R126). -/
theorem ofNat_length_ne_zero (hne : as ≠ []) (hlt : as.length < 2 ^ 32) : BitVec.ofNat 32 as.length ≠ 0 := by
  intro h0
  have hlen : as.length = 0 := (toNat_ofNat_unsigned _ hlt).symm.trans (congrArg BitVec.toNat h0)
  exact hne (List.length_eq_zero_iff.1 hlen)

theorem averageLoop_last (n : Nat) (x : Int) {u : State} (hc : u.port.cnt = 1) :
    averageLoop n (addSample x u) = complete (some (mean (u.port.sum + x) n)) (addSample x u) := by
  simp [averageLoop, hc]

theorem tareLoop_last (n : Nat) (x : Int) {u : State} (hc : u.port.cnt = 1) :
    tareLoop n (addSample x u) =
      complete none { addSample x u with cond.offset := mean (u.port.sum + x) n } := by
  simp [tareLoop, hc]

theorem readAverage_completes (h : Scripted s as rest) (hne : as ≠ []) (hlt : as.length < 2 ^ 32) :
    ∃ t, exec (.readAverage as.length) s = .next t ∧ CompletedRead (.readAverage as.length) s as rest t := by
  obtain ⟨u, x, hrun, hframe, hc, hcnt, hsum⟩ := run_summed h (j := .average as.length) rfl hne hlt
  have hexec : exec (.readAverage as.length) s = .next (runWhile State.running rest
      (complete (some (mean (u.port.sum + x) as.length)) (addSample x u))) := by
    rw [← averageLoop_last _ _ hcnt]
    refine congrArg _ ((if_neg (mt List.length_eq_zero_iff.1 hne)).trans (Eq.trans ?_ hrun))
    rw [averageLoop, if_neg (ofNat_length_ne_zero hne hlt)]
  refine CompletedRead.of_complete hexec (hframe.congr rfl rfl rfl rfl rfl rfl rfl rfl rfl rfl) hc ?_
  rw [hsum]
  rfl

theorem tare_completes (h : Scripted s as rest) (hne : as ≠ []) (hlt : as.length < 2 ^ 32) :
    ∃ t, exec (.tare as.length) s = .next t ∧ CompletedRead (.tare as.length) s as rest t := by
  obtain ⟨u, x, hrun, hframe, hc, hcnt, hsum⟩ := run_summed h (j := .tare as.length) rfl hne hlt
  have hexec : exec (.tare as.length) s = .next (runWhile State.running rest
      (complete none { addSample x u with cond.offset := mean (u.port.sum + x) as.length })) := by
    rw [← tareLoop_last _ _ hcnt]
    refine congrArg _ ((if_neg (mt List.length_eq_zero_iff.1 hne)).trans (Eq.trans ?_ hrun))
    rw [tareLoop, if_neg (ofNat_length_ne_zero hne hlt)]
  refine CompletedRead.of_complete hexec (hframe.congr rfl rfl rfl rfl rfl rfl rfl rfl rfl rfl) ?_ rfl
  rw [hsum]
  exact congrArg (fun c => { c with offset := mean (sumOf as) as.length }) hc

/-! ### `SET_GAIN` -/

/-- The discard read of `SET_GAIN`, up to the start of its seed read (R115). -/
theorem run_discard {a : Answer} {es : List Event} (hevents : s.events = session s.params s.xport.gainSel a ++ es)
    (hr : s.pins.rst = false) (hp : s.ctl.power = .up) (hb : a.inBudget s.params) :
    ∃ u, runCommand (readRaw .discard s) = runWhile State.running es u ∧ SessionsFrame s [a] u ∧
      u.eng = .arm .seed ∧ u.cond = s.cond := by
  have hframe := SessionsFrame.one a .discard { s with eng := .arm .discard }
  have hrun := run_session (s := { s with eng := .arm .discard }) (j := .discard) rfl hr a hb es
  have hseed : useSample .discard a.value (sessionDone a .discard { s with eng := .arm .discard }) =
      { sessionDone a .discard { s with eng := .arm .discard } with eng := .arm .seed } :=
    readRaw_up _ _ (by simpa using hp)
  rw [hseed] at hrun
  refine ⟨{ sessionDone a .discard { s with eng := .arm .discard } with eng := .arm .seed }, ?_,
    hframe.congr rfl rfl rfl rfl rfl rfl rfl rfl rfl rfl, rfl, sessionDone_cond a .discard _⟩
  rw [readRaw_up _ _ hp, ← hrun]
  exact congrArg (fun l => runWhile State.running l { s with eng := .arm .discard }) hevents

/-- The two sessions of `SET_GAIN`, with the mapping already updated (R115). -/
theorem run_seed {a b : Answer} (h : Scripted s [a, b] rest) :
    ∃ u, runCommand (readRaw .discard s) = runWhile State.running rest (useSample .seed b.value u) ∧
      SessionsFrame s [a, b] u ∧ u.cond = s.cond := by
  obtain ⟨u, hrun, hframe, he, hc⟩ := run_discard (a := a)
    (es := session s.params s.xport.gainSel b ++ rest) (by simpa using h.events) h.rst h.power (h.inBudget a (by simp))
  have hseed := run_session he (by rw [hframe.pins]; exact h.rst) b
    (by rw [hframe.params]; exact h.inBudget b (by simp)) rest
  rw [hframe.params, hframe.gainSel (by simp)] at hseed
  exact ⟨sessionDone b .seed u, hrun.trans hseed, hframe.append (SessionsFrame.one b .seed u) (by simp) (by simp),
    (sessionDone_cond b .seed u).trans hc⟩

theorem setGain_completes {g : Nat} {a b : Answer} (h : Scripted (withGain (.setGain g) s) [a, b] rest) :
    ∃ t, exec (.setGain g) s = .next t ∧ CompletedRead (.setGain g) s [a, b] rest t := by
  obtain ⟨u, hrun, hframe, hc⟩ := run_seed h
  rw [← selectGain_eq] at hrun
  have hframe' : SessionsFrame (withGain (.setGain g) s) [a, b] { u with cond.filtered := widen b.value } :=
    hframe.congr rfl rfl rfl rfl rfl rfl rfl rfl rfl rfl
  refine CompletedRead.of_complete (congrArg _ hrun) hframe' ?_ rfl
  rw [hc]
  rfl

/-! ### Every reading command -/

/-- A reading command whose checks pass and whose sessions all complete (R73, R120). -/
theorem exec_completes {i : Instr} (hi : readsConverter i = true) (hn : readCount i < 2 ^ 32)
    (hp : passesChecks i s) (hlen : as.length = readCount i) (h : Scripted (withGain i s) as rest) :
    ∃ t, exec i s = .next t ∧ CompletedRead i s as rest t := by
  cases i with
  | read => obtain ⟨a, rfl⟩ := List.length_eq_one_iff.1 hlen; exact read_completes h
  | readLowpass => obtain ⟨a, rfl⟩ := List.length_eq_one_iff.1 hlen; exact readLowpass_completes h
  | getValue => obtain ⟨a, rfl⟩ := List.length_eq_one_iff.1 hlen; exact getValue_completes h
  | getUnits => obtain ⟨a, rfl⟩ := List.length_eq_one_iff.1 hlen; exact getUnits_completes h hp
  | readAverage n =>
    cases hlen
    exact readAverage_completes h (mt List.length_eq_zero_iff.2 hp) hn
  | tare n =>
    cases hlen
    exact tare_completes h (mt List.length_eq_zero_iff.2 hp) hn
  | setGain g => obtain ⟨a, b, rfl⟩ := List.length_eq_two.1 hlen; exact setGain_completes h
  | _ => cases hi

/-- A reading command that goes on makes at least one session. -/
theorem readCount_pos {i : Instr} (hi : readsConverter i = true) (hp : passesChecks i s) : 0 < readCount i := by
  cases i with
  | readAverage n | tare n => exact Nat.pos_of_ne_zero hp
  | read | readLowpass | getValue | getUnits => exact Nat.one_pos
  | setGain g => exact Nat.two_pos
  | _ => cases hi

end

/-! ### `VariantsAgree` -/

/-- The samples are those of the data words, whatever else the converter showed (R62). -/
theorem map_value_eq {as bs : List Answer} (h : as.map Answer.data = bs.map Answer.data) :
    as.map Answer.value = bs.map Answer.value := by
  have hsamples := congrArg (List.map sampleOf) h
  rwa [List.map_map, List.map_map] at hsamples

/-- After completed sessions `RAW` holds the last data word, in either variant (R80, R88, R97). -/
theorem AfterSessions.raw {s t : State} {as : List Answer} {rest : List Event} (h : AfterSessions s as rest t)
    (hne : as ≠ []) : t.xport.raw = rawOf ((as.map Answer.data).getLastD 0) := by
  obtain ⟨last, hl⟩ := Option.ne_none_iff_exists'.1 (mt List.getLast?_eq_none_iff.1 hne)
  obtain ⟨-, -, hraw, -⟩ := h.transport last hl
  rw [hraw, List.getLastD_eq_getLast?, List.getLast?_map, hl]
  rfl

/-- After completed sessions the mapping is that of the first one. -/
theorem AfterSessions.gainSel {s t : State} {as : List Answer} {rest : List Event} (h : AfterSessions s as rest t)
    (hne : as ≠ []) : t.xport.gainSel = s.xport.gainSel := by
  obtain ⟨last, hl⟩ := Option.ne_none_iff_exists'.1 (mt List.getLast?_eq_none_iff.1 hne)
  exact (h.transport last hl).1

/-- Settles O58: each variant leaves what the samples and the conditioner registers determine, and makes one frame per
session. -/
theorem variantsAgree : Obligations.VariantsAgree := by
  intro i s u as bs rest rest' hi hn hp _ _ hcond hgain hlen hdata hs hu
  have hlen' : as.length = bs.length := by simpa using congrArg List.length hdata
  have hpos := readCount_pos hi hp
  have hne : as ≠ [] := List.ne_nil_of_length_pos (hlen ▸ hpos)
  have hne' : bs ≠ [] := List.ne_nil_of_length_pos (hlen' ▸ hlen ▸ hpos)
  have hpu : passesChecks i u := by
    cases i with
    | getUnits => exact fun hzero => hp (hcond ▸ hzero)
    | _ => exact hp
  obtain ⟨t, hexec, ht⟩ := exec_completes hi hn hp hlen hs
  obtain ⟨v, hexec', hv⟩ := exec_completes hi hn hpu (hlen'.symm.trans hlen) hu
  obtain ⟨seg, hlink, hrise⟩ := ht.frames
  obtain ⟨seg', hlink', hrise'⟩ := hv.frames
  have hstart : (withGain i s).xport.gainSel = (withGain i u).xport.gainSel := by
    simp only [withGain, hgain]
  have hc : t.cond = v.cond := by rw [ht.cond, hv.cond, hcond, map_value_eq hdata]
  refine ⟨t, v, seg, seg', hexec, hexec', hc, ?_, ht.status, hv.status, ?_, ?_, hlink, hlink', ?_⟩
  · rw [ht.result, hv.result, hc, map_value_eq hdata]
  · rw [ht.toAfterSessions.raw hne, hv.toAfterSessions.raw hne', hdata]
  · rw [ht.toAfterSessions.gainSel hne, hv.toAfterSessions.gainSel hne', hstart]
  · rw [hrise, hrise', hlen', hstart]

end Sys2Proof.Machine
end

section
/-! PROOFS. The family `41_decode_gain.md`, first part: the sample (R62, R110, R112) and the two sessions of `SET_GAIN`
(R113 to R115). The decoder reads the data bits as a two's complement number, so the facts about a sample are those about
`BitVec.toInt` and `BitVec.ofInt`. -/

namespace Sys2Proof.Machine

/-! ### `DecodeGivesTheSignedSample` -/

/-- The two halves of the range of a data pattern are its sign extension (R110). -/
theorem sampleOf_eq_toInt (u : Sample24) : sampleOf u = u.toInt := by
  have hsign : 2 * u.toNat < 2 ^ 24 ↔ u.toNat < 2 ^ 23 := by omega
  simp only [sampleOf, BitVec.toInt_eq_toNat_cond, hsign]
  norm_cast

/-- A word with the control bit set is no sample (R111). -/
theorem decodeSample_control {raw : RawWord} (h : rawNr raw = true) : decodeSample raw = .error .noResponse :=
  if_pos h

/-- A word with the control bit clear is the sample of its data bits (R110). -/
theorem decodeSample_data {raw : RawWord} (h : rawNr raw = false) : decodeSample raw = .ok (sampleOf (rawData raw)) :=
  if_neg (Bool.eq_false_iff.1 h)

/-- Settles O10: the control bit decides, and the data bits are read in two's complement. -/
theorem decodeGivesTheSignedSample : Obligations.DecodeGivesTheSignedSample := by
  intro raw
  refine ⟨decodeSample_control, ?_, by decide, by decide, by decide, by decide⟩
  rintro hnr u rfl
  have hvalue : decodeSample raw = .ok (sampleOf (rawData raw)) := decodeSample_data hnr
  obtain ⟨hlow, hhigh⟩ := sampleOf_range (rawData raw)
  rw [sampleOf_eq_toInt] at hlow hhigh
  exact ⟨hvalue, hvalue.trans (congrArg _ (sampleOf_eq_toInt _)), hlow, Int.le_sub_one_of_lt hhigh⟩

/-! ### `SampleRoundTrip` -/

theorem encodeSample_sampleOf (u : Sample24) : encodeSample (sampleOf u) = u := by
  rw [sampleOf_eq_toInt, encodeSample, BitVec.ofInt_toInt]

theorem sampleOf_encodeSample {x : Int} (hlow : -(2 ^ 23) ≤ x) (hhigh : x < 2 ^ 23) :
    sampleOf (encodeSample x) = x := by
  rw [sampleOf_eq_toInt, encodeSample, BitVec.toInt_ofInt_eq_self (by decide) hlow hhigh]

theorem toNat_encodeSample (x : Int) : ((encodeSample x).toNat : Int) = x % 2 ^ 24 := by
  rw [encodeSample, BitVec.toNat_ofInt]
  exact Int.toNat_of_nonneg (Int.emod_nonneg x (by decide))

theorem sampleOf_injective : Function.Injective sampleOf :=
  Function.LeftInverse.injective encodeSample_sampleOf

/-- Settles O11: `Decode` at `NR` = 0 and `Encode` are inverse to each other. -/
theorem sampleRoundTrip : Obligations.SampleRoundTrip := by
  refine ⟨fun u => ?_, fun x hlow hhigh => ?_, fun u v h => ?_⟩
  · obtain ⟨hlow, hhigh⟩ := sampleOf_range u
    exact ⟨sampleOf u, decodeSample_rawOf u, hlow, Int.le_sub_one_of_lt hhigh, encodeSample_sampleOf u,
      toNat_encodeSample _⟩
  · rw [decodeSample_rawOf, sampleOf_encodeSample hlow (Int.lt_of_le_sub_one hhigh)]
  · rw [decodeSample_rawOf, decodeSample_rawOf] at h
    exact sampleOf_injective (Except.ok.inj h)

/-! ### `SetGainSelectsAndSeeds` -/

/-- The two sessions of `SET_GAIN` leave the host registers to its completion (R73, R115). -/
theorem run_seed_port {s : State} {a b : Answer} {rest : List Event} (h : Scripted s [a, b] rest) :
    ∃ u, runCommand (readRaw .discard s) = runWhile State.running rest (seedDone b.value u) ∧ u.port = s.port := by
  have hfirst : Scripted s [a] (session s.params s.xport.gainSel b ++ rest) :=
    ⟨by simpa using h.events, fun c hc => h.inBudget c (by simp_all), h.rst, h.power⟩
  obtain ⟨u, hdiscard, -, hport, hframe⟩ := run_single hfirst .discard
  have hup : u.ctl.power = .up := by rw [hframe.control]; exact h.power
  have hseed := run_session (s := { u with eng := .arm .seed }) rfl (by rw [hframe.pins]; exact h.rst) b
    (by rw [hframe.params]; exact h.inBudget b (by simp)) rest
  rw [← readRaw_up .seed u hup, readRaw_params, readRaw_xport, hframe.params, hframe.gainSel (by simp)] at hseed
  refine ⟨_, hdiscard.trans hseed, ?_⟩
  rw [sessionDone_port, readRaw_up .seed u hup]
  exact hport

/-- Settles O40: the mapping is selected before the two sessions, and `FILTERED` takes the second sample as it is. -/
theorem setGainSelectsAndSeeds : Obligations.SetGainSelectsAndSeeds := by
  intro g s a b rest h
  obtain ⟨t, hexec, hdone⟩ := setGain_completes h
  obtain ⟨u, hrun, hport⟩ := run_seed_port h
  refine ⟨t, hexec, hdone.toAfterSessions, hdone.toAfterSessions.gainSel (by simp), hdone.cond, ?_⟩
  rw [← selectGain_eq, seedDone, runWhile_complete] at hrun
  have ht : t = _ := (Host.Outcome.next.inj hexec).symm.trans hrun
  rw [ht]
  simp [hport, withGain, statusOk]

end Sys2Proof.Machine
end

section
/-! PROOFS. The family `41_decode_gain.md`, second part: `NoResponse` never arises (R111, R152). `Decode` fails on the
sentinel alone, and in a sound block a session completes with a captured word in `RAW`; every other failure has a status of its
own. -/

namespace Sys2Proof.Machine

/-! ### What does not bring `NoResponse` about -/

section

variable {s u v : State} {j : Job}

/-- Between `s` and `u` the status `NoResponse` was not brought about. -/
def NoNewNoResponse (s u : State) : Prop :=
  u.port.status = Failure.noResponse.code → s.port.status = Failure.noResponse.code

theorem NoNewNoResponse.refl (s : State) : NoNewNoResponse s s := id

/-- Only the status matters. -/
theorem NoNewNoResponse.congr (h : NoNewNoResponse s u) (hstatus : v.port.status = u.port.status) :
    NoNewNoResponse s v := fun hv => h (hstatus.symm.trans hv)

theorem noNewNoResponse_complete (s u : State) (r : Option Rat) : NoNewNoResponse s (complete r u) := nofun

theorem noNewNoResponse_underReset (s u : State) : NoNewNoResponse s (underReset u) := nofun

/-- The codes of the failures differ (R67). -/
theorem noNewNoResponse_raise (s u : State) {c : Failure} (hc : c ≠ .noResponse) : NoNewNoResponse s (raise c u) := by
  cases c with
  | noResponse => exact absurd rfl hc
  | _ => exact nofun

theorem NoNewNoResponse.readRaw (h : NoNewNoResponse s u) (j : Job) : NoNewNoResponse s (readRaw j u) := by
  rcases readRaw_cases j u with ⟨-, he⟩ | ⟨-, he⟩ <;> rw [he]
  · exact noNewNoResponse_raise s u nofun
  · exact h

theorem NoNewNoResponse.averageLoop (h : NoNewNoResponse s u) (n : Nat) : NoNewNoResponse s (averageLoop n u) := by
  unfold Machine.averageLoop
  split
  · exact noNewNoResponse_complete _ _ _
  · exact h.readRaw _

theorem NoNewNoResponse.tareLoop (h : NoNewNoResponse s u) (n : Nat) : NoNewNoResponse s (tareLoop n u) := by
  unfold Machine.tareLoop
  split
  · exact noNewNoResponse_complete _ _ _
  · exact h.readRaw _

theorem NoNewNoResponse.useSample (h : NoNewNoResponse s u) (j : Job) (x : Int) :
    NoNewNoResponse s (useSample j x u) := by
  cases j with
  | read | lowpass | value | units | seed => exact noNewNoResponse_complete _ _ _
  | discard => exact h.readRaw _
  | average n => exact (h.congr rfl : NoNewNoResponse s (addSample x u)).averageLoop n
  | tare n => exact (h.congr rfl : NoNewNoResponse s (addSample x u)).tareLoop n

/-! ### The steps of ENGINE -/

/-- A session completed with a captured word hands over its sample (R88, R97). -/
theorem NoNewNoResponse.sessionCompleted (h : NoNewNoResponse s u) {acc : Sample24} (hraw : u.xport.raw = rawOf acc) :
    NoNewNoResponse s (sessionCompleted j u) := by
  rw [sessionCompleted_rawOf hraw]
  exact h.useSample j _

theorem NoNewNoResponse.engineArm (h : NoNewNoResponse s u) : NoNewNoResponse s (engineArm j u) := by
  unfold Machine.engineArm
  split <;> exact h.congr (by simp)

theorem NoNewNoResponse.monitorPoll (h : NoNewNoResponse s u) (hs : Sound u) (he : u.eng = .watch j) :
    NoNewNoResponse s (monitorPoll j u) := by
  unfold Machine.monitorPoll
  split
  · obtain ⟨-, -, hraw⟩ := hs.sequencer_finished he ‹_›
    exact NoNewNoResponse.sessionCompleted (h.congr rfl) hraw
  · split
    · exact noNewNoResponse_raise s _ nofun
    · exact h

theorem NoNewNoResponse.readyPoll (h : NoNewNoResponse s u) : NoNewNoResponse s (readyPoll j u) := by
  unfold Machine.readyPoll
  split
  · dsimp only
    split <;> exact h.congr rfl
  · exact noNewNoResponse_raise s _ nofun

theorem NoNewNoResponse.transferWait (h : NoNewNoResponse s u) : NoNewNoResponse s (transferWait j u) := by
  unfold Machine.transferWait
  split
  · exact h
  · exact NoNewNoResponse.sessionCompleted (h.congr rfl) rfl

theorem NoNewNoResponse.engineStep (h : NoNewNoResponse s u) (hs : Sound u) : NoNewNoResponse s (engineStep u) := by
  unfold Machine.engineStep
  split
  · exact h
  · exact h.engineArm
  · exact h.monitorPoll hs ‹_›
  · exact h.readyPoll
  · exact h.transferWait

/-! ### Events and runs -/

theorem NoNewNoResponse.tick (h : NoNewNoResponse s u) (hs : Sound u) (e : Event) : NoNewNoResponse s (tick e u) := by
  cases e with
  | dout b | time ms => exact h
  | present w =>
    simp only [tick_present, present]
    split <;> exact h
  | rst b =>
    cases b
    · exact h
    · exact noNewNoResponse_underReset s u
  | engine =>
    simp only [Machine.tick]
    split
    · exact h
    · exact h.engineStep hs
  | seq =>
    simp only [Machine.tick]
    split
    · exact h.congr (by rw [seqStep_port])
    · exact h
  | xfer =>
    simp only [Machine.tick]
    split
    · exact h.congr (by rw [xferStep_port])
    · exact h

theorem NoNewNoResponse.nextEvent (h : NoNewNoResponse s u) (hs : Sound u) : NoNewNoResponse s (nextEvent u) := by
  unfold Machine.nextEvent
  split
  · exact h
  · exact h.tick hs _

theorem NoNewNoResponse.runWhile (h : NoNewNoResponse s u) (hs : Sound u) (p : State → Bool) (es : List Event) :
    NoNewNoResponse s (runWhile p es u) :=
  (runWhile_keeps p (fun v => Sound v ∧ NoNewNoResponse s v) (fun _ es ⟨hs, h⟩ => ⟨hs.setEvents es, h⟩)
    (fun e _ ⟨hs, h⟩ _ => ⟨hs.tick e, h.tick hs e⟩) es u ⟨hs, h⟩).2

theorem NoNewNoResponse.runCommand (h : NoNewNoResponse s u) (hi : Inv u) : NoNewNoResponse s (runCommand u) :=
  h.runWhile hi.sound _ _

/-- The run of a command that begins with a read in a quiet block (R120). -/
theorem NoNewNoResponse.runRead (h : NoNewNoResponse s u) (hq : Quiet u) (hj : JobSound j u) :
    NoNewNoResponse s (Machine.runCommand (Machine.readRaw j u)) :=
  (h.readRaw j).runWhile (hq.readRaw j hj) _ _

/-! ### Instructions -/

theorem Quiet.noNewNoResponse_exec {i : Instr} {t : State} (hq : Quiet u) (hb : u.port.busy = true)
    (hi : isCommand i = true) (he : exec i u = .next t) : NoNewNoResponse u t := by
  have h : NoNewNoResponse u u := NoNewNoResponse.refl u
  cases i with
  | read | readLowpass | getValue => cases he; exact h.runRead hq trivial
  | getUnits =>
    cases he
    split
    · exact noNewNoResponse_raise u _ nofun
    · exact h.runRead hq trivial
  | readAverage n =>
    cases he
    split
    · exact noNewNoResponse_raise u _ nofun
    · exact NoNewNoResponse.runCommand (NoNewNoResponse.averageLoop (by exact h) n) (hq.inv_averageLoop hb n)
  | tare n =>
    cases he
    split
    · exact noNewNoResponse_raise u _ nofun
    · exact NoNewNoResponse.runCommand (NoNewNoResponse.tareLoop (by exact h) n) (hq.inv_tareLoop hb n)
  | setGain g => cases he; exact NoNewNoResponse.runRead (h.congr (by simp)) (hq.selectGain g) trivial
  | setScale num den =>
    cases he
    split
    · exact noNewNoResponse_raise u _ nofun
    · split
      · exact noNewNoResponse_raise u _ nofun
      · exact noNewNoResponse_complete _ _ _
  | setOffset num den =>
    cases he
    split
    · exact noNewNoResponse_raise u _ nofun
    · exact noNewNoResponse_complete _ _ _
  | setTimeConstant num den =>
    cases he
    split
    · exact noNewNoResponse_raise u _ nofun
    · split
      · exact noNewNoResponse_complete _ _ _
      · exact noNewNoResponse_raise u _ nofun
  | getTimeConstant | powerDown | powerUp => cases he; exact noNewNoResponse_complete _ _ _
  | txpat1 | txpat2 | txpat3 => cases hi

/-- In a sound block the issue of a transfer that is already issued changes nothing (R96). -/
theorem Sound.issueTransfer_eq (hs : Sound u) {tx : Vector Byte 7} {g : GainSel}
    (hx : u.xport.xfer = some { tx := tx, slot := 0 }) (hp : patternWord tx = patternWord (txpat g)) :
    issueTransfer (txpat g) u = u := by
  have htx : tx = txpat u.xport.gainSel := hs.xfer_tx hx
  have hg : u.xport.gainSel = g := patternWord_txpat_inj (htx ▸ hp)
  rw [← hg, ← htx]
  unfold issueTransfer
  rw [← hx]

theorem Inv.noNewNoResponse_take {t : State} (h : Inv u) {c : Code} {i : Instr} (hf : fetch u = some c)
    (hd : decode c = .ok i) (he : exec i (take c u) = .next t) : NoNewNoResponse u t := by
  cases c with
  | command w =>
    exact (h.quiet_accept (fetch_command_not_busy hf)).noNewNoResponse_exec rfl (decodeCommand_isCommand hd) he
  | pattern p =>
    obtain ⟨tx, hx, rfl⟩ := fetch_pattern_issued hf
    obtain ⟨g, rfl, hp⟩ := decodePattern_patternInstr hd
    rw [exec_patternInstr] at he
    rw [transferPattern_next he, take, h.sound.issueTransfer_eq hx hp]
    exact (NoNewNoResponse.refl u).runWhile h.sound _ _

theorem Inv.noNewNoResponse_reject (h : Inv u) (c : Code) : NoNewNoResponse u (Machine.reject c u) := by
  cases c with
  | command w => exact noNewNoResponse_raise u _ nofun
  | pattern p => exact (NoNewNoResponse.refl u).nextEvent h.sound

end

/-! ### `NoResponseNeverArises` -/

/-- Settles O53, along the branches of `step`: reset, an instruction, a rejected code, the next event. -/
theorem noResponseNeverArises : Obligations.NoResponseNeverArises := by
  intro s t h hs
  show NoNewNoResponse s t
  unfold step at hs
  split at hs
  · cases hs; exact (noNewNoResponse_underReset s s).nextEvent (sound_underReset s)
  · split at hs
    · split at hs
      · exact h.noNewNoResponse_take ‹_› ‹_› hs
      · cases hs; exact h.noNewNoResponse_reject _
    · cases hs; exact (NoNewNoResponse.refl s).nextEvent h.sound

end Sys2Proof.Machine
end

section
/-! PROOFS. The family `42_read_ops.md`, first part: the filter step (R128) and the scaled reading (R129), in the exact
arithmetic of R7. One fact carries the laws of the filter: a step takes the distance to the input to `1 - TC` of itself. -/

namespace Sys2Proof.Machine

/-! ### `FilterStepLaws` -/

theorem filterStep_eq (f tc v : Rat) : filterStep f tc v = f + tc * (v - f) := rfl

theorem filterStep_eq_weighted (f tc v : Rat) : filterStep f tc v = (1 - tc) * f + tc * v := by
  rw [filterStep_eq]; ring

theorem sub_filterStep (f tc v : Rat) : v - filterStep f tc v = (1 - tc) * (v - f) := by
  rw [filterStep_eq]; ring

theorem sub_iterate_filterStep (f tc v : Rat) (k : Nat) :
    v - (fun x => filterStep x tc v)^[k] f = (1 - tc) ^ k * (v - f) := by
  induction k with
  | zero => rw [Function.iterate_zero_apply, pow_zero, one_mul]
  | succ k ih => rw [Function.iterate_succ_apply', sub_filterStep, ih, pow_succ', mul_assoc]

/-- With a weight inside (0, 1) the step stops short of the input, on whichever side of it the filter stands. -/
theorem filterStep_between {f tc v : Rat} (h0 : 0 < tc) (h1 : tc < 1) (hne : f ≠ v) :
    min f v < filterStep f tc v ∧ filterStep f tc v < max f v := by
  have hdist := sub_filterStep f tc v
  have hstep : filterStep f tc v - f = tc * (v - f) := by rw [filterStep_eq]; ring
  have h1' : 0 < 1 - tc := sub_pos.2 h1
  rcases lt_or_gt_of_ne hne with hlt | hgt
  · rw [min_eq_left hlt.le, max_eq_right hlt.le]
    exact ⟨sub_pos.1 (hstep ▸ mul_pos h0 (sub_pos.2 hlt)), sub_pos.1 (hdist ▸ mul_pos h1' (sub_pos.2 hlt))⟩
  · rw [min_eq_right hgt.le, max_eq_left hgt.le]
    exact ⟨sub_neg.1 (hdist ▸ mul_neg_of_pos_of_neg h1' (sub_neg.2 hgt)),
      sub_neg.1 (hstep ▸ mul_neg_of_pos_of_neg h0 (sub_neg.2 hgt))⟩

theorem tendsto_sub_iterate_filterStep {tc : Rat} (h0 : 0 < tc) (h1 : tc < 1) (f v : Rat) :
    Filter.Tendsto (fun k : Nat => v - (fun x => filterStep x tc v)^[k] f) Filter.atTop (nhds 0) := by
  simp only [sub_iterate_filterStep]
  have hpow := tendsto_pow_atTop_nhds_zero_of_lt_one (sub_nonneg.2 h1.le) (sub_lt_self 1 h0)
  simpa using hpow.mul_const (v - f)

/-- Settles O15: each law is the one about the distance to the input, for one step or for `k`. -/
theorem filterStepLaws : Obligations.FilterStepLaws := by
  intro f tc v h0 h1
  refine ⟨filterStep_eq_weighted f tc v, ?_, fun hne => ⟨filterStep_between h0 h1 hne, sub_filterStep f tc v⟩,
    sub_iterate_filterStep f tc v, tendsto_sub_iterate_filterStep h0 h1 f v, fun k hk => ?_⟩
  · rintro rfl
    rw [filterStep_eq, sub_self, mul_zero, add_zero]
  · have hdist := sub_iterate_filterStep f tc v k
    rw [hk, sub_self] at hdist
    have hpow : (1 - tc) ^ k ≠ 0 := pow_ne_zero k (sub_pos.2 h1).ne'
    exact (sub_eq_zero.1 ((mul_eq_zero.1 hdist.symm).resolve_left hpow)).symm

/-! ### `UnitsAreInverseInScaleAndAffineInTheInput` -/

theorem scaled_eq (filtered offset scale : Rat) : scaled filtered offset scale = (filtered - offset) / scale := rfl

/-- Settles O16: the laws of division, and a result that no step of `GET_UNITS` takes from the mapping. -/
theorem unitsAreInverseInScaleAndAffineInTheInput : Obligations.UnitsAreInverseInScaleAndAffineInTheInput := by
  refine ⟨fun filtered offset scale c => ?_, fun f tc offset scale x y => ?_, fun filtered offset => ?_,
    fun g x s => rfl⟩
  · rw [scaled_eq, scaled_eq, mul_comm c, div_mul_eq_div_div]
  · have hslope : filterStep f tc (widen x) - filterStep f tc (widen y) = tc * (x - y) := by
      rw [filterStep_eq, filterStep_eq]
      show f + tc * (x - f) - (f + tc * (y - f)) = tc * (x - y)
      ring
    rw [scaled_eq, scaled_eq, ← sub_div, sub_sub_sub_cancel_right, hslope, mul_div_right_comm]
  · exact div_one _

end Sys2Proof.Machine
end

section
/-! PROOFS. The family `42_read_ops.md`, second part: the results of the read commands along a script of sessions (R121 to
R126). The runs up to the use of the last sample are those of Laws/Commands.lean; what is added is what a run leaves in the
host registers. -/

namespace Sys2Proof.Machine

section

variable {s : State} {as : List Answer} {rest : List Event}

/-! ### `ReadReturnsTheSample` -/

/-- Settles O34: the sample of the one session is the result, and its range is that of every sample. -/
theorem readReturnsTheSample : Obligations.ReadReturnsTheSample := by
  intro s a rest h
  obtain ⟨u, hrun, hc, hport, hframe⟩ := run_single h .read
  obtain ⟨hlow, hhigh⟩ := sampleOf_range a.data
  have hdone : useSample .read a.value u = complete (some (widen a.value)) u := rfl
  rw [hdone, runWhile_complete] at hrun
  refine ⟨_, congrArg Host.Outcome.next hrun, hframe.after _ rest, hc, ?_, hlow, Int.le_sub_one_of_lt hhigh⟩
  rw [← hport]
  rfl

/-! ### The commands that step the filter -/

/-- A command that steps the filter by its one sample and returns `r` of the conditioner registers it leaves (R123 to
R125). -/
theorem run_filtered {a : Answer} (h : Scripted s [a] rest) {j : Job} {r : ConditionerRegs → Rat}
    (hj : ∀ u, useSample j a.value u = complete (some (r (filterSample a.value u).cond)) (filterSample a.value u))
    {f : Rat} (hf : f = s.cond.filtered + s.cond.tc * (a.value - s.cond.filtered)) :
    ∃ t, runCommand (readRaw j s) = t ∧ AfterSessions s [a] rest t ∧ t.cond = { s.cond with filtered := f } ∧
      t.port = { s.port with result := some (r { s.cond with filtered := f }), status := 0x00, busy := false } := by
  obtain ⟨u, hrun, hc, hport, hframe⟩ := run_single h j
  have hcond : (filterSample a.value u).cond = { s.cond with filtered := f } := by
    rw [filterSample_cond_of_eq hc, hf]
    rfl
  rw [hj, runWhile_complete] at hrun
  refine ⟨_, hrun, (hframe.filterSample a.value).after _ rest, hcond, ?_⟩
  rw [← hcond, ← hport]
  rfl

/-- Settles O36: the new value of `FILTERED` is the result. -/
theorem readLowpassStepsTheFilter : Obligations.ReadLowpassStepsTheFilter := by
  intro s a rest h f hf
  obtain ⟨t, hrun, ht⟩ := run_filtered h (j := .lowpass) (r := fun c => c.filtered) (fun _ => rfl) hf
  exact ⟨t, congrArg _ hrun, ht⟩

/-- Settles O37: the result is the new value of `FILTERED` less the offset. -/
theorem getValueSubtractsTheOffset : Obligations.GetValueSubtractsTheOffset := by
  intro s a rest h f hf
  obtain ⟨t, hrun, ht⟩ := run_filtered h (j := .value) (r := fun c => tared c.filtered c.offset) (fun _ => rfl) hf
  exact ⟨t, congrArg _ hrun, ht⟩

/-- Settles O38: the test of the scale lets the command go on, and the result is divided by it. -/
theorem getUnitsDividesByTheScale : Obligations.GetUnitsDividesByTheScale := by
  intro s a rest h hscale f hf
  obtain ⟨t, hrun, ht⟩ := run_filtered h (j := .units) (r := fun c => scaled c.filtered c.offset c.scale)
    (fun _ => rfl) hf
  exact ⟨t, congrArg _ ((if_neg hscale).trans hrun), ht⟩

/-! ### The commands that sum their samples -/

/-- The working registers as a summing command of `n` reads sets them (R122, R126). -/
def clearSum (n : Nat) (s : State) : State := { s with port.sum := 0, port.cnt := BitVec.ofNat 32 n }

@[simp] theorem clearSum_port (n : Nat) (s : State) :
    (clearSum n s).port = { s.port with sum := 0, cnt := BitVec.ofNat 32 n } := rfl

theorem ofNat_ne_zero_of_pos {n : Nat} (hpos : 0 < n) (hlt : n < 2 ^ 32) : BitVec.ofNat 32 n ≠ 0 := fun h0 =>
  hpos.ne' ((toNat_ofNat_unsigned n hlt).symm.trans (congrArg BitVec.toNat h0))

/-- The meaning of a `READ_AVERAGE` that has reads to make (R122). -/
theorem exec_readAverage {n : Nat} (hpos : 0 < n) (hlt : n < 2 ^ 32) (s : State) :
    exec (.readAverage n) s = .next (runCommand (readRaw (.average n) (clearSum n s))) := by
  have hloop : averageLoop n (clearSum n s) = readRaw (.average n) (clearSum n s) :=
    if_neg (ofNat_ne_zero_of_pos hpos hlt)
  rw [← hloop]
  exact congrArg _ (if_neg hpos.ne')

/-- The meaning of a `TARE` that has reads to make (R126). -/
theorem exec_tare {n : Nat} (hpos : 0 < n) (hlt : n < 2 ^ 32) (s : State) :
    exec (.tare n) s = .next (runCommand (readRaw (.tare n) (clearSum n s))) := by
  have hloop : tareLoop n (clearSum n s) = readRaw (.tare n) (clearSum n s) :=
    if_neg (ofNat_ne_zero_of_pos hpos hlt)
  rw [← hloop]
  exact congrArg _ (if_neg hpos.ne')

/-- A summing command, up to the head of its loop after the last sample: the sum is complete and no read is left. -/
theorem run_loop {n : Nat} (hpos : 0 < n) (hlt : n < 2 ^ 32) (hlen : as.length = n) (h : Scripted s as rest) {j : Job}
    (hj : j.sums = true) {loop : State → State} (hloop : ∀ x u, useSample j x u = loop (addSample x u)) :
    ∃ u : State, runCommand (readRaw j (clearSum n s)) = runWhile State.running rest (loop u) ∧
      SessionsFrame s as u ∧ u.cond = s.cond ∧ u.port = { s.port with sum := sumOf as, cnt := 0 } := by
  have hne : as ≠ [] := List.ne_nil_of_length_pos (hlen ▸ hpos)
  have hscript : Scripted (clearSum n s) as rest := ⟨h.events, h.inBudget, h.rst, h.power⟩
  have hcnt : (clearSum n s).port.cnt.toNat = as.length := (toNat_ofNat_unsigned n hlt).trans hlen.symm
  obtain ⟨u, hrun, hframe, hc, hport⟩ := run_several hscript hj hcnt hne rfl
  refine ⟨addSample (as.getLast hne).value u, ?_, hframe.congr rfl rfl rfl rfl rfl rfl rfl rfl rfl rfl, hc, ?_⟩
  · rw [hrun, hloop]
  · simp [hport, sumOf_dropLast hne]

/-- Settles O35: after the last read the result is the sum over the number of reads. -/
theorem readAverageReturnsTheMean : Obligations.ReadAverageReturnsTheMean := by
  intro n s as rest hpos hlt hlen h
  obtain ⟨u, hrun, hframe, hc, hport⟩ := run_loop hpos hlt hlen h (j := .average n) rfl (loop := averageLoop n)
    (fun _ _ => rfl)
  have hlast : averageLoop n u = complete (some (mean u.port.sum n)) u := if_pos (by rw [hport])
  rw [hlast, runWhile_complete] at hrun
  refine ⟨_, (exec_readAverage hpos hlt s).trans (congrArg _ hrun), hframe.after _ rest, hc, ?_⟩
  simp only [complete_port, hport]
  rfl

/-- Settles O39: after the last read `OFFSET` takes the sum over the number of reads. -/
theorem tareStoresTheMean : Obligations.TareStoresTheMean := by
  intro n s as rest hpos hlt hlen h
  obtain ⟨u, hrun, hframe, hc, hport⟩ := run_loop hpos hlt hlen h (j := .tare n) rfl (loop := tareLoop n)
    (fun _ _ => rfl)
  have hlast : tareLoop n u = complete none { u with cond.offset := mean u.port.sum n } := if_pos (by rw [hport])
  have hframe' : SessionsFrame s as { u with cond.offset := mean u.port.sum n } :=
    hframe.congr rfl rfl rfl rfl rfl rfl rfl rfl rfl rfl
  rw [hlast, runWhile_complete] at hrun
  refine ⟨_, (exec_tare hpos hlt s).trans (congrArg _ hrun), hframe'.after none rest, ?_, ?_⟩
  · simp only [complete_cond, hport, hc]
    rfl
  · simp only [complete_port, hport]
    rfl

end

end Sys2Proof.Machine
end

section
/-! PROOFS. The family `42_read_ops.md`, third part: the first read that fails ends its command (R127, R116). A reading
command whose first sessions complete stands at the arming of its next session with nothing written; what a silent or a cut
session does from there does not depend on which command it is. -/

namespace Sys2Proof.Machine

section

variable {s u : State} {j : Job} {as : List Answer} {rest es : List Event}

/-! ### The arming of the next session -/

/-- A command, begun in `s`, that has made one session per answer and in `u` arms the next one, for `j`. -/
structure NextArming (s : State) (as : List Answer) (j : Job) (u : State) : Prop where
  frame : (as = [] ∧ u.params = s.params ∧ u.pins = s.pins ∧ u.ctl = s.ctl ∧ u.xport = s.xport ∧ u.link = s.link) ∨
    (as ≠ [] ∧ SessionsFrame s as u)
  eng : u.eng = .arm j
  cond : u.cond = s.cond
  cmdReg : u.port.cmdReg = s.port.cmdReg

/-- The first session of a command (R120). -/
theorem run_first (h : Scripted s [] es) (j : Job) :
    ∃ u, runCommand (readRaw j s) = runWhile State.running es u ∧ NextArming s [] j u := by
  rw [readRaw_up _ _ h.power]
  exact ⟨_, congrArg (fun l => runWhile State.running l { s with eng := .arm j }) h.events,
    .inl ⟨rfl, rfl, rfl, rfl, rfl, rfl⟩, rfl, rfl, rfl⟩

/-- A later session of a summing command (R122, R126). -/
theorem run_next_summing (h : Scripted s as es) (hj : j.sums = true) {n : Nat} (hlen : as.length < n) (hlt : n < 2 ^ 32) :
    ∃ u, runCommand (readRaw j (clearSum n s)) = runWhile State.running es u ∧ NextArming s as j u := by
  obtain ⟨u, hrun, hframe, he, hc, hport⟩ := run_summing hj es as { clearSum n s with eng := .arm j } rfl h.rst h.power
    h.inBudget (hlen.trans_eq (toNat_ofNat_unsigned n hlt).symm)
  have hstart : runCommand (readRaw j (clearSum n s)) = _ :=
    (congrArg runCommand (readRaw_up j (clearSum n s) h.power)).trans
      (congrArg (fun l => runWhile State.running l { clearSum n s with eng := .arm j }) h.events)
  refine ⟨u, hstart.trans hrun, ?_, he, hc, by rw [hport]; rfl⟩
  rcases hframe with ⟨rfl, rfl⟩ | ⟨hne, hframe⟩
  · exact .inl ⟨rfl, rfl, rfl, rfl, rfl, rfl⟩
  · exact .inr ⟨hne, hframe.congr rfl rfl rfl rfl rfl rfl rfl rfl rfl rfl⟩

/-- The seed session of `SET_GAIN` (R115). -/
theorem run_next_seed {a : Answer} (h : Scripted s [a] es) :
    ∃ u, runCommand (readRaw .discard s) = runWhile State.running es u ∧ NextArming s [a] .seed u := by
  obtain ⟨u, hrun, hc, hport, hframe⟩ := run_single h .discard
  have hup : u.ctl.power = .up := by rw [hframe.control]; exact h.power
  have hseed : useSample .discard a.value u = { u with eng := .arm .seed } := readRaw_up .seed u hup
  rw [hseed] at hrun
  exact ⟨_, hrun, .inr ⟨List.cons_ne_nil _ _, hframe.congr rfl rfl rfl rfl rfl rfl rfl rfl rfl rfl⟩, rfl, hc,
    congrArg HostRegs.cmdReg hport⟩

/-- A reading command whose checks pass reaches the arming of every session it makes. -/
theorem exec_arms {i : Instr} (hi : readsConverter i = true) (hp : passesChecks i s)
    (hn : ∀ n, i = .readAverage n ∨ i = .tare n → n < 2 ^ 32) (hlen : as.length < readCount i)
    (h : Scripted (withGain i s) as es) :
    ∃ j u, exec i s = .next (runWhile State.running es u) ∧ NextArming (withGain i s) as j u := by
  have hfirst (j : Job) (has : as = []) :
      ∃ u, runCommand (readRaw j (withGain i s)) = runWhile State.running es u ∧ NextArming (withGain i s) as j u := by
    subst has
    exact run_first h j
  cases i with
  | read | readLowpass | getValue =>
    obtain ⟨u, hrun, hu⟩ := hfirst _ (List.length_eq_zero_iff.1 (Nat.lt_one_iff.1 hlen))
    exact ⟨_, u, congrArg _ hrun, hu⟩
  | getUnits =>
    obtain ⟨u, hrun, hu⟩ := hfirst .units (List.length_eq_zero_iff.1 (Nat.lt_one_iff.1 hlen))
    exact ⟨_, u, congrArg _ ((if_neg hp).trans hrun), hu⟩
  | readAverage n =>
    obtain ⟨u, hrun, hu⟩ := run_next_summing h (j := .average n) rfl hlen (hn n (.inl rfl))
    exact ⟨_, u, (exec_readAverage (Nat.zero_lt_of_lt hlen) (hn n (.inl rfl)) s).trans (congrArg _ hrun), hu⟩
  | tare n =>
    obtain ⟨u, hrun, hu⟩ := run_next_summing h (j := .tare n) rfl hlen (hn n (.inr rfl))
    exact ⟨_, u, (exec_tare (Nat.zero_lt_of_lt hlen) (hn n (.inr rfl)) s).trans (congrArg _ hrun), hu⟩
  | setGain g =>
    have hexec : exec (.setGain g) s = .next (runCommand (readRaw .discard (withGain (.setGain g) s))) :=
      congrArg (fun v => Host.Outcome.next (runCommand (readRaw .discard v))) (selectGain_eq g s)
    match as, hlen, h with
    | [], _, h =>
      obtain ⟨u, hrun, hu⟩ := run_first h .discard
      exact ⟨_, u, hexec.trans (congrArg _ hrun), hu⟩
    | [a], _, h =>
      obtain ⟨u, hrun, hu⟩ := run_next_seed h
      exact ⟨_, u, hexec.trans (congrArg _ hrun), hu⟩
  | _ => cases hi

/-! ### The session in which the converter never becomes ready -/

/-- What the sessions before the next arming have left alone, and the pulses they made (R80, R93). -/
theorem NextArming.kept (h : NextArming s as j u) :
    u.params = s.params ∧ u.xport.gainSel = s.xport.gainSel ∧
    u.pins = { s.pins with pdSck := u.pins.pdSck, dout := u.pins.dout } ∧
    (s.pins.pdSck = false → u.pins.pdSck = false) ∧
    u.ctl = { s.ctl with armed := u.ctl.armed, mon := u.ctl.mon, start := u.ctl.start } ∧
    ∃ seg, u.link = seg ++ s.link ∧ Pulses seg (as.length * (24 + extraPulses s.xport.gainSel)) false := by
  rcases h.frame with ⟨rfl, hparams, hpins, hctl, hxport, hlink⟩ | ⟨hne, hframe⟩
  · exact ⟨hparams, by rw [hxport], by rw [hpins], fun hl => by rw [hpins, hl], by rw [hctl], [], hlink,
      by simpa using Pulses.nil⟩
  · exact ⟨hframe.params, hframe.gainSel hne, by rw [hframe.pins], fun _ => by rw [hframe.pins], by rw [hframe.control],
      hframe.pulses⟩

/-- The registers of the other variant are left alone by the sessions before the next arming (R16, R19). -/
theorem NextArming.kept_pulsegen (h : NextArming s as j u) (ht : s.params.transport = .pulsegen) :
    u.xport.rx = s.xport.rx ∧ u.xport.polls = s.xport.polls ∧ u.xport.xfer = s.xport.xfer := by
  rcases h.frame with ⟨-, -, -, -, hxport, -⟩ | ⟨hne, hframe⟩
  · rw [hxport]
    exact ⟨rfl, rfl, rfl⟩
  · obtain ⟨last, hl⟩ := Option.ne_none_iff_exists'.1 (mt List.getLast?_eq_none_iff.1 hne)
    have hlast := hframe.transport last hl
    simp only [TransportAfter, ht] at hlast
    obtain ⟨-, -, -, -, hrx, hpolls, hxfer, -⟩ := hlast
    exact ⟨hrx, hpolls, hxfer⟩

theorem NextArming.kept_shiftreg (h : NextArming s as j u) (ht : s.params.transport = .shiftreg) :
    u.xport.seq = s.xport.seq ∧ u.ctl.start = s.ctl.start ∧ (as.length = 0 → u.xport.xfer = s.xport.xfer) := by
  rcases h.frame with ⟨-, -, -, hctl, hxport, -⟩ | ⟨hne, hframe⟩
  · rw [hxport, hctl]
    exact ⟨rfl, rfl, fun _ => rfl⟩
  · obtain ⟨last, hl⟩ := Option.ne_none_iff_exists'.1 (mt List.getLast?_eq_none_iff.1 hne)
    have hlast := hframe.transport last hl
    simp only [TransportAfter, ht] at hlast
    obtain ⟨-, -, -, hseq, -, -, hstart, -⟩ := hlast
    exact ⟨hseq, hstart, fun h0 => absurd (List.length_eq_zero_iff.1 h0) hne⟩

@[simp] theorem silentDone_params (wait ms : Nat) (u : State) : (silentDone wait ms u).params = u.params := by
  unfold silentDone; split <;> rfl

@[simp] theorem silentDone_cond (wait ms : Nat) (u : State) : (silentDone wait ms u).cond = u.cond := by
  unfold silentDone; split <;> rfl

@[simp] theorem silentDone_port (wait ms : Nat) (u : State) : (silentDone wait ms u).port = u.port := by
  unfold silentDone; split <;> rfl

/-- A silent session begun with the clock line low moves no pin but the inputs (R92, R95). -/
theorem silentDone_pins (wait ms : Nat) {u : State} (hl : u.pins.pdSck = false) :
    (silentDone wait ms u).pins =
      { u.pins with dout := (silentDone wait ms u).pins.dout, now := (silentDone wait ms u).pins.now } := by
  unfold silentDone
  split <;> simp only [← hl]

theorem silentDone_ctl (wait ms : Nat) (u : State) :
    (silentDone wait ms u).ctl =
      { u.ctl with armed := false, mon := .idle, start := (silentDone wait ms u).ctl.start } := by
  unfold silentDone
  split <;> rfl

/-- A silent session makes no pulse. -/
theorem silentDone_pulses (wait ms : Nat) (u : State) :
    ∃ seg, (silentDone wait ms u).link = seg ++ u.link ∧ Pulses seg 0 false := by
  unfold silentDone
  split
  · exact ⟨.drive false :: (List.replicate wait (.sample (!u.params.readyLevel)) ++ []), by simp,
      (Pulses.nil.samples _ _).fall⟩
  · exact ⟨List.replicate u.params.pollBudget (.sample (!u.params.readyLevel)) ++ [], by simp, Pulses.nil.samples _ _⟩

/-- A silent session after the whole sessions of its command (R91, R95, R127). -/
theorem ScriptedSilent.after {wait ms : Nat} (h : ScriptedSilent s as wait ms rest) (hu : NextArming s as j u) :
    AfterTimeout s as.length rest (runWhile State.running (silentSession s.params wait ms ++ rest) u) := by
  obtain ⟨hparams, hgain, hpins, hlow, hctl, seg, hlink, hpulses⟩ := hu.kept
  have hrst : u.pins.rst = false := by rw [hpins]; exact h.scripted.rst
  have hnow : u.pins.now = s.pins.now := by rw [hpins]
  obtain ⟨seg', hlink', hpulses'⟩ := silentDone_pulses wait ms u
  rw [← hparams, run_silent hu.eng hrst wait ms (hparams ▸ h.overdue) rest]
  refine ⟨⟨?_, ?_, ?_, ?_, ?_, rfl, rfl, rfl, rfl, rfl⟩, ?_, seg' ++ seg, ?_, ?_⟩
  · exact (silentDone_params wait ms u).trans hparams
  · refine (silentDone_pins wait ms (hlow h.low)).trans ?_
    rw [hpins, hlow h.low]
    rfl
  · refine (silentDone_ctl wait ms u).trans ?_
    rw [hctl]
    rfl
  · exact (silentDone_cond wait ms u).trans hu.cond
  · exact (congrArg HostRegs.cmdReg (silentDone_port wait ms u)).trans hu.cmdReg
  · cases ht : s.params.transport with
    | pulsegen =>
      obtain ⟨hrx, hpolls, hxfer⟩ := hu.kept_pulsegen ht
      simp only [TransportSilent, silentDone, ht, hparams, raise_xport, raise_ctl]
      exact ⟨hgain, trivial, trivial, by rw [hgain], hrx, hpolls, hxfer, hnow⟩
    | shiftreg =>
      obtain ⟨hseq, hstart, hxfer⟩ := hu.kept_shiftreg ht
      simp only [TransportSilent, silentDone, ht, hparams, raise_xport, raise_ctl]
      exact ⟨hgain, trivial, trivial, hseq, trivial, hstart, trivial, hxfer⟩
  · show (silentDone wait ms u).link = seg' ++ seg ++ s.link
    rw [hlink', hlink, List.append_assoc]
  · exact (hpulses.append hpulses').count

/-! ### `LaterReadFailureEndsTheCommand` -/

/-- Settles O42: the command stands at the arming of the session that fails, and that session ends it. -/
theorem laterReadFailureEndsTheCommand : Obligations.LaterReadFailureEndsTheCommand := by
  intro i s as wait ms rest hn hlen
  refine ⟨fun hi h => ?_, fun levels vain hi hp h => ?_⟩
  · obtain ⟨hreads, hp⟩ : readsConverter i = true ∧ passesChecks i s := by
      rcases hi with ⟨n, rfl | rfl⟩ | ⟨g, rfl⟩
      · exact ⟨rfl, (Nat.zero_lt_of_lt hlen).ne'⟩
      · exact ⟨rfl, (Nat.zero_lt_of_lt hlen).ne'⟩
      · exact ⟨rfl, trivial⟩
    obtain ⟨j, u, hexec, hu⟩ := exec_arms hreads hp hn hlen h.scripted
    exact ⟨_, hexec, h.after hu⟩
  · obtain ⟨j, u, hexec, hu⟩ := exec_arms hi hp hn hlen h.scripted
    exact ⟨_, hexec, h.after hu.frame hu.eng hu.cond hu.cmdReg⟩

end

end Sys2Proof.Machine
end

section
/-! PROOFS. The family `42_read_ops.md`, fourth part: a command that has not completed has written no register the host can
see, and one that has failed has written no conditioner register (R73, R127, R158, R159). The engine writes a conditioner
register only in the step that completes the command with `OK`. -/

namespace Sys2Proof.Machine

section

variable {s u v t : State} {j : Job}

/-! ### Work that is still pending -/

/-- Between `s` and `u` no conditioner register, `POWER`, `STATUS`, `RESULT` or `BUSY` was written. -/
structure Pending (s u : State) : Prop where
  cond : u.cond = s.cond
  power : u.ctl.power = s.ctl.power
  status : u.port.status = s.port.status
  result : u.port.result = s.port.result
  busy : u.port.busy = s.port.busy

theorem Pending.refl (s : State) : Pending s s := ⟨rfl, rfl, rfl, rfl, rfl⟩

theorem Pending.congr (h : Pending s u) (hc : v.cond = u.cond) (hp : v.ctl.power = u.ctl.power)
    (hport : v.port = u.port) : Pending s v :=
  ⟨hc.trans h.cond, hp.trans h.power, by rw [hport]; exact h.status, by rw [hport]; exact h.result,
    by rw [hport]; exact h.busy⟩

theorem Pending.addSample (h : Pending s u) (x : Int) : Pending s (addSample x u) :=
  ⟨h.cond, h.power, h.status, h.result, h.busy⟩

/-- A command, begun in `s`, whose work is pending in `u` while it runs, and undone when it has ended with a failure. -/
structure NoPartial (s u : State) : Prop where
  running : u.eng ≠ .idle → Pending s u
  failed : u.eng = .idle → u.port.status ≠ statusOk →
    u.cond = s.cond ∧ u.ctl.power = s.ctl.power ∧ u.port.busy = false

/-- A command that completes is not concerned (R73). -/
theorem noPartial_complete (s u : State) (r : Option Rat) : NoPartial s (complete r u) :=
  ⟨fun hne => absurd rfl hne, fun _ hne => absurd rfl hne⟩

theorem Pending.noPartial (h : Pending s u) (he : u.eng ≠ .idle) : NoPartial s u :=
  ⟨fun _ => h, fun hidle => absurd hidle he⟩

/-- Failure entry writes no conditioner register (R158). -/
theorem Pending.raise (h : Pending s u) (c : Failure) : NoPartial s (raise c u) :=
  ⟨fun hne => absurd rfl hne, fun _ _ => ⟨h.cond, h.power, rfl⟩⟩

theorem Pending.readRaw (h : Pending s u) (j : Job) : NoPartial s (readRaw j u) := by
  rcases readRaw_cases j u with ⟨-, he⟩ | ⟨-, he⟩ <;> rw [he]
  · exact h.raise _
  · exact Pending.noPartial (h.congr rfl rfl rfl) nofun

theorem NoPartial.congr (h : NoPartial s u) (hc : v.cond = u.cond) (hp : v.ctl.power = u.ctl.power)
    (hport : v.port = u.port) (he : v.eng = u.eng) : NoPartial s v :=
  ⟨fun hne => (h.running (he ▸ hne)).congr hc hp hport, fun hidle hst => by
    rw [hc, hp, hport]
    exact h.failed (he ▸ hidle) (hport ▸ hst)⟩

/-! ### The steps of ENGINE -/

theorem Pending.averageLoop (h : Pending s u) (n : Nat) : NoPartial s (averageLoop n u) := by
  unfold Machine.averageLoop
  split
  · exact noPartial_complete _ _ _
  · exact h.readRaw _

theorem Pending.tareLoop (h : Pending s u) (n : Nat) : NoPartial s (tareLoop n u) := by
  unfold Machine.tareLoop
  split
  · exact noPartial_complete _ _ _
  · exact h.readRaw _

theorem Pending.useSample (h : Pending s u) (j : Job) (x : Int) : NoPartial s (useSample j x u) := by
  cases j with
  | read | lowpass | value | units | seed => exact noPartial_complete _ _ _
  | discard => exact h.readRaw _
  | average n => exact (h.addSample x).averageLoop n
  | tare n => exact (h.addSample x).tareLoop n

theorem Pending.sessionCompleted (h : Pending s u) (j : Job) : NoPartial s (sessionCompleted j u) := by
  unfold Machine.sessionCompleted
  split
  · exact h.useSample j _
  · exact h.raise _

theorem Pending.engineArm (h : Pending s u) (j : Job) : NoPartial s (engineArm j u) := by
  unfold Machine.engineArm
  split <;> exact Pending.noPartial (h.congr (by simp) (by simp) (by simp)) nofun

theorem Pending.monitorPoll (h : Pending s u) (he : u.eng = .watch j) : NoPartial s (monitorPoll j u) := by
  have hend (m : Mon) : Pending s (endSession (deactivate { u with ctl.mon := m })) := h.congr rfl rfl rfl
  unfold Machine.monitorPoll
  split
  · exact (hend _).sessionCompleted j
  · split
    · exact (hend _).raise _
    · exact h.noPartial (by simp [he])

theorem Pending.readyPoll (h : Pending s u) (he : u.eng = .poll j) : NoPartial s (readyPoll j u) := by
  unfold Machine.readyPoll
  split
  · dsimp only
    split
    · exact Pending.noPartial (h.congr rfl rfl rfl) nofun
    · exact Pending.noPartial (h.congr rfl rfl rfl) (by simp [he])
  · have hend : Pending s (endSession { u with ctl.mon := .timedOut }) := h.congr rfl rfl rfl
    exact hend.raise _

theorem Pending.transferWait (h : Pending s u) (he : u.eng = .transfer j) : NoPartial s (transferWait j u) := by
  unfold Machine.transferWait
  split
  · exact h.noPartial (by simp [he])
  · refine Pending.sessionCompleted ?_ j
    exact h.congr rfl rfl rfl

theorem NoPartial.engineStep (h : NoPartial s u) : NoPartial s (engineStep u) := by
  have hrun := h.running
  unfold Machine.engineStep
  split <;> rename_i he
  · exact h
  · exact (hrun (by simp [he])).engineArm _
  · exact (hrun (by simp [he])).monitorPoll he
  · exact (hrun (by simp [he])).readyPoll he
  · exact (hrun (by simp [he])).transferWait he

/-! ### Events and runs -/

@[simp] theorem seqStep_cond (s : State) : (seqStep s).cond = s.cond := by
  unfold seqStep seqWaitReady seqHigh seqLow
  repeat' split
  all_goals rfl

@[simp] theorem seqStep_ctl (s : State) : (seqStep s).ctl = s.ctl := by
  unfold seqStep seqWaitReady seqHigh seqLow
  repeat' split
  all_goals rfl

@[simp] theorem xferStep_cond (s : State) : (xferStep s).cond = s.cond := by
  unfold xferStep xferSlot
  repeat' split
  all_goals rfl

@[simp] theorem xferStep_ctl (s : State) : (xferStep s).ctl = s.ctl := by
  unfold xferStep xferSlot
  repeat' split
  all_goals rfl

/-- Every event but a reset. -/
theorem NoPartial.tick (h : NoPartial s u) {e : Event} (hne : e ≠ .rst true) : NoPartial s (tick e u) := by
  cases e with
  | dout b | time ms => exact h.congr rfl rfl rfl rfl
  | present w =>
    rw [tick_present, present]
    split
    · exact h
    · exact h.congr rfl rfl rfl rfl
  | rst b =>
    cases b
    · exact h.congr rfl rfl rfl rfl
    · exact absurd rfl hne
  | engine =>
    simp only [Machine.tick]
    split
    · exact h
    · exact h.engineStep
  | seq =>
    simp only [Machine.tick]
    split
    · exact h.congr (by simp) (by simp) (by simp) (by simp)
    · exact h
  | xfer =>
    simp only [Machine.tick]
    split
    · exact h.congr (by simp) (by simp) (by simp) (by simp)
    · exact h

theorem NoPartial.runCommand (h : NoPartial s u) (hu : Event.rst true ∉ u.events) : NoPartial s (runCommand u) :=
  runWhile_keeps_undisturbed _ (NoPartial s) (fun _ _ h => h.congr rfl rfl rfl rfl) (fun _ _ hne h => h.tick hne) _ _ hu h

theorem Sound.runCommand (h : Sound u) : Sound (runCommand u) :=
  runWhile_keeps _ Sound (fun _ es h => h.setEvents es) (fun e _ h _ => h.tick e) _ _ h

/-! ### What a command can do -/

/-- A command fails at once, or completes at once, or runs from the call of its first `ReadRaw`. -/
theorem exec_cases {i : Instr} (hq : Quiet s) (hi : isCommand i = true) (he : exec i s = .next t) :
    (∃ c, t = raise c s) ∨ (∃ r u, t = complete r u ∧ Quiet u) ∨
      ∃ j u, t = runCommand (readRaw j u) ∧ Quiet u ∧ JobSound j u ∧ Pending s u ∧ u.events = s.events := by
  have hread (j : Job) (hj : JobSound j s) : ∃ j' u, runCommand (readRaw j s) = runCommand (readRaw j' u) ∧ Quiet u ∧
      JobSound j' u ∧ Pending s u ∧ u.events = s.events := ⟨j, s, rfl, hq, hj, .refl s, rfl⟩
  cases i with
  | read | readLowpass | getValue => cases he; exact .inr (.inr (hread _ trivial))
  | getUnits =>
    cases he
    split
    · exact .inl ⟨_, rfl⟩
    · exact .inr (.inr (hread .units trivial))
  | setGain g =>
    cases he
    refine .inr (.inr ⟨.discard, _, rfl, hq.selectGain g, trivial, ?_, ?_⟩) <;> rw [selectGain_eq]
    · exact ⟨rfl, rfl, rfl, rfl, rfl⟩
    · rfl
  | readAverage n =>
    cases he
    split
    · exact .inl ⟨_, rfl⟩
    · unfold averageLoop
      split
      · exact .inr (.inl ⟨_, _, runCommand_idle _ rfl, hq.setSum _ _⟩)
      · exact .inr (.inr ⟨_, _, rfl, hq.setSum _ _, sumSound_initial n s ‹_›, ⟨rfl, rfl, rfl, rfl, rfl⟩, rfl⟩)
  | tare n =>
    cases he
    split
    · exact .inl ⟨_, rfl⟩
    · unfold tareLoop
      split
      · exact .inr (.inl ⟨_, _, runCommand_idle _ rfl,
          (hq.setSum _ _).setCond _ (by exact hq.scale_ne_zero) (by exact hq.tc_range)⟩)
      · exact .inr (.inr ⟨_, _, rfl, hq.setSum _ _, sumSound_initial n s ‹_›, ⟨rfl, rfl, rfl, rfl, rfl⟩, rfl⟩)
  | setScale num den =>
    cases he
    split
    · exact .inl ⟨_, rfl⟩
    · split
      · exact .inl ⟨_, rfl⟩
      · exact .inr (.inl ⟨_, _, rfl, hq.setCond _ ‹_› (by exact hq.tc_range)⟩)
  | setOffset num den =>
    cases he
    split
    · exact .inl ⟨_, rfl⟩
    · exact .inr (.inl ⟨_, _, rfl, hq.setCond _ (by exact hq.scale_ne_zero) (by exact hq.tc_range)⟩)
  | setTimeConstant num den =>
    cases he
    split
    · exact .inl ⟨_, rfl⟩
    · split
      · exact .inr (.inl ⟨_, _, rfl, hq.setCond _ (by exact hq.scale_ne_zero) ‹_›⟩)
      · exact .inl ⟨_, rfl⟩
  | getTimeConstant => cases he; exact .inr (.inl ⟨_, _, rfl, hq⟩)
  | powerDown => cases he; exact .inr (.inl ⟨_, _, rfl, hq.setPower .down⟩)
  | powerUp => cases he; exact .inr (.inl ⟨_, _, rfl, hq.setPower .up⟩)
  | txpat1 | txpat2 | txpat3 => cases hi

/-- A command keeps the block sound, whatever `BUSY` says. -/
theorem exec_sound {i : Instr} (hq : Quiet s) (hi : isCommand i = true) (he : exec i s = .next t) : Sound t := by
  rcases exec_cases hq hi he with ⟨c, rfl⟩ | ⟨r, u, rfl, hu⟩ | ⟨j, u, rfl, hu, hj, -, -⟩
  · exact hq.raise c
  · exact hu.complete r
  · exact (hu.readRaw j hj).runCommand

/-- A command without a reset leaves no partial work. -/
theorem exec_noPartial {i : Instr} (hq : Quiet s) (hi : isCommand i = true) (hes : Event.rst true ∉ s.events)
    (he : exec i s = .next t) : NoPartial s t := by
  rcases exec_cases hq hi he with ⟨c, rfl⟩ | ⟨r, u, rfl, -⟩ | ⟨j, u, rfl, -, -, hu, hevents⟩
  · exact (Pending.refl s).raise c
  · exact noPartial_complete s u r
  · exact (hu.readRaw j).runCommand (by rw [readRaw_events, hevents]; exact hes)

/-! ### `NoPartialWork` -/

/-- Settles O43: the command has left no partial work, the mapping is the one it selected, and the sound block it ends in
is idle. -/
theorem noPartialWork : Obligations.NoPartialWork := by
  intro i s t hi hs hidle ⟨_, hes⟩ he
  have hq : Quiet s := hs.quiet hidle
  have hsound : Sound t := exec_sound hq hi he
  have hwork : NoPartial s t := exec_noPartial hq hi hes he
  have hgain : t.xport.gainSel = gainAfterInstr i s.xport.gainSel := (exec_confined hidle hes he).gainSel
  refine ⟨fun ht hst => ?_, fun ht => ?_⟩
  · obtain ⟨hcond, hpower, hbusy⟩ := hwork.failed ht hst
    have htransport := hsound.transport
    have harmed := hsound.armed_iff
    have hmon := hsound.monitor
    simp only [TransportSound, ht] at htransport harmed hmon
    obtain ⟨⟨hactive, -⟩, hxfer, hline⟩ := htransport
    exact ⟨hcond, hsound.failure_none hst, hbusy, hpower, hgain, harmed, hmon, hactive, hxfer, hline⟩
  · obtain ⟨hcond, hpower, hstatus, hresult, hbusy⟩ := hwork.running ht
    exact ⟨hcond, hstatus, hresult, hbusy, hpower, hgain⟩

end

end Sys2Proof.Machine
end

section
/-! PROOFS. The family `42_read_ops.md`, fifth part: the running sum fits (R122, R130). Before each read the sum is bounded by
the samples taken so far; between reads, and after the command, by those of all its reads. -/

namespace Sys2Proof.Machine

section

variable {n : Nat} {u v : State} {j : Job}

/-! ### The bound -/

/-- The sum is within `n` samples, and a command under way reads for a sum of `n` samples. -/
structure SumBounded (n : Nat) (u : State) : Prop where
  sum : u.port.sum.natAbs ≤ n * 2 ^ 23
  job : ∀ j, u.eng.job = some j → j = .average n ∨ j = .tare n

theorem SumBounded.congr (h : SumBounded n u) (hs : v.port.sum = u.port.sum) (he : v.eng = u.eng) : SumBounded n v :=
  ⟨by rw [hs]; exact h.sum, by rw [he]; exact h.job⟩

/-- A command that has ended. -/
theorem sumBounded_idle (hs : u.port.sum.natAbs ≤ n * 2 ^ 23) (he : u.eng = .idle) : SumBounded n u :=
  ⟨hs, fun j hj => by rw [he] at hj; cases hj⟩

theorem sumBounded_readRaw (hs : u.port.sum.natAbs ≤ n * 2 ^ 23) (hj : j = .average n ∨ j = .tare n) :
    SumBounded n (readRaw j u) := by
  rcases readRaw_cases j u with ⟨-, he⟩ | ⟨-, he⟩ <;> rw [he]
  · exact sumBounded_idle hs rfl
  · exact ⟨hs, fun k hk => by cases hk; exact hj⟩

/-- One more of `n` samples (R110, R130). -/
theorem SumSound.addSample (h : SumSound n u) {x : Int} (hx : x.natAbs ≤ 2 ^ 23) :
    (addSample x u).port.sum.natAbs ≤ n * 2 ^ 23 := by
  obtain ⟨hne, hle, hsum⟩ := h
  have hpos : 1 ≤ u.port.cnt.toNat := Nat.one_le_iff_ne_zero.2 fun h0 => hne (BitVec.eq_of_toNat_eq h0)
  have hadd : (u.port.sum + x).natAbs ≤ u.port.sum.natAbs + x.natAbs := Int.natAbs_add_le _ _
  simp only [addSample_port]
  omega

theorem sumBounded_averageLoop (hs : u.port.sum.natAbs ≤ n * 2 ^ 23) : SumBounded n (averageLoop n u) := by
  unfold averageLoop
  split
  · exact sumBounded_idle hs rfl
  · exact sumBounded_readRaw hs (.inl rfl)

theorem sumBounded_tareLoop (hs : u.port.sum.natAbs ≤ n * 2 ^ 23) : SumBounded n (tareLoop n u) := by
  unfold tareLoop
  split
  · exact sumBounded_idle hs rfl
  · exact sumBounded_readRaw hs (.inr rfl)

/-! ### The steps of ENGINE -/

/-- The end of a read: the sample is added, or the command fails with the sum it had. -/
theorem sumBounded_sessionCompleted (hs : u.port.sum.natAbs ≤ n * 2 ^ 23) (hj : j = .average n ∨ j = .tare n)
    (hsound : JobSound j u) : SumBounded n (sessionCompleted j u) := by
  unfold sessionCompleted
  split
  · rename_i x hx
    have hbound := decodeSample_natAbs_le hx
    rcases hj with rfl | rfl
    · exact sumBounded_averageLoop (SumSound.addSample hsound hbound)
    · exact sumBounded_tareLoop (SumSound.addSample hsound hbound)
  · exact sumBounded_idle hs rfl

theorem SumBounded.engineArm (h : SumBounded n u) (he : u.eng = .arm j) : SumBounded n (engineArm j u) := by
  have hj : ∀ k, some j = some k → k = .average n ∨ k = .tare n := by simpa [he, Engine.job] using h.job
  unfold Machine.engineArm
  split <;> exact ⟨by simpa using h.sum, hj⟩

theorem SumBounded.monitorPoll (h : SumBounded n u) (hj : j = .average n ∨ j = .tare n) (hsound : JobSound j u) :
    SumBounded n (monitorPoll j u) := by
  unfold Machine.monitorPoll
  split
  · exact sumBounded_sessionCompleted h.sum hj (by rcases hj with rfl | rfl <;> exact hsound)
  · split
    · exact sumBounded_idle h.sum rfl
    · exact h

theorem SumBounded.readyPoll (h : SumBounded n u) (hj : j = .average n ∨ j = .tare n) :
    SumBounded n (readyPoll j u) := by
  unfold Machine.readyPoll
  split
  · dsimp only
    split
    · exact ⟨h.sum, fun k hk => by cases hk; exact hj⟩
    · exact h.congr rfl rfl
  · exact sumBounded_idle h.sum rfl

theorem SumBounded.transferWait (h : SumBounded n u) (hj : j = .average n ∨ j = .tare n) (hsound : JobSound j u) :
    SumBounded n (transferWait j u) := by
  unfold Machine.transferWait
  split
  · exact h
  · exact sumBounded_sessionCompleted h.sum hj (by rcases hj with rfl | rfl <;> exact hsound)

theorem SumBounded.engineStep (h : SumBounded n u) (hs : Sound u) : SumBounded n (engineStep u) := by
  have hjob {j : Job} (he : u.eng.job = some j) : (j = .average n ∨ j = .tare n) ∧ JobSound j u :=
    ⟨h.job j he, hs.working j he⟩
  unfold Machine.engineStep
  split <;> rename_i he
  · exact h
  · exact h.engineArm he
  · obtain ⟨hj, hsound⟩ := hjob (by rw [he]; rfl)
    exact h.monitorPoll hj hsound
  · obtain ⟨hj, -⟩ := hjob (by rw [he]; rfl)
    exact h.readyPoll hj
  · obtain ⟨hj, hsound⟩ := hjob (by rw [he]; rfl)
    exact h.transferWait hj hsound

/-! ### Events and runs -/

/-- Every event, a reset included: it clears the sum. -/
theorem SumBounded.tick (h : SumBounded n u) (hs : Sound u) (e : Event) : SumBounded n (tick e u) := by
  cases e with
  | dout b | time ms => exact h.congr rfl rfl
  | present w =>
    rw [tick_present, present]
    split
    · exact h
    · exact h.congr rfl rfl
  | rst b =>
    cases b
    · exact h.congr rfl rfl
    · exact sumBounded_idle (Nat.zero_le _) rfl
  | engine =>
    simp only [Machine.tick]
    split
    · exact h
    · exact h.engineStep hs
  | seq =>
    simp only [Machine.tick]
    split
    · exact h.congr (by simp) (by simp)
    · exact h
  | xfer =>
    simp only [Machine.tick]
    split
    · exact h.congr (by simp) (by simp)
    · exact h

theorem SumBounded.runCommand (h : SumBounded n u) (hs : Sound u) : SumBounded n (runCommand u) :=
  (runWhile_keeps _ (fun v => Sound v ∧ SumBounded n v) (fun _ es ⟨hs, h⟩ => ⟨hs.setEvents es, h.congr rfl rfl⟩)
    (fun e _ ⟨hs, h⟩ _ => ⟨hs.tick e, h.tick hs e⟩) _ _ ⟨hs, h⟩).2

/-- A command that has set its working registers and begins its first read. -/
theorem sumBounded_run (hpos : 0 < n) (hlt : n < 2 ^ 32) (hq : Quiet u) (hj : j = .average n ∨ j = .tare n) :
    SumBounded n (runCommand (readRaw j (clearSum n u))) := by
  have hsum : SumSound n (clearSum n u) := sumSound_initial n u (ofNat_ne_zero_of_pos hpos hlt)
  have hsound : JobSound j (clearSum n u) := by rcases hj with rfl | rfl <;> exact hsum
  have hclear : Quiet (clearSum n u) := hq.setSum _ _
  exact (sumBounded_readRaw (Nat.zero_le _) hj).runCommand (hclear.readRaw j hsound)

end

/-! ### `RunningSumFits` -/

/-- Settles O55: every event keeps the sum within `n` samples, and `n` is less than 2^32. -/
theorem runningSumFits : Obligations.RunningSumFits := by
  intro n i s t hi hpos hlt hs hidle he
  have hq : Quiet s := hs.quiet hidle
  have hbounded : SumBounded n t := by
    rcases hi with rfl | rfl
    · rw [exec_readAverage hpos hlt] at he
      cases he
      exact sumBounded_run hpos hlt hq (.inl rfl)
    · rw [exec_tare hpos hlt] at he
      cases he
      exact sumBounded_run hpos hlt hq (.inr rfl)
  have hsum := hbounded.sum
  exact ⟨hsum, by omega⟩

end Sys2Proof.Machine
end

section
/-! PROOFS. The family `43_config_power.md`: the configuration commands (R135 to R138, R142), the power commands (R139,
R140), and the refusal of a read while powered down (R141). A refused read is failure entry from a state that differs
from the first one in `GAINSEL` and the working registers alone. -/

namespace Sys2Proof.Machine

/-! ### `ReadsAreRefusedWhilePoweredDown` -/

/-- A command whose first call of `ReadRaw` is refused ends there and takes no event (R120, R141). -/
theorem runCommand_readRaw_down {s : State} (j : Job) (h : s.ctl.power = .down) :
    runCommand (readRaw j s) = raise .poweredDown s := by
  rw [readRaw_down j s h]
  exact runCommand_idle _ rfl

/-- A failed check comes before any state change, whatever the power state (R157). -/
theorem exec_of_not_passesChecks {i : Instr} {s : State} (h : ¬ passesChecks i s) :
    exec i s = .next (raise .invalidConfiguration (withGain i s)) := by
  cases i with
  | readAverage n | tare n | getUnits => exact congrArg _ (if_pos (not_not.1 h))
  | _ => exact absurd trivial h

/-- Past its checks a reading command is refused at its first read, and has changed no more than `GAINSEL` and the
working registers before (R113, R122, R126, R141). -/
theorem exec_of_powered_down {i : Instr} {s : State} (hi : readsConverter i = true) (hwf : i.wf = true)
    (hdown : s.ctl.power = .down) (hp : passesChecks i s) :
    ∃ x c, exec i s = .next (raise .poweredDown { withGain i s with port.sum := x, port.cnt := c }) := by
  cases i with
  | read | readLowpass | getValue => exact ⟨_, _, congrArg _ (runCommand_readRaw_down _ hdown)⟩
  | getUnits => exact ⟨_, _, congrArg _ ((if_neg hp).trans (runCommand_readRaw_down .units hdown))⟩
  | readAverage n =>
    refine ⟨0, BitVec.ofNat 32 n, (exec_readAverage (Nat.pos_of_ne_zero hp) (of_decide_eq_true hwf) s).trans ?_⟩
    exact congrArg _ (runCommand_readRaw_down (s := clearSum n s) _ hdown)
  | tare n =>
    refine ⟨0, BitVec.ofNat 32 n, (exec_tare (Nat.pos_of_ne_zero hp) (of_decide_eq_true hwf) s).trans ?_⟩
    exact congrArg _ (runCommand_readRaw_down (s := clearSum n s) _ hdown)
  | setGain g =>
    refine ⟨s.port.sum, s.port.cnt, ?_⟩
    show Host.Outcome.next (runCommand (readRaw .discard (selectGain g s))) = _
    rw [selectGain_eq]
    exact congrArg _ (runCommand_readRaw_down (s := withGain (.setGain g) s) .discard hdown)
  | _ => cases hi

/-- Settles O24: either a check fails first, or the first read is refused; both are failure entry. -/
theorem readsAreRefusedWhilePoweredDown : Obligations.ReadsAreRefusedWhilePoweredDown := by
  intro i s hi hwf hdown
  by_cases hp : passesChecks i s
  · obtain ⟨x, c, hexec⟩ := exec_of_powered_down hi hwf hdown hp
    exact ⟨_, hexec, rfl, rfl, rfl, rfl, rfl, rfl, rfl, rfl, rfl, rfl, rfl, fun _ => rfl, fun hn => absurd hp hn⟩
  · exact ⟨_, exec_of_not_passesChecks hp, rfl, rfl, rfl, rfl, rfl, rfl, rfl, rfl, rfl, rfl, rfl,
      fun h => absurd h hp, fun _ => rfl⟩

/-! ### The format `Q` operand -/

/-- The operand is the quotient of its fields, whether or not they are in lowest terms (R64). -/
theorem rationalOperand_of_ne_zero (num : Int) {den : Nat} (h : den ≠ 0) :
    rationalOperand num den = some ((num : Rat) / den) := by
  rw [rationalOperand, if_neg h, Rat.mkRat_eq_div]

/-! ### The meaning of the configuration commands -/

/-- R135, refused. -/
theorem exec_setScale_refused {num : Int} {den : Nat} (h : den = 0 ∨ num = 0) (s : State) :
    exec (.setScale num den) s = .next (raise .invalidConfiguration s) := by
  by_cases hd : den = 0
  · subst hd
    rfl
  · obtain rfl : num = 0 := h.resolve_left hd
    simp [exec, execSetScale, rationalOperand_of_ne_zero 0 hd]

/-- R135, stored. -/
theorem exec_setScale_stored {num : Int} {den : Nat} (hd : den ≠ 0) (hn : num ≠ 0) (s : State) :
    exec (.setScale num den) s = .next (complete none { s with cond.scale := (num : Rat) / den }) := by
  have hq : (num : Rat) / den ≠ 0 := div_ne_zero (Int.cast_ne_zero.2 hn) (Nat.cast_ne_zero.2 hd)
  simp only [exec, execSetScale, rationalOperand_of_ne_zero num hd, if_neg hq]

/-- R136, refused. -/
theorem exec_setOffset_refused (num : Int) (s : State) :
    exec (.setOffset num 0) s = .next (raise .invalidConfiguration s) := rfl

/-- R136, stored. -/
theorem exec_setOffset_stored (num : Int) {den : Nat} (hd : den ≠ 0) (s : State) :
    exec (.setOffset num den) s = .next (complete none { s with cond.offset := (num : Rat) / den }) := by
  simp only [exec, execSetOffset, rationalOperand_of_ne_zero num hd]

/-- R137, refused: there is no operand, or it lies outside (0, 1). -/
theorem exec_setTimeConstant_refused {num : Int} {den : Nat}
    (h : den = 0 ∨ ¬ (0 < (num : Rat) / den ∧ (num : Rat) / den < 1)) (s : State) :
    exec (.setTimeConstant num den) s = .next (raise .invalidConfiguration s) := by
  by_cases hd : den = 0
  · subst hd
    rfl
  · simp only [exec, execSetTimeConstant, rationalOperand_of_ne_zero num hd, if_neg (h.resolve_left hd)]

/-- R137, stored. -/
theorem exec_setTimeConstant_stored {num : Int} {den : Nat} (hd : den ≠ 0)
    (h : 0 < (num : Rat) / den ∧ (num : Rat) / den < 1) (s : State) :
    exec (.setTimeConstant num den) s = .next (complete none { s with cond.tc := (num : Rat) / den }) := by
  simp only [exec, execSetTimeConstant, rationalOperand_of_ne_zero num hd, if_pos h]

/-! ### `SetScaleStoresANonZeroScale`, `SetOffsetStoresAnyRational`, `SetTimeConstantStoresAnInnerValue` -/

/-- Settles O17: an operand is refused or stored. -/
theorem setScaleStoresANonZeroScale : Obligations.SetScaleStoresANonZeroScale := fun _ _ s =>
  ⟨fun h => exec_setScale_refused h s, fun hd hn => exec_setScale_stored hd hn s⟩

/-- Settles O18: every operand with a non-zero denominator is stored. -/
theorem setOffsetStoresAnyRational : Obligations.SetOffsetStoresAnyRational := by
  intro num den s
  refine ⟨?_, fun hd => exec_setOffset_stored num hd s⟩
  rintro rfl
  exact exec_setOffset_refused num s

/-- Settles O19: outside (0, 1) is at most 0 or at least 1. -/
theorem setTimeConstantStoresAnInnerValue : Obligations.SetTimeConstantStoresAnInnerValue := by
  intro num den s
  refine ⟨fun h => exec_setTimeConstant_refused ?_ s, fun hd h0 h1 => exec_setTimeConstant_stored hd ⟨h0, h1⟩ s⟩
  rwa [not_and_or, not_lt, not_lt]

/-- Settles O20: the command is its completion with `TC`. -/
theorem getTimeConstantReturnsTheRegister : Obligations.GetTimeConstantReturnsTheRegister := fun _ => rfl

/-! ### `ConfigurationIgnoresPinsAndPower` -/

/-- A configuration command fails in every state, or completes in every state with a result and conditioner registers
that are functions of the conditioner registers alone (R142). -/
theorem exec_config_cases {i : Instr} {num : Int} {den : Nat}
    (hi : i ∈ [.setScale num den, .setOffset num den, .setTimeConstant num den, .getTimeConstant]) :
    (∀ s, exec i s = .next (raise .invalidConfiguration s)) ∨
      ∃ (r : ConditionerRegs → Option Rat) (c : ConditionerRegs → ConditionerRegs),
        ∀ s, exec i s = .next (complete (r s.cond) { s with cond := c s.cond }) := by
  simp only [List.mem_cons, List.not_mem_nil, or_false] at hi
  rcases hi with rfl | rfl | rfl | rfl
  · by_cases h : den = 0 ∨ num = 0
    · exact .inl (exec_setScale_refused h)
    · obtain ⟨hd, hn⟩ := not_or.1 h
      exact .inr ⟨fun _ => none, fun c => { c with scale := (num : Rat) / den }, exec_setScale_stored hd hn⟩
  · by_cases hd : den = 0
    · subst hd
      exact .inl (exec_setOffset_refused num)
    · exact .inr ⟨fun _ => none, fun c => { c with offset := (num : Rat) / den }, exec_setOffset_stored num hd⟩
  · by_cases h : den = 0 ∨ ¬ (0 < (num : Rat) / den ∧ (num : Rat) / den < 1)
    · exact .inl (exec_setTimeConstant_refused h)
    · obtain ⟨hd, hq⟩ := not_or.1 h
      exact .inr ⟨fun _ => none, fun c => { c with tc := (num : Rat) / den },
        exec_setTimeConstant_stored hd (not_not.1 hq)⟩
  · exact .inr ⟨fun c => some c.tc, fun c => c, fun _ => rfl⟩

/-- Settles O21: failure entry and completion write the conditioner and host registers alone. -/
theorem configurationIgnoresPinsAndPower : Obligations.ConfigurationIgnoresPinsAndPower := by
  intro i num den hi s u hcond hport
  rcases exec_config_cases hi with hexec | ⟨r, c, hexec⟩
  · refine ⟨_, _, hexec s, hexec u, hcond, ?_, rfl, rfl, rfl, rfl, rfl, rfl⟩
    rw [raise_port, raise_port, hport]
  · refine ⟨_, _, hexec s, hexec u, congrArg c hcond, ?_, rfl, rfl, rfl, rfl, rfl, rfl⟩
    rw [complete_port, complete_port, hcond, hport]

/-! ### `PowerDownHoldsTheLineHigh`, `PowerUpReleasesTheLine` -/

/-- Settles O22: the command is one drive, the write of `POWER` and the completion. -/
theorem powerDownHoldsTheLineHigh : Obligations.PowerDownHoldsTheLineHigh := fun _ => rfl

/-- Settles O23: as `powerDownHoldsTheLineHigh`. -/
theorem powerUpReleasesTheLine : Obligations.PowerUpReleasesTheLine := fun _ => rfl

end Sys2Proof.Machine
end

section
/-! PROOFS. The family `60_exceptions.md`: the failures `SensorTimeout` (R151), `InvalidConfiguration` (R153, R157) and
`IllegalCommand` (R155), and the wait that never ends when the timer stands still (R163). -/

namespace Sys2Proof.Machine

/-! ### `SilentConverterTimesOut` -/

/-- Settles O41: the command stands at the arming of its first session, and the silent session ends it. -/
theorem silentConverterTimesOut : Obligations.SilentConverterTimesOut := by
  intro i s wait ms rest hi hp hn h
  obtain ⟨j, u, hexec, hu⟩ := exec_arms (as := []) hi hp hn (readCount_pos hi hp) h.scripted
  exact ⟨_, hexec, h.after hu⟩

/-! ### `ReservedOpcodeFails` -/

/-- Outside reset a code taken up that is no instruction is rejected. -/
theorem step_rejected {s : State} {c : Code} {x : DecodeError} (hr : s.pins.rst = false) (hf : fetch s = some c)
    (hd : decode c = .error x) : step s = .next (reject c s) := by
  simp [step, hr, hf, hd]

/-- Settles O46: the idle block takes the word up, the decoder has no command for it, and its rejection is failure entry
from the block that accepted it. -/
theorem reservedOpcodeFails : Obligations.ReservedOpcodeFails := by
  intro s h hr hb hv hop
  have he : s.eng = .idle := h.idle hb
  have hf : fetch s = some (.command s.pins.cmd) := fetch_command (h.sound.xfer_eq_none he) hb hv
  have hd : decode (.command s.pins.cmd) = .error (.reservedOpcode (opField s.pins.cmd)) :=
    (reservedOpcodesSelectNoCommand s.pins.cmd).2 hop
  exact ⟨_, step_rejected hr hf hd, rfl, rfl, rfl, rfl, rfl, he.symm, rfl, rfl, rfl, rfl⟩

/-! ### `StoppedTimerHangs` -/

/-- In a `PULSEGEN` session for `j` the sequencer waits for a converter that is not ready, and the deadline lies ahead
(R83, R91). -/
structure AwaitingReady (j : Job) (s : State) : Prop where
  eng : s.eng = .watch j
  transport : s.params.transport = .pulsegen
  rst : s.pins.rst = false
  phase : s.xport.seq.phase = .waitReady
  done : s.xport.seq.done = false
  notReady : s.pins.dout ≠ s.params.readyLevel
  early : (s.pins.now - s.ctl.start).toNat < s.params.deadlineMs

section

variable {s : State} {j : Job}

theorem AwaitingReady.setLink (h : AwaitingReady j s) (l : List LinkAccess) : AwaitingReady j { s with link := l } :=
  ⟨h.eng, h.transport, h.rst, h.phase, h.done, h.notReady, h.early⟩

/-- A step of the engine changes nothing, and one of the sequencer at most records a sample. -/
theorem AwaitingReady.tick_eq (h : AwaitingReady j s) {e : Event} (he : e = .engine ∨ e = .seq) :
    ∃ l, tick e s = { s with link := l } := by
  rcases he with rfl | rfl
  · exact ⟨s.link, (tick_engine_watch h.rst h.eng).trans (monitorPoll_waits h.done h.early)⟩
  · cases ha : s.xport.seq.active with
    | false => exact ⟨s.link, tick_seq_disabled (.inl ha)⟩
    | true =>
      refine ⟨.sample s.pins.dout :: s.link, ?_⟩
      rw [tick_seq s h.rst h.transport, seqStep_waitReady ha h.phase, seqWaitReady_looks h.notReady]
      rfl

/-- However many such steps a run takes, the wait goes on. -/
theorem AwaitingReady.runWhile_eq (es : List Event) (hes : ∀ e ∈ es, e = .engine ∨ e = .seq) :
    ∀ {s : State}, AwaitingReady j s → ∃ l, runWhile State.running es s = { s with events := [], link := l } := by
  induction es with
  | nil => exact fun {s} _ => ⟨s.link, rfl⟩
  | cons e es ih =>
    intro s h
    rw [List.forall_mem_cons] at hes
    obtain ⟨l, hl⟩ := h.tick_eq hes.1
    rw [runWhile_cons _ _ _ _ (by simp [State.running, h.eng]), hl]
    exact ih hes.2 (h.setLink l)

end

/-- Settles O59: the run of the command is a run of that wait, by induction on its events. -/
theorem stoppedTimerHangs : Obligations.StoppedTimerHangs := by
  intro s j he ht hr hp hd hdout hearly hes
  obtain ⟨l, hl⟩ := AwaitingReady.runWhile_eq s.events hes ⟨he, ht, hr, hp, hd, hdout, hearly⟩
  rw [runCommand, hl]

/-! ### `InvalidConfigurationComesFirst` -/

/-- A quotient whose numerator is not strictly between 0 and its denominator is not in (0, 1). -/
theorem not_inner_of_numerator {num : Int} {den : Nat} (hd : den ≠ 0) (h : num ≤ 0 ∨ (den : Int) ≤ num) :
    ¬ (0 < (num : Rat) / den ∧ (num : Rat) / den < 1) := by
  have hpos : (0 : Rat) < den := Nat.cast_pos.2 (Nat.pos_of_ne_zero hd)
  rw [div_pos_iff_of_pos_right hpos, div_lt_one hpos]
  rintro ⟨h0, h1⟩
  have hnum : 0 < num := Int.cast_pos.1 h0
  have hlt : num < (den : Int) := by exact_mod_cast h1
  omega

/-- Settles O25, check by check: each one that fails is failure entry from the state itself. -/
theorem invalidConfigurationComesFirst : Obligations.InvalidConfigurationComesFirst := by
  rintro i s (rfl | rfl | ⟨rfl, hscale⟩ | ⟨num, rfl | rfl | rfl⟩ | ⟨den, rfl⟩ | ⟨num, den, rfl, h⟩)
  · exact exec_of_not_passesChecks (i := .readAverage 0) fun h => h rfl
  · exact exec_of_not_passesChecks (i := .tare 0) fun h => h rfl
  · exact exec_of_not_passesChecks (i := .getUnits) fun h => h hscale
  · exact exec_setScale_refused (.inl rfl) s
  · exact exec_setOffset_refused num s
  · exact exec_setTimeConstant_refused (.inl rfl) s
  · exact exec_setScale_refused (.inr rfl) s
  · exact exec_setTimeConstant_refused (or_iff_not_imp_left.2 fun hd => not_inner_of_numerator hd h) s

end Sys2Proof.Machine
end

section
/-! PROOFS. The family `70_reset_and_hazards.md`: the reset values (R175), a reset during a command (R176), and what a
sound block shows between commands and why it never halts (R192). -/

namespace Sys2Proof.Machine

/-! ### The reset values -/

theorem holdsResetValues_resetWith (p : Params) (dout : Bool) (now : Timer) :
    HoldsResetValues (State.resetWith p dout now) := by
  constructor
  case tc => exact Rat.mkRat_eq_div 1 4
  all_goals rfl

theorem holdsResetValues_underReset (s : State) : HoldsResetValues (underReset s) :=
  { holdsResetValues_resetWith s.params s.pins.dout s.pins.now with }

/-- The list of events is no register. -/
theorem HoldsResetValues.setEvents {s : State} (h : HoldsResetValues s) (es : List Event) :
    HoldsResetValues { s with events := es } :=
  { h with }

/-- No event writes a register of a reset block: its agents have nothing to do until a word is accepted (R29, R175). -/
theorem HoldsResetValues.tick {s : State} (h : HoldsResetValues s) (e : Event) : HoldsResetValues (tick e s) := by
  cases e with
  | dout b | time ms => exact { h with }
  | present w =>
    rw [tick_present, present]
    split
    · exact h
    · exact { h with }
  | rst b =>
    cases b
    · exact { h with }
    · exact holdsResetValues_underReset s
  | engine =>
    have hstep : engineStep s = s := by rw [engineStep, h.eng]
    simpa only [Machine.tick, hstep, ite_self] using h
  | seq => rwa [tick_seq_disabled (.inl (by rw [h.seq]))]
  | xfer =>
    have hstep : xferStep s = s := by rw [xferStep, h.xfer]
    simp only [Machine.tick, hstep]
    split <;> exact h

theorem HoldsResetValues.nextEvent {s : State} (h : HoldsResetValues s) : HoldsResetValues (nextEvent s) := by
  unfold Machine.nextEvent
  split
  · exact h
  · exact (h.tick _).setEvents _

/-! ### `ResetAbandonsTheCommand` -/

/-- Settles O48: the reset event leaves the engine idle, so the run takes no event after it. -/
theorem resetAbandonsTheCommand : Obligations.ResetAbandonsTheCommand := by
  intro s es he hes
  have hrun : runCommand s = { underReset s with events := es } := by
    rw [runCommand, hes, runWhile_cons _ _ _ _ (running_of_eng he), tick_rst, runWhile_stop _ _ _ rfl]
  exact ⟨_, hrun, (holdsResetValues_underReset s).setEvents es, rfl, rfl, rfl⟩

/-! ### `TheBlockNeverHalts` -/

/-- Every host command has a meaning in every state. -/
theorem exec_command_answers {i : Instr} (hi : isCommand i = true) (s : State) : ∃ t, exec i s = .next t := by
  cases i with
  | read | readAverage n | readLowpass | getValue | getUnits | tare n | setGain g => exact ⟨_, rfl⟩
  | setScale num den | setOffset num den | setTimeConstant num den => exact ⟨_, rfl⟩
  | getTimeConstant | powerDown | powerUp => exact ⟨_, rfl⟩
  | txpat1 | txpat2 | txpat3 => cases hi

/-- A pattern row has a meaning where there is a transfer peripheral (R4, R16). -/
theorem exec_pattern_answers (g : GainSel) {s : State} (h : s.params.transport = .shiftreg) :
    ∃ t, exec (patternInstr g) s = .next t := by
  rw [exec_patternInstr, transferPattern, h]
  exact ⟨_, rfl⟩

/-- A transfer in progress tells that the block contains the peripheral (R80, R96). -/
theorem Sound.shiftreg_of_xfer {s : State} (h : Sound s) {x : Xfer} (hx : s.xport.xfer = some x) :
    s.params.transport = .shiftreg := by
  obtain ⟨⟨j, he⟩, -⟩ := h.transferred hx
  have ht := h.transport
  rw [TransportSound, he] at ht
  exact ht.1

/-- In a sound block every instruction taken up has a meaning. -/
theorem Sound.exec_take_answers {s : State} (h : Sound s) {c : Code} {i : Instr} (hf : fetch s = some c)
    (hd : decode c = .ok i) : ∃ t, exec i (take c s) = .next t := by
  cases c with
  | command w => exact exec_command_answers (decodeCommand_isCommand hd) _
  | pattern p =>
    obtain ⟨tx, hx, -⟩ := fetch_pattern_issued hf
    obtain ⟨g, rfl, -⟩ := decodePattern_patternInstr hd
    exact exec_pattern_answers g (h.shiftreg_of_xfer hx)

/-- Settles O51, along the branches of `step`: only an instruction could fail to answer. -/
theorem theBlockNeverHalts : Obligations.TheBlockNeverHalts := by
  intro s h
  unfold step
  split
  · exact ⟨_, rfl⟩
  · split
    · split
      · exact h.sound.exec_take_answers ‹_› ‹_›
      · exact ⟨_, rfl⟩
    · exact ⟨_, rfl⟩

/-! ### `ResetLoadsEveryRegister` -/

/-- Under reset no word is latched (R175). -/
theorem present_under_rst (w : CommandWord) {s : State} (hr : s.pins.rst = true) : present w s = s := by
  simp [present, hr]

/-- Settles O47: the values are loaded at the assertion, and no event writes over them. -/
theorem resetLoadsEveryRegister : Obligations.ResetLoadsEveryRegister := by
  refine ⟨holdsResetValues_resetWith _ _ _, fun s => ?_, fun s hr => ?_⟩
  · have h : HoldsResetValues (tick (.rst true) s) := holdsResetValues_underReset s
    exact ⟨h, rfl, rfl, h.tick (.rst false), fun w => present_under_rst w rfl⟩
  · exact ⟨_, if_pos hr, (holdsResetValues_underReset s).nextEvent⟩

/-! ### `ResetSatisfiesInvariant` -/

theorem inv_resetWith (p : Params) (dout : Bool) (now : Timer) : Inv (State.resetWith p dout now) :=
  ⟨sound_resetWith p dout now, rfl⟩

/-- Settles O49: `State.reset` is a reset state like the others. -/
theorem resetSatisfiesInvariant : Obligations.ResetSatisfiesInvariant := fun p dout now =>
  ⟨inv_resetWith p dout now, inv_resetWith _ _ _⟩

/-! ### `IdleBetweenCommands` -/

/-- Between commands no agent is at work, and the line is high exactly while powered down (R17, R24, R80, R192). -/
theorem Sound.idle_shows {s : State} (h : Sound s) (he : s.eng = .idle) :
    s.ctl.armed = false ∧ s.ctl.mon = .idle ∧ s.xport.seq.active = false ∧ s.xport.seq.phase = .off ∧
      s.xport.xfer = none ∧ (s.ctl.power = .down ↔ s.pins.pdSck = true) := by
  have ht := h.transport
  rw [TransportSound, he] at ht
  obtain ⟨⟨hactive, hphase⟩, hx, hline⟩ := ht
  have harmed : s.ctl.armed = false := by rw [h.armed_iff, he]; rfl
  have hmon : s.ctl.mon = .idle := by rw [h.monitor, he]; rfl
  exact ⟨harmed, hmon, hactive, hphase, hx, by rw [hline, decide_eq_true_iff]⟩

/-- An armed session belongs to a running command of a powered block (R17, R120). -/
theorem Inv.armed_shows {s : State} (h : Inv s) (ha : s.ctl.armed = true) :
    s.port.busy = true ∧ s.ctl.power = .up := by
  have he : s.eng ≠ .idle := by
    intro he
    rw [h.sound.armed_iff, he] at ha
    cases ha
  exact ⟨h.busy_iff.trans (running_of_eng he), h.sound.powered he⟩

/-- The six words of `STATUS`, each as class and cause (R67). -/
theorem Sound.status_pair {s : State} (h : Sound s) :
    (statusClass s.port.status, statusCause s.port.status) ∈
      [((0 : BitVec 4), (0 : BitVec 4)), (1, 1), (1, 2), (2, 3), (2, 4), (2, 5)] := by
  obtain hok | ⟨c, hc⟩ := h.status_legal
  · rw [hok]; decide
  · rw [hc]; cases c <;> decide

/-- A class other than that of `OK` goes with no result (R68, R159). -/
theorem Sound.resValid_of_failure {s : State} (h : Sound s) (hc : statusClass s.port.status ≠ 0) :
    s.resValid = false := by
  have hne : s.port.status ≠ statusOk := fun hok => hc (by rw [hok]; rfl)
  rw [State.resValid, h.failure_none hne]
  rfl

/-- `STATUS` has no bits but its class and its cause (R67). -/
theorem statusClass_append_statusCause (w : StatusWord) : statusClass w ++ statusCause w = w :=
  BitVec.extractLsb'_append_extractLsb'

/-- Settles O52: the invariant read at an idle engine, in a session and at the status word; the codes are constants. -/
theorem idleBetweenCommands : Obligations.IdleBetweenCommands := by
  refine ⟨fun s h => ⟨fun hb => h.sound.idle_shows (h.idle hb), h.armed_shows, h.sound.status_pair,
    h.sound.resValid_of_failure⟩, fun s => Option.isSome_iff_ne_none, statusClass_append_statusCause, ?_⟩
  decide

end Sys2Proof.Machine
end
